-- ==== Sys2Proof/Word.lean ====
section
/-! DEFINITION. The plain words of the device: bytes, bus addresses, command words and the 32-byte
block, the only access width of the bus (20_memory.md R60). -/

namespace Sys2Proof

/-- One byte lane of a block (R74). -/
abbrev Byte := BitVec 8

/-- The 16-bit bus address (R32, R60). -/
abbrev Addr := BitVec 16

/-- The 20-bit command word `CW` of a transaction (R100). -/
abbrev CmdWord := BitVec 20

/-- The wall clock in whole seconds, 64 bits unsigned (R40, R41). -/
abbrev Seconds := BitVec 64

/-- A block of the bus: 32 byte lanes, lane 0 being the byte at the block's own address
(R60, R71, R74). -/
abbrev Block := Vector Byte 32

/-- `Bcast(b)`: 32 copies of one byte (R13, R73). -/
def Block.bcast (b : Byte) : Block := Vector.replicate 32 b

/-- `Zero32`: 32 bytes of 0x00 (R13). -/
def Block.zero : Block := Block.bcast 0x00#8

end Sys2Proof
end

