-- ==== Sys2Proof/Config.lean ====
section
/-! DEFINITION. What is fixed for a cartridge once it is loaded (00_scope.md R2, R8), and the one value
the spec leaves undetermined (20_memory.md R63). -/

namespace Sys2Proof

/-- The variant a strap code names (30_encoding.md R101).  Exactly five are modelled (R2).  MMM01 is an
identity that is detected and refused (R5), and codes 4 and 7 are unassigned and refused (R101). -/
inductive Mapper where
  /-- strap code 0: no mapper (`NONE`) -/
  | none
  /-- strap code 1 -/
  | mbc1
  /-- strap code 2 -/
  | mbc2
  /-- strap code 3 -/
  | mbc3
  /-- strap code 4: no variant has it; refused -/
  | unassigned4
  /-- strap code 5 -/
  | mbc5
  /-- strap code 6: detected, not modelled by the spec; refused (R5) -/
  | mmm01
  /-- strap code 7: no variant has it; refused -/
  | unassigned7
deriving DecidableEq, Repr

/-- The cartridge identity `cfg` of R8, but for the ROM's bytes, which the state holds beside it: they
too never change after load. -/
structure Cfg where
  /-- `MAPPER` -/
  mapper : Mapper
  /-- `HAS_RAM` -/
  hasRam : Bool
  /-- `HAS_BATTERY`: a save writes the RAM out (R324, R331) -/
  hasBattery : Bool
  /-- `HAS_TIMER`: an RTC is fitted; it means something on MBC3 only (R12, R33) -/
  hasTimer : Bool
  /-- `HAS_RUMBLE`: flagged only, it changes nothing (R243) -/
  hasRumble : Bool
  /-- `ROM_BANKS`: how many banks of 16384 bytes -/
  romBanks : Nat
  /-- `RAM_BANKS`: how many banks of 8192 bytes -/
  ramBanks : Nat
  /-- `RAM_QUARTERS`: the RAM's size in quarter blocks of 2048 bytes -/
  ramQuarters : Nat
deriving DecidableEq, Repr

/-- The configuration the reset state has: the one a ROM of zeros identifies itself as, by the header
tables of R9 and R10 (log entry 2). -/
def Cfg.blank : Cfg := ⟨.none, false, false, false, false, 2, 0, 0⟩

/-- The bytes of `Any32` (R13, R63): what a read of an invalid window returns is not determined by the
device.  Free values, with no body: the machine applies this to a counter in its state, a fresh stretch of 32
for each such read (log entry 1). -/
opaque Config.freeByte : Nat → Byte

end Sys2Proof
end

