-- ==== Sys2Proof/Syntax.lean ====
section
/-! DEFINITION. The transactions of the device, one constructor per row of `spec/opcode_table.json`
(30_encoding.md R106).  A read takes the bus address, a write the address and its 32-byte payload (R60,
R102): these are the operands that the rules of 40_mapper_none.md to 44_mbc5.md name. -/

namespace Sys2Proof

/-- A decoded transaction.  The range of addresses a row is selected by is `Instr.shape`'s and is
checked by `Instr.wf`. -/
inductive Instr where
  /-- `NONE.RD.ROM` (R131): read flat ROM -/
  | noneRdRom (addr : Addr)
  /-- `NONE.RD.RAM` (R132): read unbanked RAM -/
  | noneRdRam (addr : Addr)
  /-- `NONE.RD.INV8` (R63): undetermined -/
  | noneRdInv8 (addr : Addr)
  /-- `NONE.RD.INVC` (R63): undetermined -/
  | noneRdInvc (addr : Addr)
  /-- `NONE.WR.ROM` (R133): no-op -/
  | noneWrRom (addr : Addr) (data : Block)
  /-- `NONE.WR.RAM` (R134): write unbanked RAM -/
  | noneWrRam (addr : Addr) (data : Block)
  /-- `NONE.WR.INV8` (R63): no-op -/
  | noneWrInv8 (addr : Addr) (data : Block)
  /-- `NONE.WR.INVC` (R63): no-op -/
  | noneWrInvc (addr : Addr) (data : Block)
  /-- `MBC1.RD.ROM0` (R151): read ROM bank 0 -/
  | mbc1RdRom0 (addr : Addr)
  /-- `MBC1.RD.ROMX` (R152): read ROM bank `rom_bank` -/
  | mbc1RdRomx (addr : Addr)
  /-- `MBC1.RD.RAM` (R153): read RAM bank `ram_bank` -/
  | mbc1RdRam (addr : Addr)
  /-- `MBC1.RD.INV8` (R63): undetermined -/
  | mbc1RdInv8 (addr : Addr)
  /-- `MBC1.RD.INVC` (R63): undetermined -/
  | mbc1RdInvc (addr : Addr)
  /-- `MBC1.WR.RAMEN` (R154): RAM enable -/
  | mbc1WrRamen (addr : Addr) (data : Block)
  /-- `MBC1.WR.ROMB` (R155): ROM bank low 5 bits -/
  | mbc1WrRomb (addr : Addr) (data : Block)
  /-- `MBC1.WR.BANK2` (R156): magic bits -/
  | mbc1WrBank2 (addr : Addr) (data : Block)
  /-- `MBC1.WR.MODE` (R157): banking mode -/
  | mbc1WrMode (addr : Addr) (data : Block)
  /-- `MBC1.WR.RAM` (R159): write RAM bank `ram_bank` -/
  | mbc1WrRam (addr : Addr) (data : Block)
  /-- `MBC1.WR.INV8` (R63): no-op -/
  | mbc1WrInv8 (addr : Addr) (data : Block)
  /-- `MBC1.WR.INVC` (R63): no-op -/
  | mbc1WrInvc (addr : Addr) (data : Block)
  /-- `MBC2.RD.ROM0` (R181): read ROM bank 0 -/
  | mbc2RdRom0 (addr : Addr)
  /-- `MBC2.RD.ROMX` (R182): read ROM bank `rom_bank` -/
  | mbc2RdRomx (addr : Addr)
  /-- `MBC2.RD.RAM` (R183): read RAM, gated by `ram_en` -/
  | mbc2RdRam (addr : Addr)
  /-- `MBC2.RD.INV8` (R63): undetermined -/
  | mbc2RdInv8 (addr : Addr)
  /-- `MBC2.RD.INVC` (R63): undetermined -/
  | mbc2RdInvc (addr : Addr)
  /-- `MBC2.WR.RAMEN` (R184): RAM enable -/
  | mbc2WrRamen (addr : Addr) (data : Block)
  /-- `MBC2.WR.ROMB` (R185): ROM bank 4 bits -/
  | mbc2WrRomb (addr : Addr) (data : Block)
  /-- `MBC2.WR.NOP` (R186): no-op -/
  | mbc2WrNop (addr : Addr) (data : Block)
  /-- `MBC2.WR.RAM` (R187): write RAM, gated by `ram_en` -/
  | mbc2WrRam (addr : Addr) (data : Block)
  /-- `MBC2.WR.INV8` (R63): no-op -/
  | mbc2WrInv8 (addr : Addr) (data : Block)
  /-- `MBC2.WR.INVC` (R63): no-op -/
  | mbc2WrInvc (addr : Addr) (data : Block)
  /-- `MBC3.RD.ROM0` (R201): read ROM bank 0 -/
  | mbc3RdRom0 (addr : Addr)
  /-- `MBC3.RD.ROMX` (R202): read ROM bank `rom_bank` -/
  | mbc3RdRomx (addr : Addr)
  /-- `MBC3.RD.RAM` (R203): read RAM bank or RTC register -/
  | mbc3RdRam (addr : Addr)
  /-- `MBC3.RD.INV8` (R63): undetermined -/
  | mbc3RdInv8 (addr : Addr)
  /-- `MBC3.RD.INVC` (R63): undetermined -/
  | mbc3RdInvc (addr : Addr)
  /-- `MBC3.WR.RAMEN` (R204): RAM enable -/
  | mbc3WrRamen (addr : Addr) (data : Block)
  /-- `MBC3.WR.ROMB` (R205): ROM bank 7 bits -/
  | mbc3WrRomb (addr : Addr) (data : Block)
  /-- `MBC3.WR.SEL` (R206): RAM bank or RTC register select -/
  | mbc3WrSel (addr : Addr) (data : Block)
  /-- `MBC3.WR.LATCH` (R207): RTC latch control -/
  | mbc3WrLatch (addr : Addr) (data : Block)
  /-- `MBC3.WR.RAM` (R208): write RAM bank or RTC register -/
  | mbc3WrRam (addr : Addr) (data : Block)
  /-- `MBC3.WR.INV8` (R63): no-op -/
  | mbc3WrInv8 (addr : Addr) (data : Block)
  /-- `MBC3.WR.INVC` (R63): no-op -/
  | mbc3WrInvc (addr : Addr) (data : Block)
  /-- `MBC5.RD.ROM0` (R232): read ROM bank 0 -/
  | mbc5RdRom0 (addr : Addr)
  /-- `MBC5.RD.ROMX` (R233): read ROM bank `rom_bank` -/
  | mbc5RdRomx (addr : Addr)
  /-- `MBC5.RD.RAM` (R234): read RAM bank `ram_bank` -/
  | mbc5RdRam (addr : Addr)
  /-- `MBC5.RD.INV8` (R63): undetermined -/
  | mbc5RdInv8 (addr : Addr)
  /-- `MBC5.RD.INVC` (R63): undetermined -/
  | mbc5RdInvc (addr : Addr)
  /-- `MBC5.WR.RAMEN` (R235): RAM enable -/
  | mbc5WrRamen (addr : Addr) (data : Block)
  /-- `MBC5.WR.ROMBL` (R236): ROM bank bits 7:0 -/
  | mbc5WrRombl (addr : Addr) (data : Block)
  /-- `MBC5.WR.ROMBH` (R237): ROM bank bit 8 -/
  | mbc5WrRombh (addr : Addr) (data : Block)
  /-- `MBC5.WR.RAMB` (R238): RAM bank 4 bits -/
  | mbc5WrRamb (addr : Addr) (data : Block)
  /-- `MBC5.WR.NOP` (R239): no-op -/
  | mbc5WrNop (addr : Addr) (data : Block)
  /-- `MBC5.WR.RAM` (R240): write RAM bank `ram_bank` -/
  | mbc5WrRam (addr : Addr) (data : Block)
  /-- `MBC5.WR.INV8` (R63): no-op -/
  | mbc5WrInv8 (addr : Addr) (data : Block)
  /-- `MBC5.WR.INVC` (R63): no-op -/
  | mbc5WrInvc (addr : Addr) (data : Block)
deriving DecidableEq, Repr

/-- What the operation map of R106 says of a row: its mnemonic, the variant it belongs to, its direction
and the addresses that select it. -/
structure Shape where
  mnemonic : String
  mapper : Mapper
  /-- `W` of the command word: a write (R100) -/
  write : Bool
  /-- the first address of the row's range -/
  lo : Nat
  /-- the last address of the row's range -/
  hi : Nat
deriving DecidableEq, Repr

/-- The row of R106 a transaction belongs to. -/
def Instr.shape : Instr → Shape
  | .noneRdRom .. => ⟨"NONE.RD.ROM", .none, false, 0x0000, 0x7FFF⟩
  | .noneRdRam .. => ⟨"NONE.RD.RAM", .none, false, 0xA000, 0xBFFF⟩
  | .noneRdInv8 .. => ⟨"NONE.RD.INV8", .none, false, 0x8000, 0x9FFF⟩
  | .noneRdInvc .. => ⟨"NONE.RD.INVC", .none, false, 0xC000, 0xFFFF⟩
  | .noneWrRom .. => ⟨"NONE.WR.ROM", .none, true, 0x0000, 0x7FFF⟩
  | .noneWrRam .. => ⟨"NONE.WR.RAM", .none, true, 0xA000, 0xBFFF⟩
  | .noneWrInv8 .. => ⟨"NONE.WR.INV8", .none, true, 0x8000, 0x9FFF⟩
  | .noneWrInvc .. => ⟨"NONE.WR.INVC", .none, true, 0xC000, 0xFFFF⟩
  | .mbc1RdRom0 .. => ⟨"MBC1.RD.ROM0", .mbc1, false, 0x0000, 0x3FFF⟩
  | .mbc1RdRomx .. => ⟨"MBC1.RD.ROMX", .mbc1, false, 0x4000, 0x7FFF⟩
  | .mbc1RdRam .. => ⟨"MBC1.RD.RAM", .mbc1, false, 0xA000, 0xBFFF⟩
  | .mbc1RdInv8 .. => ⟨"MBC1.RD.INV8", .mbc1, false, 0x8000, 0x9FFF⟩
  | .mbc1RdInvc .. => ⟨"MBC1.RD.INVC", .mbc1, false, 0xC000, 0xFFFF⟩
  | .mbc1WrRamen .. => ⟨"MBC1.WR.RAMEN", .mbc1, true, 0x0000, 0x1FFF⟩
  | .mbc1WrRomb .. => ⟨"MBC1.WR.ROMB", .mbc1, true, 0x2000, 0x3FFF⟩
  | .mbc1WrBank2 .. => ⟨"MBC1.WR.BANK2", .mbc1, true, 0x4000, 0x5FFF⟩
  | .mbc1WrMode .. => ⟨"MBC1.WR.MODE", .mbc1, true, 0x6000, 0x7FFF⟩
  | .mbc1WrRam .. => ⟨"MBC1.WR.RAM", .mbc1, true, 0xA000, 0xBFFF⟩
  | .mbc1WrInv8 .. => ⟨"MBC1.WR.INV8", .mbc1, true, 0x8000, 0x9FFF⟩
  | .mbc1WrInvc .. => ⟨"MBC1.WR.INVC", .mbc1, true, 0xC000, 0xFFFF⟩
  | .mbc2RdRom0 .. => ⟨"MBC2.RD.ROM0", .mbc2, false, 0x0000, 0x3FFF⟩
  | .mbc2RdRomx .. => ⟨"MBC2.RD.ROMX", .mbc2, false, 0x4000, 0x7FFF⟩
  | .mbc2RdRam .. => ⟨"MBC2.RD.RAM", .mbc2, false, 0xA000, 0xBFFF⟩
  | .mbc2RdInv8 .. => ⟨"MBC2.RD.INV8", .mbc2, false, 0x8000, 0x9FFF⟩
  | .mbc2RdInvc .. => ⟨"MBC2.RD.INVC", .mbc2, false, 0xC000, 0xFFFF⟩
  | .mbc2WrRamen .. => ⟨"MBC2.WR.RAMEN", .mbc2, true, 0x0000, 0x1FFF⟩
  | .mbc2WrRomb .. => ⟨"MBC2.WR.ROMB", .mbc2, true, 0x2000, 0x3FFF⟩
  | .mbc2WrNop .. => ⟨"MBC2.WR.NOP", .mbc2, true, 0x4000, 0x7FFF⟩
  | .mbc2WrRam .. => ⟨"MBC2.WR.RAM", .mbc2, true, 0xA000, 0xBFFF⟩
  | .mbc2WrInv8 .. => ⟨"MBC2.WR.INV8", .mbc2, true, 0x8000, 0x9FFF⟩
  | .mbc2WrInvc .. => ⟨"MBC2.WR.INVC", .mbc2, true, 0xC000, 0xFFFF⟩
  | .mbc3RdRom0 .. => ⟨"MBC3.RD.ROM0", .mbc3, false, 0x0000, 0x3FFF⟩
  | .mbc3RdRomx .. => ⟨"MBC3.RD.ROMX", .mbc3, false, 0x4000, 0x7FFF⟩
  | .mbc3RdRam .. => ⟨"MBC3.RD.RAM", .mbc3, false, 0xA000, 0xBFFF⟩
  | .mbc3RdInv8 .. => ⟨"MBC3.RD.INV8", .mbc3, false, 0x8000, 0x9FFF⟩
  | .mbc3RdInvc .. => ⟨"MBC3.RD.INVC", .mbc3, false, 0xC000, 0xFFFF⟩
  | .mbc3WrRamen .. => ⟨"MBC3.WR.RAMEN", .mbc3, true, 0x0000, 0x1FFF⟩
  | .mbc3WrRomb .. => ⟨"MBC3.WR.ROMB", .mbc3, true, 0x2000, 0x3FFF⟩
  | .mbc3WrSel .. => ⟨"MBC3.WR.SEL", .mbc3, true, 0x4000, 0x5FFF⟩
  | .mbc3WrLatch .. => ⟨"MBC3.WR.LATCH", .mbc3, true, 0x6000, 0x7FFF⟩
  | .mbc3WrRam .. => ⟨"MBC3.WR.RAM", .mbc3, true, 0xA000, 0xBFFF⟩
  | .mbc3WrInv8 .. => ⟨"MBC3.WR.INV8", .mbc3, true, 0x8000, 0x9FFF⟩
  | .mbc3WrInvc .. => ⟨"MBC3.WR.INVC", .mbc3, true, 0xC000, 0xFFFF⟩
  | .mbc5RdRom0 .. => ⟨"MBC5.RD.ROM0", .mbc5, false, 0x0000, 0x3FFF⟩
  | .mbc5RdRomx .. => ⟨"MBC5.RD.ROMX", .mbc5, false, 0x4000, 0x7FFF⟩
  | .mbc5RdRam .. => ⟨"MBC5.RD.RAM", .mbc5, false, 0xA000, 0xBFFF⟩
  | .mbc5RdInv8 .. => ⟨"MBC5.RD.INV8", .mbc5, false, 0x8000, 0x9FFF⟩
  | .mbc5RdInvc .. => ⟨"MBC5.RD.INVC", .mbc5, false, 0xC000, 0xFFFF⟩
  | .mbc5WrRamen .. => ⟨"MBC5.WR.RAMEN", .mbc5, true, 0x0000, 0x1FFF⟩
  | .mbc5WrRombl .. => ⟨"MBC5.WR.ROMBL", .mbc5, true, 0x2000, 0x2FFF⟩
  | .mbc5WrRombh .. => ⟨"MBC5.WR.ROMBH", .mbc5, true, 0x3000, 0x3FFF⟩
  | .mbc5WrRamb .. => ⟨"MBC5.WR.RAMB", .mbc5, true, 0x4000, 0x5FFF⟩
  | .mbc5WrNop .. => ⟨"MBC5.WR.NOP", .mbc5, true, 0x6000, 0x7FFF⟩
  | .mbc5WrRam .. => ⟨"MBC5.WR.RAM", .mbc5, true, 0xA000, 0xBFFF⟩
  | .mbc5WrInv8 .. => ⟨"MBC5.WR.INV8", .mbc5, true, 0x8000, 0x9FFF⟩
  | .mbc5WrInvc .. => ⟨"MBC5.WR.INVC", .mbc5, true, 0xC000, 0xFFFF⟩

/-- The 16-bit bus address of a transaction (R100). -/
def Instr.addr : Instr → Addr
  | .noneRdRom a | .noneRdRam a | .noneRdInv8 a | .noneRdInvc a | .mbc1RdRom0 a | .mbc1RdRomx a
  | .mbc1RdRam a | .mbc1RdInv8 a | .mbc1RdInvc a | .mbc2RdRom0 a | .mbc2RdRomx a | .mbc2RdRam a
  | .mbc2RdInv8 a | .mbc2RdInvc a | .mbc3RdRom0 a | .mbc3RdRomx a | .mbc3RdRam a | .mbc3RdInv8 a
  | .mbc3RdInvc a | .mbc5RdRom0 a | .mbc5RdRomx a | .mbc5RdRam a | .mbc5RdInv8 a | .mbc5RdInvc a => a
  | .noneWrRom a _ | .noneWrRam a _ | .noneWrInv8 a _ | .noneWrInvc a _ | .mbc1WrRamen a _
  | .mbc1WrRomb a _ | .mbc1WrBank2 a _ | .mbc1WrMode a _ | .mbc1WrRam a _ | .mbc1WrInv8 a _
  | .mbc1WrInvc a _ | .mbc2WrRamen a _ | .mbc2WrRomb a _ | .mbc2WrNop a _ | .mbc2WrRam a _
  | .mbc2WrInv8 a _ | .mbc2WrInvc a _ | .mbc3WrRamen a _ | .mbc3WrRomb a _ | .mbc3WrSel a _
  | .mbc3WrLatch a _ | .mbc3WrRam a _ | .mbc3WrInv8 a _ | .mbc3WrInvc a _ | .mbc5WrRamen a _
  | .mbc5WrRombl a _ | .mbc5WrRombh a _ | .mbc5WrRamb a _ | .mbc5WrNop a _ | .mbc5WrRam a _
  | .mbc5WrInv8 a _ | .mbc5WrInvc a _ => a

/-- The payload of a write; a read carries none (R102). -/
def Instr.payload : Instr → Option Block
  | .noneRdRom _ | .noneRdRam _ | .noneRdInv8 _ | .noneRdInvc _ | .mbc1RdRom0 _ | .mbc1RdRomx _
  | .mbc1RdRam _ | .mbc1RdInv8 _ | .mbc1RdInvc _ | .mbc2RdRom0 _ | .mbc2RdRomx _ | .mbc2RdRam _
  | .mbc2RdInv8 _ | .mbc2RdInvc _ | .mbc3RdRom0 _ | .mbc3RdRomx _ | .mbc3RdRam _ | .mbc3RdInv8 _
  | .mbc3RdInvc _ | .mbc5RdRom0 _ | .mbc5RdRomx _ | .mbc5RdRam _ | .mbc5RdInv8 _ | .mbc5RdInvc _ => .none
  | .noneWrRom _ d | .noneWrRam _ d | .noneWrInv8 _ d | .noneWrInvc _ d | .mbc1WrRamen _ d
  | .mbc1WrRomb _ d | .mbc1WrBank2 _ d | .mbc1WrMode _ d | .mbc1WrRam _ d | .mbc1WrInv8 _ d
  | .mbc1WrInvc _ d | .mbc2WrRamen _ d | .mbc2WrRomb _ d | .mbc2WrNop _ d | .mbc2WrRam _ d
  | .mbc2WrInv8 _ d | .mbc2WrInvc _ d | .mbc3WrRamen _ d | .mbc3WrRomb _ d | .mbc3WrSel _ d
  | .mbc3WrLatch _ d | .mbc3WrRam _ d | .mbc3WrInv8 _ d | .mbc3WrInvc _ d | .mbc5WrRamen _ d
  | .mbc5WrRombl _ d | .mbc5WrRombh _ d | .mbc5WrRamb _ d | .mbc5WrNop _ d | .mbc5WrRam _ d
  | .mbc5WrInv8 _ d | .mbc5WrInvc _ d => .some d

end Sys2Proof
end

