-- ==== Sys2Proof/WellFormed.lean ====
section
/-! DEFINITION. When a transaction is well formed: the two conditions every operation rule of
40_mapper_none.md to 44_mbc5.md puts on its operand `addr`. -/

namespace Sys2Proof

/-- `addr[4:0] = 0`: the block is aligned (20_memory.md R61). -/
def aligned (addr : Addr) : Bool := addr.toNat % 32 == 0

/-- The address lies in the range of the transaction's own row (30_encoding.md R106). -/
def Instr.inRange (i : Instr) : Bool :=
  decide (i.shape.lo ≤ i.addr.toNat) && decide (i.addr.toNat ≤ i.shape.hi)

/-- A transaction is well formed when its address is aligned and in the range of its row. -/
def Instr.wf (i : Instr) : Bool := aligned i.addr && i.inRange

end Sys2Proof
end

