-- ==== Sys2Proof/Decode.lean ====
section
/-! DEFINITION. From a 20-bit command word and a payload to a transaction, or to one of the two refusals
(30_encoding.md R103); the encoder; and the table of `spec/opcode_table.json`. -/

namespace Sys2Proof

/-- Why a command word is no transaction (R103, R108). -/
inductive Reject where
  /-- the strap code is not one of the five variants -/
  | unsupportedMapper
  /-- `addr[4:0] != 0` -/
  | unaligned
deriving DecidableEq, Repr

/-- What decoding answers. -/
inductive Decoded where
  | instr (i : Instr)
  | reject (r : Reject)
deriving DecidableEq, Repr

/-- The variant of a strap code `M` (R101). -/
def Mapper.ofStrap (m : BitVec 3) : Mapper :=
  match m.toNat with
  | 0 => .none
  | 1 => .mbc1
  | 2 => .mbc2
  | 3 => .mbc3
  | 4 => .unassigned4
  | 5 => .mbc5
  | 6 => .mmm01
  | _ => .unassigned7

/-- The strap code `M` of a variant (R101). -/
def Mapper.strap : Mapper → BitVec 3
  | .none => 0#3
  | .mbc1 => 1#3
  | .mbc2 => 2#3
  | .mbc3 => 3#3
  | .unassigned4 => 4#3
  | .mbc5 => 5#3
  | .mmm01 => 6#3
  | .unassigned7 => 7#3

/-- The five variants that are modelled (R2, R101). -/
def Mapper.modelled : Mapper → Bool
  | .none | .mbc1 | .mbc2 | .mbc3 | .mbc5 => true
  | .unassigned4 | .mmm01 | .unassigned7 => false

/-- `CW[19:17] = M`, `CW[16] = W`, `CW[15:0] = addr` (R100). -/
def commandWord (m : Mapper) (write : Bool) (addr : Addr) : CmdWord :=
  m.strap ++ BitVec.ofBool write ++ addr

/-- `M`, the strap code of a command word (R100). -/
def CmdWord.strap (cw : CmdWord) : BitVec 3 := cw.extractLsb' 17 3

/-- `W`, the direction of a command word: true for a write (R100). -/
def CmdWord.write (cw : CmdWord) : Bool := cw.getLsbD 16

/-- `addr`, the bus address of a command word (R100). -/
def CmdWord.addr (cw : CmdWord) : Addr := cw.extractLsb' 0 16

/-- The rows of NONE, by `W` and `addr[15:13]` (R106). -/
def decodeNone (w : Bool) (a : Addr) (d : Block) : Instr :=
  match w, a.getLsbD 15, a.getLsbD 14, a.getLsbD 13 with
  | false, false, _, _ => .noneRdRom a
  | false, true, false, true => .noneRdRam a
  | false, true, false, false => .noneRdInv8 a
  | false, true, true, _ => .noneRdInvc a
  | true, false, _, _ => .noneWrRom a d
  | true, true, false, true => .noneWrRam a d
  | true, true, false, false => .noneWrInv8 a d
  | true, true, true, _ => .noneWrInvc a d

/-- The rows of MBC1, by `W` and `addr[15:13]` (R106). -/
def decodeMbc1 (w : Bool) (a : Addr) (d : Block) : Instr :=
  match w, a.getLsbD 15, a.getLsbD 14, a.getLsbD 13 with
  | false, false, false, _ => .mbc1RdRom0 a
  | false, false, true, _ => .mbc1RdRomx a
  | false, true, false, true => .mbc1RdRam a
  | false, true, false, false => .mbc1RdInv8 a
  | false, true, true, _ => .mbc1RdInvc a
  | true, false, false, false => .mbc1WrRamen a d
  | true, false, false, true => .mbc1WrRomb a d
  | true, false, true, false => .mbc1WrBank2 a d
  | true, false, true, true => .mbc1WrMode a d
  | true, true, false, true => .mbc1WrRam a d
  | true, true, false, false => .mbc1WrInv8 a d
  | true, true, true, _ => .mbc1WrInvc a d

/-- The rows of MBC2, by `W` and `addr[15:13]` (R106). -/
def decodeMbc2 (w : Bool) (a : Addr) (d : Block) : Instr :=
  match w, a.getLsbD 15, a.getLsbD 14, a.getLsbD 13 with
  | false, false, false, _ => .mbc2RdRom0 a
  | false, false, true, _ => .mbc2RdRomx a
  | false, true, false, true => .mbc2RdRam a
  | false, true, false, false => .mbc2RdInv8 a
  | false, true, true, _ => .mbc2RdInvc a
  | true, false, false, false => .mbc2WrRamen a d
  | true, false, false, true => .mbc2WrRomb a d
  | true, false, true, _ => .mbc2WrNop a d
  | true, true, false, true => .mbc2WrRam a d
  | true, true, false, false => .mbc2WrInv8 a d
  | true, true, true, _ => .mbc2WrInvc a d

/-- The rows of MBC3, by `W` and `addr[15:13]` (R106). -/
def decodeMbc3 (w : Bool) (a : Addr) (d : Block) : Instr :=
  match w, a.getLsbD 15, a.getLsbD 14, a.getLsbD 13 with
  | false, false, false, _ => .mbc3RdRom0 a
  | false, false, true, _ => .mbc3RdRomx a
  | false, true, false, true => .mbc3RdRam a
  | false, true, false, false => .mbc3RdInv8 a
  | false, true, true, _ => .mbc3RdInvc a
  | true, false, false, false => .mbc3WrRamen a d
  | true, false, false, true => .mbc3WrRomb a d
  | true, false, true, false => .mbc3WrSel a d
  | true, false, true, true => .mbc3WrLatch a d
  | true, true, false, true => .mbc3WrRam a d
  | true, true, false, false => .mbc3WrInv8 a d
  | true, true, true, _ => .mbc3WrInvc a d

/-- The rows of MBC5: reads by `addr[15:13]`, writes by `addr[15:12]` (R106, R231). -/
def decodeMbc5 (w : Bool) (a : Addr) (d : Block) : Instr :=
  match w, a.getLsbD 15, a.getLsbD 14, a.getLsbD 13, a.getLsbD 12 with
  | false, false, false, _, _ => .mbc5RdRom0 a
  | false, false, true, _, _ => .mbc5RdRomx a
  | false, true, false, true, _ => .mbc5RdRam a
  | false, true, false, false, _ => .mbc5RdInv8 a
  | false, true, true, _, _ => .mbc5RdInvc a
  | true, false, false, false, _ => .mbc5WrRamen a d
  | true, false, false, true, false => .mbc5WrRombl a d
  | true, false, false, true, true => .mbc5WrRombh a d
  | true, false, true, false, _ => .mbc5WrRamb a d
  | true, false, true, true, _ => .mbc5WrNop a d
  | true, true, false, true, _ => .mbc5WrRam a d
  | true, true, false, false, _ => .mbc5WrInv8 a d
  | true, true, true, _, _ => .mbc5WrInvc a d

/-- Decoding, total on any word: the variant first, then the alignment, then the row (R103).  The
payload is a write's 32 bytes, and a read ignores it. -/
def decode (cw : CmdWord) (payload : Block) : Decoded :=
  let a := cw.addr
  let ok (i : Instr) : Decoded :=
    if a.extractLsb' 0 5 = 0#5 then .instr i else .reject .unaligned
  match Mapper.ofStrap cw.strap with
  | .none => ok (decodeNone cw.write a payload)
  | .mbc1 => ok (decodeMbc1 cw.write a payload)
  | .mbc2 => ok (decodeMbc2 cw.write a payload)
  | .mbc3 => ok (decodeMbc3 cw.write a payload)
  | .mbc5 => ok (decodeMbc5 cw.write a payload)
  | .unassigned4 | .mmm01 | .unassigned7 => .reject .unsupportedMapper

/-- The command word and the payload of a transaction (R100, R102).  A read has no payload: zeros
stand for it, which decoding ignores. -/
def encode (i : Instr) : CmdWord × Block :=
  (commandWord i.shape.mapper i.shape.write i.addr, i.payload.getD Block.zero)

/-- The transaction the decoder reads from the bits `w` of a row of the opcode table, with a payload of
zeros.  A command word has 20 bits (R100): a number that does not fit them is none. -/
def decodeTableWord (nbits w : Nat) : Option Instr :=
  match nbits, decode (BitVec.ofNat 20 w) Block.zero with
  | _, .instr i => if w < 2 ^ 20 then .some i else .none
  | _, .reject _ => .none

/-- A row of `spec/opcode_table.json`: a command word belongs to it iff `CW & mask == match`. -/
structure TableRow where
  mnemonic : String
  value : CmdWord
  mask : CmdWord
deriving DecidableEq, Repr

/-- The row a command word is tested against (30_encoding.md, the paragraph on `match` and `mask`). -/
def TableRow.matches (r : TableRow) (cw : CmdWord) : Bool := cw &&& r.mask == r.value

/-- The table's rows of NONE, as the table gives them. -/
def rowsNone : List TableRow :=
  [⟨"NONE.RD.ROM", 0x00000#20, 0xF801F#20⟩,
   ⟨"NONE.RD.RAM", 0x0A000#20, 0xFE01F#20⟩,
   ⟨"NONE.RD.INV8", 0x08000#20, 0xFE01F#20⟩,
   ⟨"NONE.RD.INVC", 0x0C000#20, 0xFC01F#20⟩,
   ⟨"NONE.WR.ROM", 0x10000#20, 0xF801F#20⟩,
   ⟨"NONE.WR.RAM", 0x1A000#20, 0xFE01F#20⟩,
   ⟨"NONE.WR.INV8", 0x18000#20, 0xFE01F#20⟩,
   ⟨"NONE.WR.INVC", 0x1C000#20, 0xFC01F#20⟩]

/-- The table's rows of MBC1, as the table gives them. -/
def rowsMbc1 : List TableRow :=
  [⟨"MBC1.RD.ROM0", 0x20000#20, 0xFC01F#20⟩,
   ⟨"MBC1.RD.ROMX", 0x24000#20, 0xFC01F#20⟩,
   ⟨"MBC1.RD.RAM", 0x2A000#20, 0xFE01F#20⟩,
   ⟨"MBC1.RD.INV8", 0x28000#20, 0xFE01F#20⟩,
   ⟨"MBC1.RD.INVC", 0x2C000#20, 0xFC01F#20⟩,
   ⟨"MBC1.WR.RAMEN", 0x30000#20, 0xFE01F#20⟩,
   ⟨"MBC1.WR.ROMB", 0x32000#20, 0xFE01F#20⟩,
   ⟨"MBC1.WR.BANK2", 0x34000#20, 0xFE01F#20⟩,
   ⟨"MBC1.WR.MODE", 0x36000#20, 0xFE01F#20⟩,
   ⟨"MBC1.WR.RAM", 0x3A000#20, 0xFE01F#20⟩,
   ⟨"MBC1.WR.INV8", 0x38000#20, 0xFE01F#20⟩,
   ⟨"MBC1.WR.INVC", 0x3C000#20, 0xFC01F#20⟩]

/-- The table's rows of MBC2, as the table gives them. -/
def rowsMbc2 : List TableRow :=
  [⟨"MBC2.RD.ROM0", 0x40000#20, 0xFC01F#20⟩,
   ⟨"MBC2.RD.ROMX", 0x44000#20, 0xFC01F#20⟩,
   ⟨"MBC2.RD.RAM", 0x4A000#20, 0xFE01F#20⟩,
   ⟨"MBC2.RD.INV8", 0x48000#20, 0xFE01F#20⟩,
   ⟨"MBC2.RD.INVC", 0x4C000#20, 0xFC01F#20⟩,
   ⟨"MBC2.WR.RAMEN", 0x50000#20, 0xFE01F#20⟩,
   ⟨"MBC2.WR.ROMB", 0x52000#20, 0xFE01F#20⟩,
   ⟨"MBC2.WR.NOP", 0x54000#20, 0xFC01F#20⟩,
   ⟨"MBC2.WR.RAM", 0x5A000#20, 0xFE01F#20⟩,
   ⟨"MBC2.WR.INV8", 0x58000#20, 0xFE01F#20⟩,
   ⟨"MBC2.WR.INVC", 0x5C000#20, 0xFC01F#20⟩]

/-- The table's rows of MBC3, as the table gives them. -/
def rowsMbc3 : List TableRow :=
  [⟨"MBC3.RD.ROM0", 0x60000#20, 0xFC01F#20⟩,
   ⟨"MBC3.RD.ROMX", 0x64000#20, 0xFC01F#20⟩,
   ⟨"MBC3.RD.RAM", 0x6A000#20, 0xFE01F#20⟩,
   ⟨"MBC3.RD.INV8", 0x68000#20, 0xFE01F#20⟩,
   ⟨"MBC3.RD.INVC", 0x6C000#20, 0xFC01F#20⟩,
   ⟨"MBC3.WR.RAMEN", 0x70000#20, 0xFE01F#20⟩,
   ⟨"MBC3.WR.ROMB", 0x72000#20, 0xFE01F#20⟩,
   ⟨"MBC3.WR.SEL", 0x74000#20, 0xFE01F#20⟩,
   ⟨"MBC3.WR.LATCH", 0x76000#20, 0xFE01F#20⟩,
   ⟨"MBC3.WR.RAM", 0x7A000#20, 0xFE01F#20⟩,
   ⟨"MBC3.WR.INV8", 0x78000#20, 0xFE01F#20⟩,
   ⟨"MBC3.WR.INVC", 0x7C000#20, 0xFC01F#20⟩]

/-- The table's rows of MBC5, as the table gives them. -/
def rowsMbc5 : List TableRow :=
  [⟨"MBC5.RD.ROM0", 0xA0000#20, 0xFC01F#20⟩,
   ⟨"MBC5.RD.ROMX", 0xA4000#20, 0xFC01F#20⟩,
   ⟨"MBC5.RD.RAM", 0xAA000#20, 0xFE01F#20⟩,
   ⟨"MBC5.RD.INV8", 0xA8000#20, 0xFE01F#20⟩,
   ⟨"MBC5.RD.INVC", 0xAC000#20, 0xFC01F#20⟩,
   ⟨"MBC5.WR.RAMEN", 0xB0000#20, 0xFE01F#20⟩,
   ⟨"MBC5.WR.ROMBL", 0xB2000#20, 0xFF01F#20⟩,
   ⟨"MBC5.WR.ROMBH", 0xB3000#20, 0xFF01F#20⟩,
   ⟨"MBC5.WR.RAMB", 0xB4000#20, 0xFE01F#20⟩,
   ⟨"MBC5.WR.NOP", 0xB6000#20, 0xFE01F#20⟩,
   ⟨"MBC5.WR.RAM", 0xBA000#20, 0xFE01F#20⟩,
   ⟨"MBC5.WR.INV8", 0xB8000#20, 0xFE01F#20⟩,
   ⟨"MBC5.WR.INVC", 0xBC000#20, 0xFC01F#20⟩]

/-- The opcode table, in its own order. -/
def tableRows : List TableRow := rowsNone ++ rowsMbc1 ++ rowsMbc2 ++ rowsMbc3 ++ rowsMbc5

end Sys2Proof
end

