-- ==== Sys2Proof/Machine/State.lean ====
section
/-! DEFINITION. Everything the spec gives the device, as plain data (10_state.md), with what surrounds it on
the bus: the requests the host has issued, the wall-clock input, and the outputs (R41, R60, R81, R308). -/

namespace Sys2Proof.Machine

/-- A byte array (`ROM` or `RAM`) as the list of the bytes that differ from what an unlisted index
reads as, by rising index; `Memory.wf` is that form. -/
abbrev Memory := List Host.Cell

/-- The device never traps: every fault condition of the bus completes with a degraded result
(60_exceptions.md R290, R295), so a step has no fault to stop with.  The conditions themselves are
`BusFault`. -/
inductive Fault where
deriving DecidableEq, Repr

/-- Why a request has no step.  The first four are the spec's own (60_exceptions.md R293). -/
inductive Refusal where
  /-- Raised when the device is loaded with a strap code other than the five variants', by a bus transaction
  (R103) and by a load (R321).  Safe: the spec gives no device. -/
  | unsupportedMapper
  /-- Raised by a bus transaction with `addr[4:0] != 0` (R61).  Safe: the spec gives no behaviour. -/
  | unaligned
  /-- Raised by whatever runs `tick(now)` with `now < rtc.last`: an unlatched RTC read, a latch write, a load that
  restores a clock (R267).  Safe: the spec gives no behaviour. -/
  | clockBackwards
  /-- Raised by a load whose configuration is not well formed (R12).  Safe: the spec refuses it. -/
  | illFormedConfig
  /-- Raised by a bus transaction or a save when no cartridge is loaded (R332).  Safe: there is no device. -/
  | notLoaded
  /-- Raised by an instruction that has no meaning yet; no arm of `exec` raises it.  Safe. -/
  | notModelled (mnemonic : String)
deriving DecidableEq, Repr

/-- The fault conditions of the bus, F1 to F6 (R291).  None of them stops anything: each names why a
transaction completed with a degraded result. -/
inductive BusFault where
  /-- F1: `addr[15:13]` in 4, 6, 7 -/
  | invalidWindow
  /-- F2: `rom_bank >= ROM_BANKS` -/
  | romBankRange
  /-- F3: no RAM is present -/
  | ramAbsent
  /-- F4: `ram_bank >= RAM_BANKS` -/
  | ramBankRange
  /-- F5: NONE with quarter-sized RAM, above 0xA7FF -/
  | ramRange
  /-- F6: MBC2 with `ram_en` false -/
  | ramDisabled
deriving DecidableEq, Repr

/-- The four bank registers, the source's `BankingState` (R20, R22 to R25). -/
structure BankRegs where
  /-- `rom_bank` (R22) -/
  romBank : BitVec 9
  /-- `ram_bank` (R23) -/
  ramBank : BitVec 4
  /-- `ram_en` (R24) -/
  ramEn : Bool
  /-- `mode`: false is ROM-banking mode, true RAM-banking mode (R25) -/
  mode : Bool
deriving DecidableEq, Repr

/-- Five one-byte clock registers (R34): the shape of both `rtc.live` and `rtc.lat`. -/
structure RtcRegs where
  /-- index 0, select code 0x08 -/
  seconds : Byte
  /-- index 1, select code 0x09 -/
  minutes : Byte
  /-- index 2, select code 0x0A -/
  hours : Byte
  /-- index 3, select code 0x0B: bits 7:0 of the day counter -/
  dayLow : Byte
  /-- index 4, select code 0x0C, the control byte: bit 0 is bit 8 of the day counter, bit 7 the sticky
  day-carry, bits 6:1 are stored and interpreted by nothing (R36) -/
  ctl : Byte
deriving DecidableEq, Repr

/-- Which of the five registers the RAM window addresses (R34). -/
inductive RtcReg where
  | seconds
  | minutes
  | hours
  | dayLow
  | ctl
deriving DecidableEq, Repr

/-- The RTC state (R20, R33 to R40). -/
structure Rtc where
  /-- `rtc.live` (R34) -/
  live : RtcRegs
  /-- `rtc.lat`, the snapshot (R37) -/
  lat : RtcRegs
  /-- `rtc.latched`, the source of an RTC read (R39) -/
  latched : Bool
  /-- `rtc.last`, up to when elapsed time has been added in (R40) -/
  last : Seconds
deriving DecidableEq, Repr

/-- The RTC part of a saved image: ten register bytes and a timestamp, no flag (R325, R327, R331). -/
structure RtcImage where
  live : RtcRegs
  lat : RtcRegs
  last : Seconds
deriving DecidableEq, Repr

/-- What a save writes out: the abstract record of R327. -/
structure Image where
  ram : List Byte
  rtc : Option RtcImage
deriving DecidableEq, Repr

/-- What a load is given (R320): the identity, the ROM image, the saved RAM bytes and the saved clock
if there are any (`RAM_INIT`, `RTC_INIT`: R323, R325), and the wall clock. -/
structure Launch where
  cfg : Cfg
  /-- the ROM image, byte 0 first -/
  rom : List Byte
  /-- the saved RAM bytes, if an image is available.  A container payload that was discarded for its size is
  the empty list (R323) -/
  ramInit : Option (List Byte)
  rtcInit : Option RtcImage
  now : Seconds
deriving DecidableEq, Repr

/-- What the host issues (R81, R113): a bus transaction with the wall clock at it (R41, R60), or one of the
host operations. -/
inductive Request where
  /-- `read(address) -> 32 bytes` -/
  | read (addr : Addr) (now : Seconds)
  /-- `write(address, data)` -/
  | write (addr : Addr) (data : Block) (now : Seconds)
  | load (p : Launch)
  | save
  | unload
deriving DecidableEq, Repr

/-- The optional write-only event of R308 for the latest transaction: the row that fired, and the
fault condition it met, if any. -/
structure Diag where
  op : Option Instr
  fault : Option BusFault
deriving DecidableEq, Repr

/-- The device and its bus.  The spec's own state is `bank`, `ram` and `rtc` (R20), the power state
`loaded` (R309), and the configuration `cfg` and `rom` (R8, R30), which only a load sets.  The others are the model's:
inputs the host has issued, outputs, and the counter of the free values. -/
structure State where
  /-- `cfg` (R8) -/
  cfg : Cfg
  /-- `ROM` (R30) -/
  rom : Memory
  /-- a cartridge is loaded (R309, R332) -/
  loaded : Bool
  /-- the bank registers (R22 to R25) -/
  bank : BankRegs
  /-- `RAM` (R31) -/
  ram : Memory
  /-- the RTC state (R33 to R40) -/
  rtc : Rtc
  /-- input: the wall clock at the transaction being served (R41) -/
  now : Seconds
  /-- input: what the host has issued and the device has not served yet, oldest first (R80) -/
  inbox : List Request
  /-- output: the block the latest transaction returned, if it was a read (R60) -/
  out : Option Block
  /-- output: the diagnostic event of the latest transaction (R308) -/
  diag : Diag
  /-- output: what the latest save wrote out (R331) -/
  saved : Option Image
  /-- how many blocks of free values have been drawn (R63) -/
  free : Nat
deriving DecidableEq, Repr

/-- The bank registers after any load (R26). -/
def BankRegs.reset : BankRegs := ⟨1#9, 0#4, false, false⟩

/-- Five zero registers (R326). -/
def RtcRegs.zero : RtcRegs := ⟨0#8, 0#8, 0#8, 0#8, 0#8⟩

/-- The RTC after a cold load at `now` (R326). -/
def Rtc.cold (now : Seconds) : Rtc := ⟨.zero, .zero, false, now⟩

/-- Right after reset, which is a cold load (R320): the bank registers as R26 says; RAM and RTC cold
(R322, R326); nothing issued, nothing returned.  The configuration is the spec's parameter, and the value it has here is
the model's (log entry 2), as is the load's wall clock 0 (log entry 3). -/
def State.reset : State where
  cfg := .blank
  rom := []
  loaded := true
  bank := .reset
  ram := []
  rtc := .cold 0#64
  now := 0#64
  inbox := []
  out := .none
  diag := ⟨.none, .none⟩
  saved := .none
  free := 0

end Sys2Proof.Machine
end

