-- ==== Sys2Proof/Machine/Identity.lean ====
section
/-! DEFINITION. The cartridge identity: its header bytes (00_scope.md R9, R10), what is derived from it
(R11), and when it is well formed (R12). -/

namespace Sys2Proof

/-- `ROM_BYTES` (R11). -/
def Cfg.romBytes (c : Cfg) : Nat := c.romBanks * 16384

/-- `RAM_BYTES` (R11). -/
def Cfg.ramBytes (c : Cfg) : Nat := c.ramBanks * 8192

/-- `RAM_PRESENT` (R11). -/
def Cfg.ramPresent (c : Cfg) : Bool := c.hasRam && decide (1 ≤ c.ramBanks)

/-- `QUARTER_SIZED` (R11). -/
def Cfg.quarterSized (c : Cfg) : Bool := c.ramQuarters == 1

/-- The RTC state exists: `MAPPER = MBC3` and `HAS_TIMER` (R33). -/
def Cfg.hasRtc (c : Cfg) : Bool := c.mapper == .mbc3 && c.hasTimer

/-- `ROM_BANKS` by header byte 0x148, default 2 (R9). -/
def romBanksOfCode (code : Byte) : Nat :=
  match code.toNat with
  | 0x00 => 2
  | 0x01 => 4
  | 0x02 => 8
  | 0x03 => 16
  | 0x04 => 32
  | 0x05 => 64
  | 0x06 => 128
  | 0x52 => 72
  | 0x53 => 80
  | 0x54 => 96
  | _ => 2

/-- `(RAM_BANKS, RAM_QUARTERS)` by header byte 0x149; any other code is refused (R9). -/
def ramSizeOfCode (code : Byte) : Option (Nat × Nat) :=
  match code.toNat with
  | 0x00 => .some (0, 0)
  | 0x01 => .some (1, 1)
  | 0x02 => .some (1, 4)
  | 0x03 => .some (4, 16)
  | 0x04 => .some (16, 64)
  | 0x05 => .some (8, 32)
  | _ => .none

/-- What header byte 0x147 says of a cartridge (R10). -/
structure CartType where
  mapper : Mapper
  hasRam : Bool
  hasBattery : Bool
  hasTimer : Bool
  hasRumble : Bool
deriving DecidableEq, Repr

/-- The table of R10, which the spec itself supplies from general knowledge (93_implementation_defined.md
G1).  `mbc2HasRam` is the open parameter `MBC2_HAS_RAM` (P1).  A code the table does not have is none. -/
def cartTypeOfCode (mbc2HasRam : Bool) (code : Byte) : Option CartType :=
  match code.toNat with
  | 0x00 => .some ⟨.none, false, false, false, false⟩
  | 0x01 => .some ⟨.mbc1, false, false, false, false⟩
  | 0x02 => .some ⟨.mbc1, true, false, false, false⟩
  | 0x03 => .some ⟨.mbc1, true, true, false, false⟩
  | 0x05 => .some ⟨.mbc2, mbc2HasRam, false, false, false⟩
  | 0x06 => .some ⟨.mbc2, mbc2HasRam, true, false, false⟩
  | 0x08 => .some ⟨.none, true, false, false, false⟩
  | 0x09 => .some ⟨.none, true, true, false, false⟩
  | 0x0B | 0x0C | 0x0D => .some ⟨.mmm01, false, false, false, false⟩
  | 0x0F => .some ⟨.mbc3, false, true, true, false⟩
  | 0x10 => .some ⟨.mbc3, true, true, true, false⟩
  | 0x11 => .some ⟨.mbc3, false, false, false, false⟩
  | 0x12 => .some ⟨.mbc3, true, false, false, false⟩
  | 0x13 => .some ⟨.mbc3, true, true, false, false⟩
  | 0x19 => .some ⟨.mbc5, false, false, false, false⟩
  | 0x1A => .some ⟨.mbc5, true, false, false, false⟩
  | 0x1B => .some ⟨.mbc5, true, true, false, false⟩
  | 0x1C => .some ⟨.mbc5, false, false, false, true⟩
  | 0x1D => .some ⟨.mbc5, true, false, false, true⟩
  | 0x1E => .some ⟨.mbc5, true, true, false, true⟩
  | _ => .none

/-- A configuration, or the refusal of it. -/
inductive Identified where
  | cfg (c : Cfg)
  | refused (r : Machine.Refusal)
deriving DecidableEq, Repr

/-- The identity that header bytes 0x147, 0x148, 0x149 give (R8, R320 step 1).  An MMM01 code and a code the
table does not have are an unsupported mapper (R10, R297), an unknown RAM size code an ill-formed configuration (R9).
DESIGN CHOICE: the spec gives no order of the two when both hold, and here the type code is judged first, as a
transaction's strap code is (R103; log entry 21). -/
def identityOfHeader (mbc2HasRam : Bool) (type rom ram : Byte) : Identified :=
  match cartTypeOfCode mbc2HasRam type with
  | .none => .refused .unsupportedMapper
  | .some t =>
    if t.mapper.modelled then
      match ramSizeOfCode ram with
      | .none => .refused .illFormedConfig
      | .some (banks, quarters) =>
        .cfg ⟨t.mapper, t.hasRam, t.hasBattery, t.hasTimer, t.hasRumble, romBanksOfCode rom, banks, quarters⟩
    else .refused .unsupportedMapper

/-- The identity of a ROM image, by its own header bytes (R8).  DESIGN CHOICE: a header byte that an image
shorter than 0x14A bytes does not have is read as 0x00; the spec says nothing of it (91_not_in_source.md N12; log entry
22).  A load refuses every such image for its size. -/
def identityOfRom (mbc2HasRam : Bool) (rom : List Byte) : Identified :=
  identityOfHeader mbc2HasRam (rom.getD 0x147 0#8) (rom.getD 0x148 0#8) (rom.getD 0x149 0#8)

/-- The ROM and RAM sizes are rows of the tables of R9. -/
def Cfg.sizesOk (c : Cfg) : Bool :=
  [2, 4, 8, 16, 32, 64, 128, 72, 80, 96].contains c.romBanks &&
    [(0, 0), (1, 1), (1, 4), (4, 16), (16, 64), (8, 32)].contains (c.ramBanks, c.ramQuarters)

/-- A well-formed configuration (R12), but for the ROM's size, which a load checks. -/
def Cfg.wf (c : Cfg) : Bool :=
  c.mapper.modelled && c.sizesOk && !(c.hasTimer && c.hasRam && c.quarterSized)

end Sys2Proof
end

