-- ==== Sys2Proof/Machine/Ops.lean ====
section
/-! DEFINITION. The operations every meaning is written over: byte arrays, the blocks of the bus
(00_scope.md R13), the end of a transaction, and the degraded result of a fault condition
(60_exceptions.md R290 to R296). -/

namespace Sys2Proof.Machine

/-! ## Byte arrays -/

/-- What a byte of `RAM` reads as that nothing has written since a cold load: runs of 128 bytes,
0x00 first (R322). -/
def ramBlank (i : Nat) : Byte := if i / 128 % 2 = 0 then 0x00#8 else 0xFF#8

/-- What an unlisted byte of `ROM` reads as.  A ROM image gives every byte, so this is only the way an
image is written down, and the contents of the blank reset cartridge (log entry 2). -/
def romBlank (_ : Nat) : Byte := 0x00#8

/-- The canonical form: indices strictly rising, and no entry equal to what an unlisted index reads
as. -/
abbrev Memory.wf (blank : Nat → Byte) (m : Memory) : Prop :=
  m.Pairwise (fun c d => c.1 < d.1) ∧ ∀ c ∈ m, c.2 ≠ blank c.1

/-- The byte at an index. -/
def Memory.read (blank : Nat → Byte) : Memory → Nat → Byte
  | [], a => blank a
  | (k, v) :: m, a => if a = k then v else Memory.read blank m a

/-- The array with one byte stored.  Storing what an unlisted index reads as removes the entry. -/
def Memory.write (blank : Nat → Byte) : Memory → Nat → Byte → Memory
  | [], a, b => if b = blank a then [] else [(a, b)]
  | (k, v) :: m, a, b =>
    if k < a then (k, v) :: Memory.write blank m a b
    else
      let rest := if k = a then m else (k, v) :: m
      if b = blank a then rest else (a, b) :: rest

/-- The array with bytes stored from an index upwards (R71). -/
def Memory.writeBytes (blank : Nat → Byte) (m : Memory) (a : Nat) : List Byte → Memory
  | [] => m
  | b :: bs => Memory.writeBytes blank (Memory.write blank m a b) (a + 1) bs

/-- The array that holds the bytes of a list from an index upwards and nothing else. -/
def Memory.ofBytes (blank : Nat → Byte) (a : Nat) : List Byte → Memory
  | [] => []
  | b :: bs =>
    let rest := Memory.ofBytes blank (a + 1) bs
    if b = blank a then rest else (a, b) :: rest

/-- 32 bytes from an index upwards: `out[i] = M[off + i]` (R71). -/
def Memory.readBlock (blank : Nat → Byte) (m : Memory) (off : Nat) : Block :=
  Vector.ofFn fun i => Memory.read blank m (off + i.val)

/-- `ROM[i]`. -/
def State.romByte (s : State) (i : Nat) : Byte := Memory.read romBlank s.rom i

/-- `RAM[i]`. -/
def State.ramByte (s : State) (i : Nat) : Byte := Memory.read ramBlank s.ram i

/-- `RomBlock(off)` (R13). -/
def State.romBlock (s : State) (off : Nat) : Block := Memory.readBlock romBlank s.rom off

/-- `RamBlock(off)` (R13). -/
def State.ramBlock (s : State) (off : Nat) : Block := Memory.readBlock ramBlank s.ram off

/-- `RamStore(off, data)` (R13, R71): all 32 bytes land together (R75). -/
def State.storeRam (off : Nat) (data : Block) (s : State) : State :=
  { s with ram := Memory.writeBytes ramBlank s.ram off data.toList }

/-! ## Registers -/

/-- The state with its bank registers replaced.  Every write port goes through here. -/
def State.setBank (b : BankRegs) (s : State) : State := { s with bank := b }

/-- The state with its RTC replaced. -/
def State.setRtc (r : Rtc) (s : State) : State := { s with rtc := r }

/-! ## The beginning and the end of a transaction -/

/-- A transaction begins: its wall-clock input is on the bus (R41), and the event of R308 names its
row. -/
def State.begin (now : Seconds) (i : Instr) (s : State) : State :=
  { s with now := now, diag := ⟨.some i, .none⟩ }

/-- A transaction ends: the block it returns, and the fault condition it met (R308). -/
def State.answer (out : Option Block) (f : Option BusFault) (s : State) : State :=
  { s with out := out, diag := { s.diag with fault := f } }

/-- What a meaning answers. -/
abbrev Result := Host.Outcome State Fault Refusal

/-- A read completes normally and returns a block. -/
def returnBlock (b : Block) (s : State) : Result := .next (s.answer (.some b) .none)

/-- A write completes normally; it returns no data (R65). -/
def completeWrite (s : State) : Result := .next (s.answer .none .none)

/-- Taking a fault condition: the transaction completes with its degraded result, and nothing is
saved, masked or transferred (R290, R291, R295).  There is nothing to return from (R296). -/
def takeFault (out : Option Block) (f : BusFault) (s : State) : Result := .next (s.answer out (.some f))

/-- A read that meets a fault condition returns `Zero32` (R291). -/
def degradeRead (f : BusFault) (s : State) : Result := takeFault (.some Block.zero) f s

/-- A write that meets a fault condition is ignored (R291). -/
def degradeWrite (f : BusFault) (s : State) : Result := takeFault .none f s

/-! ## Invalid windows -/

/-- `Any32` (R13): the `n`-th block of free values. -/
def anyBlock (n : Nat) : Block := Vector.ofFn fun i => Config.freeByte (32 * n + i.val)

/-- The state after a block of free values has been drawn. -/
def State.drawFree (s : State) : State := { s with free := s.free + 1 }

/-- A read of an invalid window: an undetermined block, no change of the device's state (R63). -/
def readInvalid (s : State) : Result := takeFault (.some (anyBlock s.free)) .invalidWindow s.drawFree

/-- A write to an invalid window: no effect (R63). -/
def writeInvalid (s : State) : Result := degradeWrite .invalidWindow s

end Sys2Proof.Machine
end

