-- ==== Sys2Proof/Machine/Operands.lean ====
section
/-! DEFINITION. The operands of a transaction: the field of `d = data[0]` each write port takes
(30_encoding.md R104), how a field replaces part of `rom_bank`, and the translation of a bus address to
an array offset with its validity test (20_memory.md R66 to R69). -/

namespace Sys2Proof.Machine

/-! ## Fields of the payload -/

/-- `d = data[0]`, the only byte a register port uses (R28, R104). -/
def portByte (data : Block) : Byte := data[0]

/-- `d[4:0]`: MBC1 `ROMB`. -/
def romLow5 (d : Byte) : BitVec 5 := d.extractLsb' 0 5

/-- `d[1:0]`: MBC1 `BANK2`. -/
def magicField (d : Byte) : BitVec 2 := d.extractLsb' 0 2

/-- `d[0]`: MBC1 `MODE`, MBC3 `LATCH`, MBC5 `ROMBH`. -/
def lowBit (d : Byte) : Bool := d.getLsbD 0

/-- `d[3:0]`: MBC2 `ROMB`, MBC5 `RAMB`. -/
def low4 (d : Byte) : BitVec 4 := d.extractLsb' 0 4

/-- `d[6:0]`: MBC3 `ROMB`. -/
def low7 (d : Byte) : BitVec 7 := d.extractLsb' 0 7

/-- What MBC3 `SEL` accepts, compared on the whole byte: 0x00 to 0x03, and with a timer 0x08 to 0x0C
(R109, R206). -/
def selAccepted (hasTimer : Bool) (d : Byte) : Bool :=
  decide (d.toNat ≤ 0x03) || (hasTimer && decide (0x08 ≤ d.toNat) && decide (d.toNat ≤ 0x0C))

/-! ## Parts of the bank registers -/

/-- `rom_bank[6:5]`. -/
def romMagic (b : BitVec 9) : BitVec 2 := b.extractLsb' 5 2

/-- `ram_bank[1:0]`. -/
def ramMagic (b : BitVec 4) : BitVec 2 := b.extractLsb' 0 2

/-- `rom_bank` with bits 4:0 replaced (R155). -/
def withRomLow5 (b : BitVec 9) (v : BitVec 5) : BitVec 9 := (b &&& 0x1E0#9) ||| v.setWidth 9

/-- `rom_bank` with bits 6:5 replaced (R156, R157). -/
def withRomMagic (b : BitVec 9) (v : BitVec 2) : BitVec 9 := (b &&& 0x19F#9) ||| (v.setWidth 9 <<< 5)

/-- The correction of MBC1: if bits 4:0 are zero, bit 0 is set (R155). -/
def zeroCorrect (b : BitVec 9) : BitVec 9 := if b.extractLsb' 0 5 = 0#5 then b ||| 0x001#9 else b

/-- `rom_bank` with bits 7:0 replaced (R236). -/
def withRomByte (b : BitVec 9) (d : Byte) : BitVec 9 := (b &&& 0x100#9) ||| d.setWidth 9

/-- `rom_bank` with bit 8 replaced (R237). -/
def withRomBit8 (b : BitVec 9) (v : Bool) : BitVec 9 :=
  (b &&& 0x0FF#9) ||| ((BitVec.ofBool v).setWidth 9 <<< 8)

/-- The RTC register a value of `ram_bank` selects (R34). -/
def RtcReg.ofBank (b : BitVec 4) : Option RtcReg :=
  match b.toNat with
  | 0x08 => .some .seconds
  | 0x09 => .some .minutes
  | 0x0A => .some .hours
  | 0x0B => .some .dayLow
  | 0x0C => .some .ctl
  | _ => .none

/-- The RTC register the RAM window addresses on MBC3, if it addresses one (R203, R208). -/
def rtcSelected (s : State) : Option RtcReg :=
  if s.cfg.hasTimer then RtcReg.ofBank s.bank.ramBank else .none

/-! ## Translation -/

/-- Fixed ROM: the bus address itself (R66). -/
def fixedRomOffset (addr : Addr) : Nat := addr.toNat

/-- Banked ROM: `(addr - 0x4000) + rom_bank * 0x4000` (R67). -/
def bankedRomOffset (bank : BitVec 9) (addr : Addr) : Nat := (addr.toNat - 0x4000) + bank.toNat * 0x4000

/-- Banked RAM: `(addr - 0xA000) + (ram_bank << 13)` (R68). -/
def bankedRamOffset (bank : BitVec 4) (addr : Addr) : Nat := (addr.toNat - 0xA000) + (bank.toNat <<< 13)

/-- Unbanked RAM: `addr - 0xA000` (R69). -/
def flatRamOffset (addr : Addr) : Nat := (addr - 0xA000#16).toNat

/-- Where an access goes: to an array offset, or nowhere, because of a fault condition (R291). -/
inductive Target where
  | at (off : Nat)
  | fault (f : BusFault)
deriving DecidableEq, Repr

/-- The banked ROM window; the whole 9-bit bank number is compared, with no mirroring (R67). -/
def romTarget (addr : Addr) (s : State) : Target :=
  if s.cfg.romBanks ≤ s.bank.romBank.toNat then .fault .romBankRange
  else .at (bankedRomOffset s.bank.romBank addr)

/-- The banked RAM window of MBC1, MBC5 and MBC3's RAM path (R68; the order of the tests is R294's). -/
def ramTarget (addr : Addr) (s : State) : Target :=
  if !s.cfg.ramPresent then .fault .ramAbsent
  else if s.cfg.ramBanks ≤ s.bank.ramBank.toNat then .fault .ramBankRange
  else .at (bankedRamOffset s.bank.ramBank addr)

/-- The RAM window of MBC2, gated by `ram_en` (R183, R187). -/
def gatedRamTarget (addr : Addr) (s : State) : Target :=
  if !s.cfg.ramPresent then .fault .ramAbsent
  else if !s.bank.ramEn then .fault .ramDisabled
  else ramTarget addr s

/-- The RAM window of NONE (R69, R132, R134). -/
def flatRamTarget (addr : Addr) (s : State) : Target :=
  if !s.cfg.ramPresent then .fault .ramAbsent
  else if s.cfg.quarterSized && decide (0xA7FF < addr.toNat) then .fault .ramRange
  else .at (flatRamOffset addr)

/-! ## Accesses through a translation -/

/-- A read of the ROM's fixed part (R66). -/
def readFixedRom (addr : Addr) (s : State) : Result := returnBlock (s.romBlock (fixedRomOffset addr)) s

/-- A read of ROM at a target. -/
def readRomAt (t : Target) (s : State) : Result :=
  match t with
  | .at off => returnBlock (s.romBlock off) s
  | .fault f => degradeRead f s

/-- A read of RAM at a target. -/
def readRamAt (t : Target) (s : State) : Result :=
  match t with
  | .at off => returnBlock (s.ramBlock off) s
  | .fault f => degradeRead f s

/-- A write of RAM at a target. -/
def writeRamAt (t : Target) (data : Block) (s : State) : Result :=
  match t with
  | .at off => completeWrite (s.storeRam off data)
  | .fault f => degradeWrite f s

/-- A register port: the bank registers become what the port makes of them. -/
def writePort (f : BankRegs → BankRegs) (s : State) : Result := completeWrite (s.setBank (f s.bank))

end Sys2Proof.Machine
end

