-- ==== Sys2Proof/Machine/Flags.lean ====
section
/-! DEFINITION. The one-bit status items of the device and what sets them (10_state.md R29): `ram_en`, `mode`
and the two defined bits of the RTC control byte. -/

namespace Sys2Proof.Machine

/-- `ram_en <- (d == 0x0A)`, on the whole byte (R24, R109). -/
def enableFlag (d : Byte) : Bool := d == 0x0A#8

/-- The RAM enable port (R154, R184, R204, R235). -/
def enablePort (d : Byte) (b : BankRegs) : BankRegs := { b with ramEn := enableFlag d }

/-- The banking-mode port of MBC1: on an actual change of `mode` the two magic bits move between
`rom_bank[6:5]` and `ram_bank` (R157). -/
def modePort (m : Bool) (b : BankRegs) : BankRegs :=
  if m = b.mode then b
  else if m then
    { b with ramBank := (romMagic b.romBank).setWidth 4, romBank := withRomMagic b.romBank 0#2, mode := m }
  else { b with romBank := withRomMagic b.romBank (ramMagic b.ramBank), ramBank := 0#4, mode := m }

/-- Bit 8 of the day counter, bit 0 of the control byte (R36). -/
def dayBit8 (ctl : Byte) : Bool := ctl.getLsbD 0

/-- The sticky day-carry, bit 7 of the control byte (R36). -/
def dayCarry (ctl : Byte) : Bool := ctl.getLsbD 7

/-- The day counter (R35). -/
def dayCounter (r : RtcRegs) : Nat := r.dayLow.toNat + 256 * (dayBit8 r.ctl).toNat

/-- The control byte after a tick whose day count, before it is reduced, is `dd`: the carry is set
beyond 511 and never cleared, bit 0 is bit 8 of `dd mod 512`, bits 6:1 stay (R266). -/
def tickCtl (ctl : Byte) (dd : Nat) : Byte :=
  let carried := if 511 < dd then ctl ||| 0x80#8 else ctl
  (carried &&& 0xFE#8) ||| BitVec.ofNat 8 (dd % 512 / 256)

end Sys2Proof.Machine
end

