-- ==== Sys2Proof/Machine/Mbc1.lean ====
section
/-! DEFINITION. The meanings of the variant MBC1 (41_mbc1.md). -/

namespace Sys2Proof.Machine

/-- `MBC1.RD.ROM0` (R151): bank 0, whatever the bank registers hold. -/
def execMbc1RdRom0 (addr : Addr) (s : State) : Result := readFixedRom addr s

/-- `MBC1.RD.ROMX` (R152): bank `rom_bank`. -/
def execMbc1RdRomx (addr : Addr) (s : State) : Result := readRomAt (romTarget addr s) s

/-- `MBC1.RD.RAM` (R153): RAM bank `ram_bank`; `ram_en` is not consulted. -/
def execMbc1RdRam (addr : Addr) (s : State) : Result := readRamAt (ramTarget addr s) s

/-- `MBC1.RD.INV8` (R63, R160): an undetermined block, and no change. -/
def execMbc1RdInv8 (_addr : Addr) (s : State) : Result := readInvalid s

/-- `MBC1.RD.INVC` (R63, R160): an undetermined block, and no change. -/
def execMbc1RdInvc (_addr : Addr) (s : State) : Result := readInvalid s

/-- `MBC1.WR.RAMEN` (R154): `ram_en <- (d == 0x0A)`. -/
def execMbc1WrRamen (_addr : Addr) (data : Block) (s : State) : Result :=
  writePort (enablePort (portByte data)) s

/-- `MBC1.WR.ROMB` (R155): bits 4:0 of `rom_bank`, the merged value then corrected. -/
def execMbc1WrRomb (_addr : Addr) (data : Block) (s : State) : Result :=
  writePort (fun b => { b with romBank := zeroCorrect (withRomLow5 b.romBank (romLow5 (portByte data))) }) s

/-- `MBC1.WR.BANK2` (R156): the magic bits, in the register that `mode` makes live. -/
def execMbc1WrBank2 (_addr : Addr) (data : Block) (s : State) : Result :=
  writePort (fun b =>
    if b.mode then { b with ramBank := (magicField (portByte data)).setWidth 4 }
    else { b with romBank := withRomMagic b.romBank (magicField (portByte data)) }) s

/-- `MBC1.WR.MODE` (R157): the banking mode, with the redistribution of the magic bits on a change. -/
def execMbc1WrMode (_addr : Addr) (data : Block) (s : State) : Result :=
  writePort (modePort (lowBit (portByte data))) s

/-- `MBC1.WR.RAM` (R159): RAM bank `ram_bank`; `ram_en` is not consulted. -/
def execMbc1WrRam (addr : Addr) (data : Block) (s : State) : Result :=
  writeRamAt (ramTarget addr s) data s

/-- `MBC1.WR.INV8` (R63, R160): no effect. -/
def execMbc1WrInv8 (_addr : Addr) (_data : Block) (s : State) : Result := writeInvalid s

/-- `MBC1.WR.INVC` (R63, R160): no effect. -/
def execMbc1WrInvc (_addr : Addr) (_data : Block) (s : State) : Result := writeInvalid s

end Sys2Proof.Machine
end

