-- ==== Sys2Proof/Machine/Mbc2.lean ====
section
/-! DEFINITION. The meanings of the variant MBC2 (42_mbc2.md). -/

namespace Sys2Proof.Machine

/-- `MBC2.RD.ROM0` (R181): bank 0, whatever the bank registers hold. -/
def execMbc2RdRom0 (addr : Addr) (s : State) : Result := readFixedRom addr s

/-- `MBC2.RD.ROMX` (R182): bank `rom_bank`. -/
def execMbc2RdRomx (addr : Addr) (s : State) : Result := readRomAt (romTarget addr s) s

/-- `MBC2.RD.RAM` (R183): RAM, gated by `ram_en`. -/
def execMbc2RdRam (addr : Addr) (s : State) : Result := readRamAt (gatedRamTarget addr s) s

/-- `MBC2.RD.INV8` (R63, R188): an undetermined block, and no change. -/
def execMbc2RdInv8 (_addr : Addr) (s : State) : Result := readInvalid s

/-- `MBC2.RD.INVC` (R63, R188): an undetermined block, and no change. -/
def execMbc2RdInvc (_addr : Addr) (s : State) : Result := readInvalid s

/-- `MBC2.WR.RAMEN` (R184): `ram_en <- (d == 0x0A)`. -/
def execMbc2WrRamen (_addr : Addr) (data : Block) (s : State) : Result :=
  writePort (enablePort (portByte data)) s

/-- `MBC2.WR.ROMB` (R185): the whole of `rom_bank` from 4 bits, 0 forced to 1. -/
def execMbc2WrRomb (_addr : Addr) (data : Block) (s : State) : Result :=
  writePort (fun b =>
    let t := low4 (portByte data)
    { b with romBank := if t = 0#4 then 1#9 else t.setWidth 9 }) s

/-- `MBC2.WR.NOP` (R186): windows 2 and 3: nothing happens. -/
def execMbc2WrNop (_addr : Addr) (_data : Block) (s : State) : Result := completeWrite s

/-- `MBC2.WR.RAM` (R187): RAM, gated by `ram_en`. -/
def execMbc2WrRam (addr : Addr) (data : Block) (s : State) : Result :=
  writeRamAt (gatedRamTarget addr s) data s

/-- `MBC2.WR.INV8` (R63, R188): no effect. -/
def execMbc2WrInv8 (_addr : Addr) (_data : Block) (s : State) : Result := writeInvalid s

/-- `MBC2.WR.INVC` (R63, R188): no effect. -/
def execMbc2WrInvc (_addr : Addr) (_data : Block) (s : State) : Result := writeInvalid s

end Sys2Proof.Machine
end

