-- ==== Sys2Proof/Machine/Rtc.lean ====
section
/-! DEFINITION. The real-time clock: the five internal operations of 45_rtc.md. -/

namespace Sys2Proof.Machine

/-- One register of the five (R34). -/
def RtcRegs.get (r : RtcRegs) : RtcReg → Byte
  | .seconds => r.seconds
  | .minutes => r.minutes
  | .hours => r.hours
  | .dayLow => r.dayLow
  | .ctl => r.ctl

/-- The five registers with one of them replaced, all 8 bits (R264). -/
def RtcRegs.set (r : RtcRegs) (k : RtcReg) (b : Byte) : RtcRegs :=
  match k with
  | .seconds => { r with seconds := b }
  | .minutes => { r with minutes := b }
  | .hours => { r with hours := b }
  | .dayLow => { r with dayLow := b }
  | .ctl => { r with ctl := b }

/-- `dif` seconds added into the live registers, by one chain of divisions over the naturals (R266). -/
def advance (r : RtcRegs) (dif : Nat) : RtcRegs :=
  let s := r.seconds.toNat + dif
  let m := r.minutes.toNat + s / 60
  let h := r.hours.toNat + m / 60
  let dd := dayCounter r + h / 24
  { seconds := BitVec.ofNat 8 (s % 60)
    minutes := BitVec.ofNat 8 (m % 60)
    hours := BitVec.ofNat 8 (h % 24)
    dayLow := BitVec.ofNat 8 (dd % 512 % 256)
    ctl := tickCtl r.ctl dd }

/-- `tick(now)`: none when `now < rtc.last`, where the spec refuses it (R266, R267). -/
def tick (now : Seconds) (r : Rtc) : Option Rtc :=
  if now.toNat < r.last.toNat then .none
  else .some { r with live := advance r.live (now.toNat - r.last.toNat), last := now }

/-- The RTC ticked to the transaction's `now`, then what follows; refused where the tick is (R267). -/
def withTick (s : State) (k : Rtc → Result) : Result :=
  match tick s.now s.rtc with
  | .none => .refused .clockBackwards
  | .some r => k r

/-- `RtcRead(k, now)` (R262). -/
def rtcRead (k : RtcReg) (s : State) : Result :=
  if s.rtc.latched then returnBlock (Block.bcast (s.rtc.lat.get k)) s
  else withTick s fun r => returnBlock (Block.bcast (r.live.get k)) (s.setRtc r)

/-- `RtcWrite(k, b)`: no tick, and nothing but the one live register (R264). -/
def rtcWrite (k : RtcReg) (b : Byte) (s : State) : Result :=
  completeWrite (s.setRtc { s.rtc with live := s.rtc.live.set k b })

/-- `Latch(now)`: tick, then snapshot all five registers (R268). -/
def latch (s : State) : Result :=
  withTick s fun r => completeWrite (s.setRtc { r with lat := r.live, latched := true })

/-- `Unlatch()`: the snapshot stays (R269). -/
def unlatch (s : State) : Result := completeWrite (s.setRtc { s.rtc with latched := false })

end Sys2Proof.Machine
end

