-- ==== Sys2Proof/Machine/Mbc3.lean ====
section
/-! DEFINITION. The meanings of the variant MBC3 (43_mbc3.md). -/

namespace Sys2Proof.Machine

/-- `MBC3.RD.ROM0` (R201): bank 0, whatever the bank registers hold. -/
def execMbc3RdRom0 (addr : Addr) (s : State) : Result := readFixedRom addr s

/-- `MBC3.RD.ROMX` (R202): bank `rom_bank`. -/
def execMbc3RdRomx (addr : Addr) (s : State) : Result := readRomAt (romTarget addr s) s

/-- `MBC3.RD.RAM` (R203): an RTC register if one is selected, else the RAM bank; `ram_en` is not consulted. -/
def execMbc3RdRam (addr : Addr) (s : State) : Result :=
  match rtcSelected s with
  | .some k => rtcRead k s
  | .none => readRamAt (ramTarget addr s) s

/-- `MBC3.RD.INV8` (R63, R209): an undetermined block, and no change. -/
def execMbc3RdInv8 (_addr : Addr) (s : State) : Result := readInvalid s

/-- `MBC3.RD.INVC` (R63, R209): an undetermined block, and no change. -/
def execMbc3RdInvc (_addr : Addr) (s : State) : Result := readInvalid s

/-- `MBC3.WR.RAMEN` (R204): `ram_en <- (d == 0x0A)`. -/
def execMbc3WrRamen (_addr : Addr) (data : Block) (s : State) : Result :=
  writePort (enablePort (portByte data)) s

/-- `MBC3.WR.ROMB` (R205): the whole of `rom_bank` from 7 bits, with no correction. -/
def execMbc3WrRomb (_addr : Addr) (data : Block) (s : State) : Result :=
  writePort (fun b => { b with romBank := (low7 (portByte data)).setWidth 9 }) s

/-- `MBC3.WR.SEL` (R206): a RAM bank or an RTC register; a value not accepted leaves `ram_bank` as it was. -/
def execMbc3WrSel (_addr : Addr) (data : Block) (s : State) : Result :=
  writePort (fun b =>
    if selAccepted s.cfg.hasTimer (portByte data) then { b with ramBank := (portByte data).setWidth 4 } else b) s

/-- `MBC3.WR.LATCH` (R207): the latch control; without a timer nothing happens. -/
def execMbc3WrLatch (_addr : Addr) (data : Block) (s : State) : Result :=
  if !s.cfg.hasTimer then completeWrite s
  else if lowBit (portByte data) then latch s
  else unlatch s

/-- `MBC3.WR.RAM` (R208): an RTC register if one is selected, else the RAM bank; `ram_en` is not consulted. -/
def execMbc3WrRam (addr : Addr) (data : Block) (s : State) : Result :=
  match rtcSelected s with
  | .some k => rtcWrite k (portByte data) s
  | .none => writeRamAt (ramTarget addr s) data s

/-- `MBC3.WR.INV8` (R63, R209): no effect. -/
def execMbc3WrInv8 (_addr : Addr) (_data : Block) (s : State) : Result := writeInvalid s

/-- `MBC3.WR.INVC` (R63, R209): no effect. -/
def execMbc3WrInvc (_addr : Addr) (_data : Block) (s : State) : Result := writeInvalid s

end Sys2Proof.Machine
end

