-- ==== Sys2Proof/Machine/Mbc5.lean ====
section
/-! DEFINITION. The meanings of the variant MBC5 (44_mbc5.md). -/

namespace Sys2Proof.Machine

/-- `MBC5.RD.ROM0` (R232): bank 0, whatever the bank registers hold. -/
def execMbc5RdRom0 (addr : Addr) (s : State) : Result := readFixedRom addr s

/-- `MBC5.RD.ROMX` (R233): bank `rom_bank`. -/
def execMbc5RdRomx (addr : Addr) (s : State) : Result := readRomAt (romTarget addr s) s

/-- `MBC5.RD.RAM` (R234): RAM bank `ram_bank`; `ram_en` is not consulted. -/
def execMbc5RdRam (addr : Addr) (s : State) : Result := readRamAt (ramTarget addr s) s

/-- `MBC5.RD.INV8` (R63, R241): an undetermined block, and no change. -/
def execMbc5RdInv8 (_addr : Addr) (s : State) : Result := readInvalid s

/-- `MBC5.RD.INVC` (R63, R241): an undetermined block, and no change. -/
def execMbc5RdInvc (_addr : Addr) (s : State) : Result := readInvalid s

/-- `MBC5.WR.RAMEN` (R235): `ram_en <- (d == 0x0A)`. -/
def execMbc5WrRamen (_addr : Addr) (data : Block) (s : State) : Result :=
  writePort (enablePort (portByte data)) s

/-- `MBC5.WR.ROMBL` (R236): bits 7:0 of `rom_bank`. -/
def execMbc5WrRombl (_addr : Addr) (data : Block) (s : State) : Result :=
  writePort (fun b => { b with romBank := withRomByte b.romBank (portByte data) }) s

/-- `MBC5.WR.ROMBH` (R237): bit 8 of `rom_bank`. -/
def execMbc5WrRombh (_addr : Addr) (data : Block) (s : State) : Result :=
  writePort (fun b => { b with romBank := withRomBit8 b.romBank (lowBit (portByte data)) }) s

/-- `MBC5.WR.RAMB` (R238): the whole of `ram_bank`, on rumble cartridges too (R243). -/
def execMbc5WrRamb (_addr : Addr) (data : Block) (s : State) : Result :=
  writePort (fun b => { b with ramBank := low4 (portByte data) }) s

/-- `MBC5.WR.NOP` (R239): nothing is controlled from here. -/
def execMbc5WrNop (_addr : Addr) (_data : Block) (s : State) : Result := completeWrite s

/-- `MBC5.WR.RAM` (R240): RAM bank `ram_bank`; `ram_en` is not consulted. -/
def execMbc5WrRam (addr : Addr) (data : Block) (s : State) : Result :=
  writeRamAt (ramTarget addr s) data s

/-- `MBC5.WR.INV8` (R63, R241): no effect. -/
def execMbc5WrInv8 (_addr : Addr) (_data : Block) (s : State) : Result := writeInvalid s

/-- `MBC5.WR.INVC` (R63, R241): no effect. -/
def execMbc5WrInvc (_addr : Addr) (_data : Block) (s : State) : Result := writeInvalid s

end Sys2Proof.Machine
end

