-- ==== Sys2Proof/Machine/None.lean ====
section
/-! DEFINITION. The meanings of the variant without a bank controller (40_mapper_none.md). -/

namespace Sys2Proof.Machine

/-- `NONE.RD.ROM` (R131): the flat image at `addr`. -/
def execNoneRdRom (addr : Addr) (s : State) : Result := readFixedRom addr s

/-- `NONE.RD.RAM` (R132): the unbanked RAM, which no register gates. -/
def execNoneRdRam (addr : Addr) (s : State) : Result := readRamAt (flatRamTarget addr s) s

/-- `NONE.RD.INV8` (R63, R135): an undetermined block, and no change. -/
def execNoneRdInv8 (_addr : Addr) (s : State) : Result := readInvalid s

/-- `NONE.RD.INVC` (R63, R135): an undetermined block, and no change. -/
def execNoneRdInvc (_addr : Addr) (s : State) : Result := readInvalid s

/-- `NONE.WR.ROM` (R133): no bank register exists: nothing happens. -/
def execNoneWrRom (_addr : Addr) (_data : Block) (s : State) : Result := completeWrite s

/-- `NONE.WR.RAM` (R134): the unbanked RAM, which no register gates. -/
def execNoneWrRam (addr : Addr) (data : Block) (s : State) : Result :=
  writeRamAt (flatRamTarget addr s) data s

/-- `NONE.WR.INV8` (R63, R135): no effect. -/
def execNoneWrInv8 (_addr : Addr) (_data : Block) (s : State) : Result := writeInvalid s

/-- `NONE.WR.INVC` (R63, R135): no effect. -/
def execNoneWrInvc (_addr : Addr) (_data : Block) (s : State) : Result := writeInvalid s

end Sys2Proof.Machine
end

