-- ==== Sys2Proof/Machine/Dispatch.lean ====
section
/-! DEFINITION. Which meaning each transaction has: one arm per row of the opcode table. -/

namespace Sys2Proof.Machine

def exec (i : Instr) (s : State) : Host.Outcome State Fault Refusal :=
  match i with
  | .noneRdRom addr => Sys2Proof.Machine.execNoneRdRom addr s
  | .noneRdRam addr => Sys2Proof.Machine.execNoneRdRam addr s
  | .noneRdInv8 addr => Sys2Proof.Machine.execNoneRdInv8 addr s
  | .noneRdInvc addr => Sys2Proof.Machine.execNoneRdInvc addr s
  | .noneWrRom addr data => Sys2Proof.Machine.execNoneWrRom addr data s
  | .noneWrRam addr data => Sys2Proof.Machine.execNoneWrRam addr data s
  | .noneWrInv8 addr data => Sys2Proof.Machine.execNoneWrInv8 addr data s
  | .noneWrInvc addr data => Sys2Proof.Machine.execNoneWrInvc addr data s
  | .mbc1RdRom0 addr => Sys2Proof.Machine.execMbc1RdRom0 addr s
  | .mbc1RdRomx addr => Sys2Proof.Machine.execMbc1RdRomx addr s
  | .mbc1RdRam addr => Sys2Proof.Machine.execMbc1RdRam addr s
  | .mbc1RdInv8 addr => Sys2Proof.Machine.execMbc1RdInv8 addr s
  | .mbc1RdInvc addr => Sys2Proof.Machine.execMbc1RdInvc addr s
  | .mbc1WrRamen addr data => Sys2Proof.Machine.execMbc1WrRamen addr data s
  | .mbc1WrRomb addr data => Sys2Proof.Machine.execMbc1WrRomb addr data s
  | .mbc1WrBank2 addr data => Sys2Proof.Machine.execMbc1WrBank2 addr data s
  | .mbc1WrMode addr data => Sys2Proof.Machine.execMbc1WrMode addr data s
  | .mbc1WrRam addr data => Sys2Proof.Machine.execMbc1WrRam addr data s
  | .mbc1WrInv8 addr data => Sys2Proof.Machine.execMbc1WrInv8 addr data s
  | .mbc1WrInvc addr data => Sys2Proof.Machine.execMbc1WrInvc addr data s
  | .mbc2RdRom0 addr => Sys2Proof.Machine.execMbc2RdRom0 addr s
  | .mbc2RdRomx addr => Sys2Proof.Machine.execMbc2RdRomx addr s
  | .mbc2RdRam addr => Sys2Proof.Machine.execMbc2RdRam addr s
  | .mbc2RdInv8 addr => Sys2Proof.Machine.execMbc2RdInv8 addr s
  | .mbc2RdInvc addr => Sys2Proof.Machine.execMbc2RdInvc addr s
  | .mbc2WrRamen addr data => Sys2Proof.Machine.execMbc2WrRamen addr data s
  | .mbc2WrRomb addr data => Sys2Proof.Machine.execMbc2WrRomb addr data s
  | .mbc2WrNop addr data => Sys2Proof.Machine.execMbc2WrNop addr data s
  | .mbc2WrRam addr data => Sys2Proof.Machine.execMbc2WrRam addr data s
  | .mbc2WrInv8 addr data => Sys2Proof.Machine.execMbc2WrInv8 addr data s
  | .mbc2WrInvc addr data => Sys2Proof.Machine.execMbc2WrInvc addr data s
  | .mbc3RdRom0 addr => Sys2Proof.Machine.execMbc3RdRom0 addr s
  | .mbc3RdRomx addr => Sys2Proof.Machine.execMbc3RdRomx addr s
  | .mbc3RdRam addr => Sys2Proof.Machine.execMbc3RdRam addr s
  | .mbc3RdInv8 addr => Sys2Proof.Machine.execMbc3RdInv8 addr s
  | .mbc3RdInvc addr => Sys2Proof.Machine.execMbc3RdInvc addr s
  | .mbc3WrRamen addr data => Sys2Proof.Machine.execMbc3WrRamen addr data s
  | .mbc3WrRomb addr data => Sys2Proof.Machine.execMbc3WrRomb addr data s
  | .mbc3WrSel addr data => Sys2Proof.Machine.execMbc3WrSel addr data s
  | .mbc3WrLatch addr data => Sys2Proof.Machine.execMbc3WrLatch addr data s
  | .mbc3WrRam addr data => Sys2Proof.Machine.execMbc3WrRam addr data s
  | .mbc3WrInv8 addr data => Sys2Proof.Machine.execMbc3WrInv8 addr data s
  | .mbc3WrInvc addr data => Sys2Proof.Machine.execMbc3WrInvc addr data s
  | .mbc5RdRom0 addr => Sys2Proof.Machine.execMbc5RdRom0 addr s
  | .mbc5RdRomx addr => Sys2Proof.Machine.execMbc5RdRomx addr s
  | .mbc5RdRam addr => Sys2Proof.Machine.execMbc5RdRam addr s
  | .mbc5RdInv8 addr => Sys2Proof.Machine.execMbc5RdInv8 addr s
  | .mbc5RdInvc addr => Sys2Proof.Machine.execMbc5RdInvc addr s
  | .mbc5WrRamen addr data => Sys2Proof.Machine.execMbc5WrRamen addr data s
  | .mbc5WrRombl addr data => Sys2Proof.Machine.execMbc5WrRombl addr data s
  | .mbc5WrRombh addr data => Sys2Proof.Machine.execMbc5WrRombh addr data s
  | .mbc5WrRamb addr data => Sys2Proof.Machine.execMbc5WrRamb addr data s
  | .mbc5WrNop addr data => Sys2Proof.Machine.execMbc5WrNop addr data s
  | .mbc5WrRam addr data => Sys2Proof.Machine.execMbc5WrRam addr data s
  | .mbc5WrInv8 addr data => Sys2Proof.Machine.execMbc5WrInv8 addr data s
  | .mbc5WrInvc addr data => Sys2Proof.Machine.execMbc5WrInvc addr data s

end Sys2Proof.Machine
end

