-- ==== Sys2Proof/Machine/Load.lean ====
section
/-! DEFINITION. The host operations that are not bus transactions (30_encoding.md R113): load, which is the only
reset, save and unload (70_reset_and_hazards.md R320 to R332). -/

namespace Sys2Proof.Machine

/-- The bytes of `RAM` a saved image gives: cut to the array's size, a deficit filled with 0x00 (R323). -/
def restoredBytes (image : List Byte) (size : Nat) : List Byte :=
  image.take size ++ List.replicate (size - image.length) 0x00#8

/-- `RAM` after a load: the cold pattern (R322) or the restored image (R323), and nothing at all without
a RAM array (R320 step 4). -/
def loadedRam (p : Launch) : Memory :=
  match p.cfg.ramPresent, p.ramInit with
  | true, .some image => Memory.ofBytes ramBlank 0 (restoredBytes image p.cfg.ramBytes)
  | true, .none => []
  | false, _ => []

/-- The RTC after a load: restored and ticked to the load's clock, or cold (R325, R326); `rtc.latched` is
false either way (R39).  None where the tick is refused.  A cartridge without an RTC has the cold value, which nothing
reads (R33). -/
def loadedRtc (p : Launch) : Option Rtc :=
  match p.cfg.hasRtc, p.rtcInit with
  | true, .some i => tick p.now ⟨i.live, i.lat, false, i.last⟩
  | true, .none => .some (.cold p.now)
  | false, _ => .some (.cold p.now)

/-- The configuration is well formed and the ROM image has its size (R12, R320 step 1). -/
def Launch.wf (p : Launch) : Bool := p.cfg.wf && p.rom.length == p.cfg.romBytes

/-- The device right after a load (R320 steps 2 to 5). -/
def loadedState (p : Launch) (rtc : Rtc) (s : State) : State :=
  { s with
    cfg := p.cfg
    rom := Memory.ofBytes romBlank 0 p.rom
    loaded := true
    bank := .reset
    ram := loadedRam p
    rtc := rtc
    now := p.now
    out := .none
    diag := ⟨.none, .none⟩ }

/-- `load` (R320).  A load that fails creates no device (R297, R321).  DESIGN CHOICE: the order of the refusals,
the mapper before the rest of the configuration and both before the clock (log entry 21). -/
def load (p : Launch) (s : State) : Result :=
  if !p.cfg.mapper.modelled then .refused .unsupportedMapper
  else if !p.wf then .refused .illFormedConfig
  else
    match loadedRtc p with
    | .none => .refused .clockBackwards
    | .some rtc => .next (loadedState p rtc s)

/-- A launch whose identity is read from the ROM image's own header (R320 step 1). -/
def Launch.ofRom (mbc2HasRam : Bool) (rom : List Byte) (ramInit : Option (List Byte))
    (rtcInit : Option RtcImage) (now : Seconds) : Option Launch :=
  match identityOfRom mbc2HasRam rom with
  | .cfg c => .some ⟨c, rom, ramInit, rtcInit, now⟩
  | .refused _ => .none

/-- The bytes of `RAM`, index 0 first. -/
def State.ramBytes (s : State) : List Byte := (List.range s.cfg.ramBytes).map s.ramByte

/-- What a save writes out: the RAM bytes, and with an RTC its ten registers and its timestamp; no
tick runs (R331). -/
def State.image (s : State) : Image where
  ram := s.ramBytes
  rtc := if s.cfg.hasRtc then .some ⟨s.rtc.live, s.rtc.lat, s.rtc.last⟩ else .none

/-- `save` (R331): it does nothing if RAM is absent or not battery-backed, and never changes the device. -/
def save (s : State) : Result :=
  if !s.loaded then .refused .notLoaded
  else if s.cfg.hasBattery && s.cfg.ramPresent then .next { s with saved := .some s.image }
  else .next s

/-- `unload` (R332): the instance ends; nothing is saved, and doing it again changes nothing. -/
def unload (s : State) : Result := .next { s with loaded := false }

end Sys2Proof.Machine
end

