-- ==== Sys2Proof/Machine/Bus.lean ====
section
/-! DEFINITION. Serving a request of the host: a bus transaction is given its command word, decoded and
run (30_encoding.md R103); the host operations are called. -/

namespace Sys2Proof.Machine

/-- The refusal of a command word that is no transaction (R293). -/
def Reject.refusal : Reject → Refusal
  | .unsupportedMapper => .unsupportedMapper
  | .unaligned => .unaligned

/-- One bus transaction.  The strap code is the loaded cartridge's: it is not on the bus (R100). -/
def transact (write : Bool) (addr : Addr) (data : Block) (now : Seconds) (s : State) : Result :=
  if s.loaded then
    match decode (commandWord s.cfg.mapper write addr) data with
    | .instr i => exec i (s.begin now i)
    | .reject r => .refused (Reject.refusal r)
  else .refused .notLoaded

/-- One request. -/
def serve (r : Request) (s : State) : Result :=
  match r with
  | .read addr now => transact false addr Block.zero now s
  | .write addr data now => transact true addr data now s
  | .load p => load p s
  | .save => save s
  | .unload => unload s

/-- The state without its oldest request. -/
def State.withInbox (rest : List Request) (s : State) : State := { s with inbox := rest }

/-- The device between requests does nothing (R349); otherwise it serves the oldest one, whose effects
are complete before the next (R80). -/
def serveNext (s : State) : Result :=
  match s.inbox with
  | [] => .next s
  | r :: rest => serve r (s.withInbox rest)

/-- The request that presents a command word's transaction with a payload of zeros, at a clock the RTC
accepts. -/
def requestOfWord (cw : CmdWord) (now : Seconds) : Request :=
  if cw.write then .write cw.addr Block.zero now else .read cw.addr now

/-- The state whose next request is the command word's transaction: on a loaded cartridge that has the
word's strap code. -/
def State.presenting (cw : CmdWord) (s : State) : State :=
  { s with
    cfg := { s.cfg with mapper := Mapper.ofStrap cw.strap }
    loaded := true
    inbox := requestOfWord cw s.rtc.last :: s.inbox }

end Sys2Proof.Machine
end

