-- ==== Sys2Proof/Machine/Step.lean ====
section
/-! DEFINITION. One step of the device: it serves the oldest request of the host. -/

namespace Sys2Proof.Machine

/-- One step (R75, R80). -/
def step (s : State) : Host.Outcome State Fault Refusal := serveNext s

/-- The state with the transaction of the command word `w` as its next request (log entry 4). -/
def State.withFetchWord (s : State) (nbits w : Nat) : State :=
  match nbits with
  | _ => s.presenting (BitVec.ofNat 20 w)

end Sys2Proof.Machine
end

