-- ==== Sys2Proof/Safety.lean ====
section
/-! DEFINITION. The terms claims are stated in: the invariant of the device (10_state.md R27), and what a
transaction leaves alone. -/

namespace Sys2Proof.Machine

/-! ## The invariant -/

/-- The bank registers keep to what their variant can set (R27). -/
def BankRegs.Legal (c : Cfg) (b : BankRegs) : Prop :=
  match c.mapper with
  | .none => b = .reset
  | .mbc1 =>
    b.romBank.toNat < 128 ∧ b.romBank.toNat % 32 ≠ 0 ∧ b.ramBank.toNat ≤ 3 ∧
      (b.mode = true → b.romBank.toNat < 32) ∧ (b.mode = false → b.ramBank = 0#4)
  | .mbc2 => 1 ≤ b.romBank.toNat ∧ b.romBank.toNat ≤ 15 ∧ b.ramBank = 0#4 ∧ b.mode = false
  | .mbc3 =>
    b.romBank.toNat ≤ 127 ∧ b.mode = false ∧
      (b.ramBank.toNat ≤ 3 ∨ (c.hasTimer = true ∧ 8 ≤ b.ramBank.toNat ∧ b.ramBank.toNat ≤ 12))
  | .mbc5 => b.mode = false
  | .unassigned4 | .mmm01 | .unassigned7 => True

/-- The invariant of the device: its configuration is well formed (R12), its arrays are in canonical form and
inside their sizes (R30, R31; RAM is empty where there is none), its bank registers are legal
(R27), and an RTC that is not there is as a load left it (R33). -/
structure State.Inv (s : State) : Prop where
  cfg_wf : s.cfg.wf = true
  rom_wf : Memory.wf romBlank s.rom
  rom_size : ∀ c ∈ s.rom, c.1 < s.cfg.romBytes
  ram_wf : Memory.wf ramBlank s.ram
  ram_size : ∀ c ∈ s.ram, c.1 < s.cfg.ramBytes
  ram_absent : s.cfg.ramPresent = false → s.ram = []
  bank_legal : s.bank.Legal s.cfg
  rtc_absent : s.cfg.hasRtc = false → s.rtc = .cold s.rtc.last

/-- The RAM window of MBC3 shows an RTC register, not RAM (R203, R208). -/
def State.RtcWindow (s : State) : Prop :=
  s.cfg.hasTimer = true ∧ 8 ≤ s.bank.ramBank.toNat ∧ s.bank.ramBank.toNat ≤ 12

/-- The two magic bits of MBC1, in the register that `mode` makes live (R158). -/
def BankRegs.magic (b : BankRegs) : Nat :=
  if b.mode then b.ramBank.toNat % 4 else b.romBank.toNat / 32 % 4

/-- The state with another value of `ram_en`. -/
def State.withEnable (e : Bool) (s : State) : State := { s with bank := { s.bank with ramEn := e } }

/-- A request that is a bus transaction (R60). -/
def Request.isBus : Request → Bool
  | .read .. | .write .. => true
  | .load .. | .save | .unload => false

/-- The whole seconds five registers stand for: `T(r)` of R270. -/
def RtcRegs.total (r : RtcRegs) : Nat :=
  r.seconds.toNat + 60 * r.minutes.toNat + 3600 * r.hours.toNat + 86400 * dayCounter r

/-! ## What is left alone -/

/-- What no bus transaction changes: the configuration, the ROM, the power state, the inputs, and what the
last save wrote out (R8, R30, R331). -/
structure State.SameCartridge (s t : State) : Prop where
  cfg : t.cfg = s.cfg
  rom : ∀ k, t.romByte k = s.romByte k
  loaded : t.loaded = s.loaded
  now : t.now = s.now
  inbox : t.inbox = s.inbox
  saved : t.saved = s.saved
  op : t.diag.op = s.diag.op

/-- Nothing changes but the outputs: the block returned, and the fault condition named. -/
structure State.SameDevice (s t : State) : Prop extends State.SameCartridge s t where
  bank : t.bank = s.bank
  ram : ∀ k, t.ramByte k = s.ramByte k
  rtc : t.rtc = s.rtc
  free : t.free = s.free

/-- Nothing changes but the bank registers and the outputs. -/
structure State.SameButBank (s t : State) : Prop extends State.SameCartridge s t where
  ram : ∀ k, t.ramByte k = s.ramByte k
  rtc : t.rtc = s.rtc
  free : t.free = s.free

/-- Nothing changes but the RTC and the outputs. -/
structure State.SameButRtc (s t : State) : Prop extends State.SameCartridge s t where
  bank : t.bank = s.bank
  ram : ∀ k, t.ramByte k = s.ramByte k
  free : t.free = s.free

/-- Nothing changes but the 32 bytes of RAM from `off` upwards, which become the payload's (R71), and
the outputs. -/
structure State.Stored (s t : State) (off : Nat) (data : Block) : Prop
    extends State.SameCartridge s t where
  bank : t.bank = s.bank
  rtc : t.rtc = s.rtc
  free : t.free = s.free
  stored : ∀ k (h : k < 32), t.ramByte (off + k) = data[k]
  kept : ∀ k, k < off ∨ off + 32 ≤ k → t.ramByte k = s.ramByte k

/-! ## What a transaction returned -/

/-- The transaction was a read and returned the bytes of `f`, lane by lane, with no fault condition. -/
def State.Returned (t : State) (f : Nat → Byte) : Prop :=
  t.diag.fault = .none ∧ ∃ b : Block, t.out = .some b ∧ ∀ k (h : k < 32), b[k] = f k

/-- The transaction was a read that met the condition `f` and returned zeros (R291). -/
def State.Zeroed (t : State) (f : BusFault) : Prop :=
  t.diag.fault = .some f ∧ ∃ b : Block, t.out = .some b ∧ ∀ k (h : k < 32), b[k] = 0x00#8

/-- The transaction was a write that completed with no fault condition. -/
def State.Wrote (t : State) : Prop := t.diag.fault = .none ∧ t.out = .none

/-- The transaction was a write that met the condition `f` and was ignored (R291). -/
def State.Ignored (t : State) (f : BusFault) : Prop := t.diag.fault = .some f ∧ t.out = .none

end Sys2Proof.Machine
end

