-- ==== Sys2Proof/Certificates/Slice0/Obligations.lean ====
section
/-! DEFINITION. The statements about the model, for the provers.  In each, `t` is the state after; a
result is said of every well-formed operand, and what is left alone is said by the frames of
`Sys2Proof.Safety`. -/

open Sys2Proof Sys2Proof.Machine

/-! ## Encoding -/

/-- R100, R103, R106: decoding the encoding of a well-formed transaction gives it back, with every
address and payload. -/
def Obligations.DecodeOfEncodeIsIdentity : Prop :=
  ∀ i : Instr, i.wf = true → decode (encode i).1 (encode i).2 = .instr i

/-- R100, R103: what decodes is well formed and encodes back to the word it came from, and a write to its payload. -/
def Obligations.EncodeOfDecodeIsIdentity : Prop :=
  ∀ (cw : CmdWord) (d : Block) (i : Instr), decode cw d = .instr i →
    i.wf = true ∧ (encode i).1 = cw ∧ (i.shape.write = true → (encode i).2 = d)

/-- R103, R108: a word is refused for its strap code (4, 6, 7), then for its alignment, and for nothing
else. -/
def Obligations.DecodeRefusesExactly : Prop :=
  ∀ (cw : CmdWord) (d : Block),
    let m := cw.toNat / 131072
    ((m = 4 ∨ m = 6 ∨ m = 7) → decode cw d = .reject .unsupportedMapper) ∧
    (m ≠ 4 → m ≠ 6 → m ≠ 7 → cw.toNat % 32 ≠ 0 → decode cw d = .reject .unaligned) ∧
    (m ≠ 4 → m ≠ 6 → m ≠ 7 → cw.toNat % 32 = 0 → ∃ i, decode cw d = .instr i)

/-- R107: for a modelled variant and an aligned address exactly one row of the opcode table matches,
and the decoder answers a transaction of that row. -/
def Obligations.OneTableRowMatches : Prop :=
  ∀ cw : CmdWord, (Mapper.ofStrap (CmdWord.strap cw)).modelled = true → cw.toNat % 32 = 0 →
    ∃ r, tableRows.filter (fun r => r.matches cw) = [r] ∧
      ∀ d, ∃ i, decode cw d = .instr i ∧ i.shape.mnemonic = r.mnemonic

/-- Words written out from the encodings and examples of the spec decode to what they stand for: the row and the
address are the spec's. The payload of zeros that a write has here is the model's choice: the table numbers no bits of a
payload (log entry 4). -/
def Obligations.SampleWordsDecode : Prop :=
  decodeTableWord 24 0x04000 = .some (.noneRdRom 0x4000#16) ∧
  decodeTableWord 24 0x36000 = .some (.mbc1WrMode 0x6000#16 Block.zero) ∧
  decodeTableWord 24 0x5A1E0 = .some (.mbc2WrRam 0xA1E0#16 Block.zero) ∧
  decodeTableWord 24 0x76000 = .some (.mbc3WrLatch 0x6000#16 Block.zero) ∧
  decodeTableWord 24 0xB3FE0 = .some (.mbc5WrRombh 0x3FE0#16 Block.zero) ∧
  decodeTableWord 24 0xAC000 = .some (.mbc5RdInvc 0xC000#16)

/-- R105: the arithmetic of the translations is the assembly of bits. -/
def Obligations.OffsetsAreAssembledBits : Prop :=
  ∀ (a : Addr) (romBank : BitVec 9) (ramBank : BitVec 4),
    fixedRomOffset a = (a.setWidth 23).toNat ∧
    (0x4000 ≤ a.toNat → a.toNat ≤ 0x7FFF →
      bankedRomOffset romBank a = (romBank ++ a.extractLsb' 0 14 : BitVec 23).toNat) ∧
    (0xA000 ≤ a.toNat → a.toNat ≤ 0xBFFF →
      bankedRamOffset ramBank a = (ramBank ++ a.extractLsb' 0 13 : BitVec 17).toNat ∧
      flatRamOffset a = (a.extractLsb' 0 13).toNat)

/-! ## A step -/

/-- R80, R100, R103: when the oldest request is a bus transaction that decodes, the step takes it from
the inbox, puts its clock and its row on the bus, and runs exactly it.
The event `diag` is the model's (log entry 8). -/
def Obligations.StepRunsDecodedTransaction : Prop :=
  ∀ (s : State) (addr : Addr) (data : Block) (now : Seconds) (rest : List Request) (i : Instr),
    s.loaded = true →
    (s.inbox = .read addr now :: rest →
      decode (commandWord s.cfg.mapper false addr) Block.zero = .instr i →
      step s = exec i { s with inbox := rest, now := now, diag := ⟨.some i, .none⟩ }) ∧
    (s.inbox = .write addr data now :: rest →
      decode (commandWord s.cfg.mapper true addr) data = .instr i →
      step s = exec i { s with inbox := rest, now := now, diag := ⟨.some i, .none⟩ })

/-- R61, R103, R293, R332: a bus transaction has no step when no cartridge is loaded, when the strap code is not
a variant's, and when the address is not aligned. R332 says that nothing is possible after an unload; that this is a refusal
named `notLoaded`, tested before the spec's own two, is the model's choice (log entry 11). -/
def Obligations.ImpossibleTransactionsAreRefused : Prop :=
  ∀ (s : State) (addr : Addr) (data : Block) (now : Seconds) (rest : List Request),
    (s.inbox = .read addr now :: rest ∨ s.inbox = .write addr data now :: rest) →
    (s.loaded = false → step s = .refused .notLoaded) ∧
    (s.loaded = true → s.cfg.mapper.modelled = false → step s = .refused .unsupportedMapper) ∧
    (s.loaded = true → s.cfg.mapper.modelled = true → addr.toNat % 32 ≠ 0 →
      step s = .refused .unaligned)

/-- R113, R349: with nothing issued the device does nothing, and a host operation is taken from the inbox
and performed. That requests wait in an inbox is the model's interface (log entry 5). -/
def Obligations.StepServesHostRequests : Prop :=
  ∀ (s : State) (p : Launch) (rest : List Request),
    (s.inbox = [] → step s = .next s) ∧
    (s.inbox = .load p :: rest → step s = load p { s with inbox := rest }) ∧
    (s.inbox = .save :: rest → step s = save { s with inbox := rest }) ∧
    (s.inbox = .unload :: rest → step s = unload { s with inbox := rest })

/-- The model's own interface (log entry 4): a word of the opcode table that is placed where the device
takes its next request is run by the very next step, with a payload of zeros, on a cartridge with the word's strap code.
The event `diag` is the model's (log entry 8). -/
def Obligations.PlacedWordIsRunNext : Prop :=
  ∀ (s : State) (nbits w : Nat) (i : Instr), decodeTableWord nbits w = .some i →
    step (s.withFetchWord nbits w) =
      exec i { s with
        cfg := { s.cfg with mapper := i.shape.mapper }
        loaded := true
        now := s.rtc.last
        diag := ⟨.some i, .none⟩ }

/-- R290, R267: every aligned transaction on a loaded cartridge of a modelled variant completes, but for the
one refusal of the clock: an MBC3 with a timer whose clock reads earlier than its last tick, on an unlatched RTC read or
a latch write. -/
def Obligations.AlignedTransactionsComplete : Prop :=
  ∀ (s : State) (addr : Addr) (data : Block) (now : Seconds) (rest : List Request),
    s.loaded = true → s.cfg.mapper.modelled = true → addr.toNat % 32 = 0 →
    (s.inbox = .read addr now :: rest →
      (∃ t, step s = .next t) ∨
      (step s = .refused .clockBackwards ∧ s.cfg.mapper = .mbc3 ∧ s.RtcWindow ∧
        0xA000 ≤ addr.toNat ∧ addr.toNat ≤ 0xBFFF ∧ s.rtc.latched = false ∧
        now.toNat < s.rtc.last.toNat)) ∧
    (s.inbox = .write addr data now :: rest →
      (∃ t, step s = .next t) ∨
      (step s = .refused .clockBackwards ∧ s.cfg.mapper = .mbc3 ∧ s.cfg.hasTimer = true ∧
        0x6000 ≤ addr.toNat ∧ addr.toNat ≤ 0x7FFF ∧ data[0].toNat % 2 = 1 ∧
        now.toNat < s.rtc.last.toNat))

/-! ## Reads of ROM -/

/-- R66, R131, R151, R181, R201, R232: the fixed part of the ROM is read at the bus address itself, whatever the
registers hold.
The event `diag` is the model's (log entry 8). -/
def Obligations.FixedRomReads : Prop :=
  ∀ (addr : Addr) (s : State),
    ∀ i ∈ [Instr.noneRdRom addr, .mbc1RdRom0 addr, .mbc2RdRom0 addr, .mbc3RdRom0 addr, .mbc5RdRom0 addr],
      i.wf = true →
      ∃ t, exec i s = .next t ∧ t.Returned (fun k => s.romByte (addr.toNat + k)) ∧ s.SameDevice t

/-- R67, R152, R182, R202, R233: the banked window shows bank `rom_bank`, and zeros when there is no such
bank: the whole number is compared.
The event `diag` is the model's (log entry 8). -/
def Obligations.BankedRomReads : Prop :=
  ∀ (addr : Addr) (s : State),
    ∀ i ∈ [Instr.mbc1RdRomx addr, .mbc2RdRomx addr, .mbc3RdRomx addr, .mbc5RdRomx addr],
      i.wf = true →
      (s.bank.romBank.toNat < s.cfg.romBanks →
        ∃ t, exec i s = .next t ∧ s.SameDevice t ∧
          t.Returned (fun k => s.romByte (addr.toNat - 0x4000 + s.bank.romBank.toNat * 0x4000 + k))) ∧
      (s.cfg.romBanks ≤ s.bank.romBank.toNat →
        ∃ t, exec i s = .next t ∧ s.SameDevice t ∧ t.Zeroed .romBankRange)

/-! ## Reads and writes of RAM -/

/-- R68, R153, R234, and the RAM path of R203: the RAM window shows bank `ram_bank`, and zeros without RAM or
without such a bank. `ram_en` is not consulted.
The event `diag` is the model's (log entry 8). -/
def Obligations.BankedRamReads : Prop :=
  ∀ (addr : Addr) (s : State), ∀ i ∈ [Instr.mbc1RdRam addr, .mbc3RdRam addr, .mbc5RdRam addr],
    i.wf = true → (i = .mbc3RdRam addr → ¬ s.RtcWindow) →
    (s.cfg.ramPresent = true → s.bank.ramBank.toNat < s.cfg.ramBanks →
      ∃ t, exec i s = .next t ∧ s.SameDevice t ∧
        t.Returned (fun k => s.ramByte (addr.toNat - 0xA000 + s.bank.ramBank.toNat * 0x2000 + k))) ∧
    (s.cfg.ramPresent = false →
      ∃ t, exec i s = .next t ∧ s.SameDevice t ∧ t.Zeroed .ramAbsent) ∧
    (s.cfg.ramPresent = true → s.cfg.ramBanks ≤ s.bank.ramBank.toNat →
      ∃ t, exec i s = .next t ∧ s.SameDevice t ∧ t.Zeroed .ramBankRange)

/-- R68, R159, R240, and the RAM path of R208: a write stores its 32 bytes in bank `ram_bank`, and is
ignored without RAM or without such a bank.
The event `diag` is the model's (log entry 8). -/
def Obligations.BankedRamWrites : Prop :=
  ∀ (addr : Addr) (data : Block) (s : State),
    ∀ i ∈ [Instr.mbc1WrRam addr data, .mbc3WrRam addr data, .mbc5WrRam addr data],
      i.wf = true → (i = .mbc3WrRam addr data → ¬ s.RtcWindow) → Memory.wf ramBlank s.ram →
      (s.cfg.ramPresent = true → s.bank.ramBank.toNat < s.cfg.ramBanks →
        ∃ t, exec i s = .next t ∧ t.Wrote ∧
          s.Stored t (bankedRamOffset s.bank.ramBank addr) data) ∧
      (s.cfg.ramPresent = false →
        ∃ t, exec i s = .next t ∧ s.SameDevice t ∧ t.Ignored .ramAbsent) ∧
      (s.cfg.ramPresent = true → s.cfg.ramBanks ≤ s.bank.ramBank.toNat →
        ∃ t, exec i s = .next t ∧ s.SameDevice t ∧ t.Ignored .ramBankRange)

/-- R183, R187: the RAM of MBC2 is gated by `ram_en`, for reads and for writes.
The event `diag` is the model's (log entry 8). -/
def Obligations.Mbc2RamIsGated : Prop :=
  ∀ (addr : Addr) (data : Block) (s : State), (Instr.mbc2RdRam addr).wf = true →
    (Instr.mbc2WrRam addr data).wf = true → Memory.wf ramBlank s.ram →
    (s.cfg.ramPresent = true → s.bank.ramEn = true → s.bank.ramBank.toNat < s.cfg.ramBanks →
      (∃ t, exec (.mbc2RdRam addr) s = .next t ∧ s.SameDevice t ∧ t.Returned
        (fun k => s.ramByte (addr.toNat - 0xA000 + s.bank.ramBank.toNat * 0x2000 + k))) ∧
      (∃ t, exec (.mbc2WrRam addr data) s = .next t ∧ t.Wrote ∧
        s.Stored t (bankedRamOffset s.bank.ramBank addr) data)) ∧
    (s.cfg.ramPresent = false →
      (∃ t, exec (.mbc2RdRam addr) s = .next t ∧ s.SameDevice t ∧ t.Zeroed .ramAbsent) ∧
      (∃ t, exec (.mbc2WrRam addr data) s = .next t ∧ s.SameDevice t ∧ t.Ignored .ramAbsent)) ∧
    (s.cfg.ramPresent = true → s.bank.ramEn = false →
      (∃ t, exec (.mbc2RdRam addr) s = .next t ∧ s.SameDevice t ∧ t.Zeroed .ramDisabled) ∧
      (∃ t, exec (.mbc2WrRam addr data) s = .next t ∧ s.SameDevice t ∧ t.Ignored .ramDisabled)) ∧
    (s.cfg.ramPresent = true → s.bank.ramEn = true → s.cfg.ramBanks ≤ s.bank.ramBank.toNat →
      (∃ t, exec (.mbc2RdRam addr) s = .next t ∧ s.SameDevice t ∧ t.Zeroed .ramBankRange) ∧
      (∃ t, exec (.mbc2WrRam addr data) s = .next t ∧ s.SameDevice t ∧ t.Ignored .ramBankRange))

/-- R69, R132, R134: the RAM of NONE is unbanked and ungated; with quarter-sized RAM only 0xA000 to 0xA7FF
are valid.
The event `diag` is the model's (log entry 8). -/
def Obligations.NoneRamIsFlat : Prop :=
  ∀ (addr : Addr) (data : Block) (s : State), (Instr.noneRdRam addr).wf = true →
    (Instr.noneWrRam addr data).wf = true → Memory.wf ramBlank s.ram →
    (s.cfg.ramPresent = true → (s.cfg.ramQuarters = 1 → addr.toNat ≤ 0xA7FF) →
      (∃ t, exec (.noneRdRam addr) s = .next t ∧ s.SameDevice t ∧
        t.Returned (fun k => s.ramByte (addr.toNat - 0xA000 + k))) ∧
      (∃ t, exec (.noneWrRam addr data) s = .next t ∧ t.Wrote ∧
        s.Stored t (flatRamOffset addr) data)) ∧
    (s.cfg.ramPresent = false →
      (∃ t, exec (.noneRdRam addr) s = .next t ∧ s.SameDevice t ∧ t.Zeroed .ramAbsent) ∧
      (∃ t, exec (.noneWrRam addr data) s = .next t ∧ s.SameDevice t ∧ t.Ignored .ramAbsent)) ∧
    (s.cfg.ramPresent = true → s.cfg.ramQuarters = 1 → 0xA7FF < addr.toNat →
      (∃ t, exec (.noneRdRam addr) s = .next t ∧ s.SameDevice t ∧ t.Zeroed .ramRange) ∧
      (∃ t, exec (.noneWrRam addr data) s = .next t ∧ s.SameDevice t ∧ t.Ignored .ramRange))

/-- R80 (a): where the RAM window shows a byte of RAM at the address, a write completes, and the read of the
same address by the same variant then completes and returns the block that was written, whole. Where that is: RAM
is present and the bank exists (R68; on NONE, which has no banks, the quarter-size limit: R69), it is enabled on
MBC2 (R70), and no RTC register is selected on MBC3 (R208). -/
def Obligations.RamReadReturnsWhatWasWritten : Prop :=
  ∀ (addr : Addr) (data : Block) (s : State),
    ∀ p ∈ [(Instr.noneWrRam addr data, Instr.noneRdRam addr), (.mbc1WrRam addr data, .mbc1RdRam addr),
        (.mbc2WrRam addr data, .mbc2RdRam addr), (.mbc3WrRam addr data, .mbc3RdRam addr),
        (.mbc5WrRam addr data, .mbc5RdRam addr)],
      p.1.wf = true → Memory.wf ramBlank s.ram → s.cfg.ramPresent = true →
      (p.1 = .noneWrRam addr data → s.cfg.ramQuarters = 1 → addr.toNat ≤ 0xA7FF) →
      (p.1 ≠ .noneWrRam addr data → s.bank.ramBank.toNat < s.cfg.ramBanks) →
      (p.1 = .mbc2WrRam addr data → s.bank.ramEn = true) →
      (p.1 = .mbc3WrRam addr data → ¬ s.RtcWindow) →
      ∃ t u, exec p.1 s = .next t ∧ exec p.2 t = .next u ∧ u.out = .some data

/-- R67, R68, R69, R66: every offset a translation gives has its whole block inside the array. -/
def Obligations.TranslationsStayInside : Prop :=
  ∀ (s : State) (addr : Addr) (off : Nat), s.cfg.wf = true → addr.toNat % 32 = 0 →
    (addr.toNat ≤ 0x7FFF → fixedRomOffset addr + 31 < s.cfg.romBytes) ∧
    (0x4000 ≤ addr.toNat → addr.toNat ≤ 0x7FFF → romTarget addr s = .at off →
      off + 31 < s.cfg.romBytes) ∧
    (0xA000 ≤ addr.toNat → addr.toNat ≤ 0xBFFF →
      (ramTarget addr s = .at off ∨ gatedRamTarget addr s = .at off ∨ flatRamTarget addr s = .at off) →
      off + 31 < s.cfg.ramBytes)

/-! ## Invalid windows and no-effect writes -/

/-- R63: a read of an invalid window returns a block of free values and changes nothing else: only the count of
the free values drawn goes up. Nothing is said of the block's bytes.
The event `diag` is the model's (log entry 8). -/
def Obligations.InvalidWindowReads : Prop :=
  ∀ (addr : Addr) (s : State),
    ∀ i ∈ [Instr.noneRdInv8 addr, .noneRdInvc addr, .mbc1RdInv8 addr, .mbc1RdInvc addr,
        .mbc2RdInv8 addr, .mbc2RdInvc addr, .mbc3RdInv8 addr, .mbc3RdInvc addr,
        .mbc5RdInv8 addr, .mbc5RdInvc addr],
      i.wf = true →
      ∃ t, exec i s = .next t ∧ t.out.isSome = true ∧ t.diag.fault = .some .invalidWindow ∧
        t.free = s.free + 1 ∧ s.SameCartridge t ∧ t.bank = s.bank ∧
        (∀ k, t.ramByte k = s.ramByte k) ∧ t.rtc = s.rtc

/-- R63: a write to an invalid window has no effect.
The event `diag` is the model's (log entry 8). -/
def Obligations.InvalidWindowWrites : Prop :=
  ∀ (addr : Addr) (data : Block) (s : State),
    ∀ i ∈ [Instr.noneWrInv8 addr data, .noneWrInvc addr data, .mbc1WrInv8 addr data,
        .mbc1WrInvc addr data, .mbc2WrInv8 addr data, .mbc2WrInvc addr data, .mbc3WrInv8 addr data,
        .mbc3WrInvc addr data, .mbc5WrInv8 addr data, .mbc5WrInvc addr data],
      i.wf = true →
      ∃ t, exec i s = .next t ∧ t.Ignored .invalidWindow ∧ s.SameDevice t

/-- R133, R186, R239: the writes that do nothing.
The event `diag` is the model's (log entry 8). -/
def Obligations.NoEffectWrites : Prop :=
  ∀ (addr : Addr) (data : Block) (s : State),
    ∀ i ∈ [Instr.noneWrRom addr data, .mbc2WrNop addr data, .mbc5WrNop addr data],
      i.wf = true → ∃ t, exec i s = .next t ∧ t.Wrote ∧ s.SameDevice t

/-! ## Register ports -/

/-- R154, R184, R204, R235: the RAM enable port compares the whole byte with 0x0A.
The event `diag` is the model's (log entry 8). -/
def Obligations.RamEnablePorts : Prop :=
  ∀ (addr : Addr) (data : Block) (s : State),
    ∀ i ∈ [Instr.mbc1WrRamen addr data, .mbc2WrRamen addr data, .mbc3WrRamen addr data,
        .mbc5WrRamen addr data],
      i.wf = true →
      ∃ t, exec i s = .next t ∧ t.Wrote ∧ s.SameButBank t ∧
        (t.bank.ramEn = true ↔ data[0].toNat = 0x0A) ∧ t.bank.romBank = s.bank.romBank ∧
        t.bank.ramBank = s.bank.ramBank ∧ t.bank.mode = s.bank.mode

/-- R155: the ROM bank port of MBC1 replaces bits 4:0 by those of the byte, 0 corrected to 1, and keeps the
others. -/
def Obligations.Mbc1RomBankPort : Prop :=
  ∀ (addr : Addr) (data : Block) (s : State), (Instr.mbc1WrRomb addr data).wf = true →
    ∃ t, exec (.mbc1WrRomb addr data) s = .next t ∧ t.out = .none ∧ s.SameButBank t ∧
      t.bank.romBank.toNat = s.bank.romBank.toNat / 32 * 32 +
        (if data[0].toNat % 32 = 0 then 1 else data[0].toNat % 32) ∧
      t.bank.ramBank = s.bank.ramBank ∧ t.bank.ramEn = s.bank.ramEn ∧ t.bank.mode = s.bank.mode

/-- R156: the magic-bits port of MBC1 writes `ram_bank` in RAM-banking mode and `rom_bank[6:5]` in ROM-banking
mode, never both.
The event `diag` is the model's (log entry 8). -/
def Obligations.Mbc1MagicPort : Prop :=
  ∀ (addr : Addr) (data : Block) (s : State), (Instr.mbc1WrBank2 addr data).wf = true →
    ∃ t, exec (.mbc1WrBank2 addr data) s = .next t ∧ t.Wrote ∧ s.SameButBank t ∧
      t.bank.ramEn = s.bank.ramEn ∧ t.bank.mode = s.bank.mode ∧
      (s.bank.mode = true →
        t.bank.ramBank.toNat = data[0].toNat % 4 ∧ t.bank.romBank = s.bank.romBank) ∧
      (s.bank.mode = false → t.bank.ramBank = s.bank.ramBank ∧
        t.bank.romBank.toNat =
          s.bank.romBank.toNat / 128 * 128 + data[0].toNat % 4 * 32 + s.bank.romBank.toNat % 32)

/-- R157: the mode port of MBC1 moves the magic bits on a change of mode, and does nothing when the mode is
written again. -/
def Obligations.Mbc1ModePort : Prop :=
  ∀ (addr : Addr) (data : Block) (s : State), (Instr.mbc1WrMode addr data).wf = true →
    ∃ t, exec (.mbc1WrMode addr data) s = .next t ∧ t.out = .none ∧ s.SameButBank t ∧
      t.bank.ramEn = s.bank.ramEn ∧ (t.bank.mode = true ↔ data[0].toNat % 2 = 1) ∧
      (t.bank.mode = s.bank.mode → t.bank = s.bank) ∧
      (s.bank.mode = false → t.bank.mode = true →
        t.bank.ramBank.toNat = s.bank.romBank.toNat / 32 % 4 ∧
        t.bank.romBank.toNat = s.bank.romBank.toNat / 128 * 128 + s.bank.romBank.toNat % 32) ∧
      (s.bank.mode = true → t.bank.mode = false →
        t.bank.ramBank = 0#4 ∧
        t.bank.romBank.toNat = s.bank.romBank.toNat / 128 * 128 + s.bank.ramBank.toNat % 4 * 32 +
          s.bank.romBank.toNat % 32)

/-- R158: one shared 2-bit latch. The magic port sets it in either mode; the mode port and the ROM bank port
leave it; the register that is not live is 0; and with the mode and the low five bits it determines both bank numbers. -/
def Obligations.Mbc1MagicBitsLaw : Prop :=
  ∀ (addr : Addr) (data : Block) (s : State), s.cfg.mapper = .mbc1 → s.bank.Legal s.cfg →
    ((Instr.mbc1WrBank2 addr data).wf = true →
      ∃ t, exec (.mbc1WrBank2 addr data) s = .next t ∧ t.bank.magic = data[0].toNat % 4) ∧
    ((Instr.mbc1WrMode addr data).wf = true →
      ∃ t, exec (.mbc1WrMode addr data) s = .next t ∧ t.bank.magic = s.bank.magic) ∧
    ((Instr.mbc1WrRomb addr data).wf = true →
      ∃ t, exec (.mbc1WrRomb addr data) s = .next t ∧ t.bank.magic = s.bank.magic) ∧
    (s.bank.mode = true → s.bank.romBank.toNat / 32 % 4 = 0) ∧
    (s.bank.mode = false → s.bank.ramBank = 0#4) ∧
    (∀ b : BankRegs, b.Legal s.cfg → b.mode = s.bank.mode → b.magic = s.bank.magic →
      b.romBank.toNat % 32 = s.bank.romBank.toNat % 32 →
      b.romBank = s.bank.romBank ∧ b.ramBank = s.bank.ramBank)

/-- The round trip of R157 (d): from ROM-banking mode, entering RAM-banking mode and leaving it restores the
bank registers. -/
def Obligations.Mbc1ModeRoundTrip : Prop :=
  ∀ (addr addr' : Addr) (data data' : Block) (s t u : State), s.cfg.mapper = .mbc1 →
    s.bank.Legal s.cfg → s.bank.mode = false →
    (Instr.mbc1WrMode addr data).wf = true → (Instr.mbc1WrMode addr' data').wf = true →
    data[0].toNat % 2 = 1 → data'[0].toNat % 2 = 0 →
    exec (.mbc1WrMode addr data) s = .next t → exec (.mbc1WrMode addr' data') t = .next u →
    u.bank = s.bank

/-- R185: the ROM bank port of MBC2 replaces the whole register by 4 bits, 0 forced to 1.
The event `diag` is the model's (log entry 8). -/
def Obligations.Mbc2RomBankPort : Prop :=
  ∀ (addr : Addr) (data : Block) (s : State), (Instr.mbc2WrRomb addr data).wf = true →
    ∃ t, exec (.mbc2WrRomb addr data) s = .next t ∧ t.Wrote ∧ s.SameButBank t ∧
      t.bank.romBank.toNat = (if data[0].toNat % 16 = 0 then 1 else data[0].toNat % 16) ∧
      t.bank.ramBank = s.bank.ramBank ∧ t.bank.ramEn = s.bank.ramEn ∧ t.bank.mode = s.bank.mode

/-- R205: the ROM bank port of MBC3 replaces the whole register by 7 bits, with no correction.
The event `diag` is the model's (log entry 8). -/
def Obligations.Mbc3RomBankPort : Prop :=
  ∀ (addr : Addr) (data : Block) (s : State), (Instr.mbc3WrRomb addr data).wf = true →
    ∃ t, exec (.mbc3WrRomb addr data) s = .next t ∧ t.Wrote ∧ s.SameButBank t ∧
      t.bank.romBank.toNat = data[0].toNat % 128 ∧
      t.bank.ramBank = s.bank.ramBank ∧ t.bank.ramEn = s.bank.ramEn ∧ t.bank.mode = s.bank.mode

/-- R206: the select port of MBC3 accepts 0x00 to 0x03, and with a timer 0x08 to 0x0C, compared on the
whole byte, and leaves `ram_bank` alone for any other value.
The event `diag` is the model's (log entry 8). -/
def Obligations.Mbc3SelectPort : Prop :=
  ∀ (addr : Addr) (data : Block) (s : State), (Instr.mbc3WrSel addr data).wf = true →
    ∃ t, exec (.mbc3WrSel addr data) s = .next t ∧ t.Wrote ∧ s.SameButBank t ∧
      t.bank.romBank = s.bank.romBank ∧ t.bank.ramEn = s.bank.ramEn ∧ t.bank.mode = s.bank.mode ∧
      (if data[0].toNat ≤ 3 ∨ (s.cfg.hasTimer = true ∧ 8 ≤ data[0].toNat ∧ data[0].toNat ≤ 12)
        then t.bank.ramBank.toNat = data[0].toNat else t.bank.ramBank = s.bank.ramBank)

/-- R236, R237: the two ROM bank ports of MBC5 replace bits 7:0 and bit 8, and keep the other part.
The event `diag` is the model's (log entry 8). -/
def Obligations.Mbc5RomBankPorts : Prop :=
  ∀ (addr : Addr) (data : Block) (s : State),
    ((Instr.mbc5WrRombl addr data).wf = true →
      ∃ t, exec (.mbc5WrRombl addr data) s = .next t ∧ t.Wrote ∧ s.SameButBank t ∧
        t.bank.romBank.toNat = s.bank.romBank.toNat / 256 * 256 + data[0].toNat ∧
        t.bank.ramBank = s.bank.ramBank ∧ t.bank.ramEn = s.bank.ramEn ∧ t.bank.mode = s.bank.mode) ∧
    ((Instr.mbc5WrRombh addr data).wf = true →
      ∃ t, exec (.mbc5WrRombh addr data) s = .next t ∧ t.Wrote ∧ s.SameButBank t ∧
        t.bank.romBank.toNat = data[0].toNat % 2 * 256 + s.bank.romBank.toNat % 256 ∧
        t.bank.ramBank = s.bank.ramBank ∧ t.bank.ramEn = s.bank.ramEn ∧ t.bank.mode = s.bank.mode)

/-- R238: the RAM bank port of MBC5 takes 4 bits, whatever `HAS_RUMBLE` is (R243).
The event `diag` is the model's (log entry 8). -/
def Obligations.Mbc5RamBankPort : Prop :=
  ∀ (addr : Addr) (data : Block) (s : State), (Instr.mbc5WrRamb addr data).wf = true →
    ∃ t, exec (.mbc5WrRamb addr data) s = .next t ∧ t.Wrote ∧ s.SameButBank t ∧
      t.bank.ramBank.toNat = data[0].toNat % 16 ∧ t.bank.romBank = s.bank.romBank ∧
      t.bank.ramEn = s.bank.ramEn ∧ t.bank.mode = s.bank.mode

/-! ## The clock -/

/-- R266: one tick, register by register: a chain of divisions over the naturals, the carry sticky, bits 6:1 of the
control byte kept, the snapshot and the latch flag untouched. -/
def Obligations.TickFollowsTheChain : Prop :=
  ∀ (now : Seconds) (r : Rtc), r.last.toNat ≤ now.toNat →
    ∃ r', tick now r = .some r' ∧ r'.last = now ∧ r'.lat = r.lat ∧ r'.latched = r.latched ∧
      ∃ s m h dd : Nat,
        s = r.live.seconds.toNat + (now.toNat - r.last.toNat) ∧
        m = r.live.minutes.toNat + s / 60 ∧
        h = r.live.hours.toNat + m / 60 ∧
        dd = r.live.dayLow.toNat + 256 * (r.live.ctl.toNat % 2) + h / 24 ∧
        r'.live.seconds.toNat = s % 60 ∧
        r'.live.minutes.toNat = m % 60 ∧
        r'.live.hours.toNat = h % 24 ∧
        r'.live.dayLow.toNat = dd % 512 % 256 ∧
        r'.live.ctl.toNat % 2 = dd % 512 / 256 ∧
        r'.live.ctl.toNat / 2 % 64 = r.live.ctl.toNat / 2 % 64 ∧
        r'.live.ctl.toNat / 128 = (if 511 < dd then 1 else r.live.ctl.toNat / 128)

/-- R270 (a): a tick conserves time modulo 512 days, and sets the day-carry exactly when it was set or the time
reaches 512 days. -/
def Obligations.TickConservesTime : Prop :=
  ∀ (now : Seconds) (r r' : Rtc), tick now r = .some r' →
    r'.live.total = (r.live.total + (now.toNat - r.last.toNat)) % (512 * 86400) ∧
    (dayCarry r'.live.ctl = true ↔
      dayCarry r.live.ctl = true ∨ 512 * 86400 ≤ r.live.total + (now.toNat - r.last.toNat))

/-- R270 (b), (c): a tick brings every register into range, and ticking again at the same time changes
nothing. -/
def Obligations.TickNormalisesAndIsIdempotent : Prop :=
  ∀ (now : Seconds) (r r' : Rtc), tick now r = .some r' →
    r'.live.seconds.toNat ≤ 59 ∧ r'.live.minutes.toNat ≤ 59 ∧ r'.live.hours.toNat ≤ 23 ∧
    tick now r' = .some r'

/-- R270 (d): two ticks leave what the second one alone would: no time is lost by ticking late. -/
def Obligations.TicksCompose : Prop :=
  ∀ (t1 t2 : Seconds) (r : Rtc), r.last.toNat ≤ t1.toNat → t1.toNat ≤ t2.toNat →
    (tick t1 r).bind (tick t2) = tick t2 r

/-- R267: whatever would tick with a clock that reads earlier than the last tick is refused: the unlatched RTC
read, the latch write, and a load that restores a clock from the future. -/
def Obligations.BackwardsClockIsRefused : Prop :=
  ∀ (addr : Addr) (data : Block) (s : State) (p : Launch) (im : RtcImage),
    ((Instr.mbc3RdRam addr).wf = true → s.now.toNat < s.rtc.last.toNat → s.RtcWindow →
      s.rtc.latched = false → exec (.mbc3RdRam addr) s = .refused .clockBackwards) ∧
    ((Instr.mbc3WrLatch addr data).wf = true → s.now.toNat < s.rtc.last.toNat →
      s.cfg.hasTimer = true → data[0].toNat % 2 = 1 →
      exec (.mbc3WrLatch addr data) s = .refused .clockBackwards) ∧
    (p.wf = true → p.cfg.hasRtc = true → p.rtcInit = .some im → p.now.toNat < im.last.toNat →
      load p s = .refused .clockBackwards)

/-- R203, R262: an RTC read returns one register in every lane: the snapshot's while latched, with no change at
all, else the live one after a tick.
The event `diag` is the model's (log entry 8). -/
def Obligations.Mbc3RtcRead : Prop :=
  ∀ (addr : Addr) (s : State) (k : RtcReg), (Instr.mbc3RdRam addr).wf = true → s.RtcWindow →
    RtcReg.ofBank s.bank.ramBank = .some k →
    (s.rtc.latched = true →
      ∃ t, exec (.mbc3RdRam addr) s = .next t ∧ s.SameDevice t ∧ t.Returned (fun _ => s.rtc.lat.get k)) ∧
    (∀ r, s.rtc.latched = false → tick s.now s.rtc = .some r →
      ∃ t, exec (.mbc3RdRam addr) s = .next t ∧ s.SameButRtc t ∧ t.rtc = r ∧
        t.Returned (fun _ => r.live.get k))

/-- R34: the select codes name the five registers in order, and no other value names one. -/
def Obligations.SelectCodesNameRegisters : Prop :=
  ∀ (b : BitVec 4) (k : RtcReg), RtcReg.ofBank b = .some k ↔
    (b.toNat = 0x08 ∧ k = .seconds) ∨ (b.toNat = 0x09 ∧ k = .minutes) ∨ (b.toNat = 0x0A ∧ k = .hours) ∨
    (b.toNat = 0x0B ∧ k = .dayLow) ∨ (b.toNat = 0x0C ∧ k = .ctl)

/-- R208, R264: an RTC write stores `data[0]` whole in the one live register, and nothing else changes: no
tick, no change of the snapshot, the latch flag or `rtc.last`.
The event `diag` is the model's (log entry 8). -/
def Obligations.Mbc3RtcWrite : Prop :=
  ∀ (addr : Addr) (data : Block) (s : State) (k : RtcReg), (Instr.mbc3WrRam addr data).wf = true →
    s.RtcWindow → RtcReg.ofBank s.bank.ramBank = .some k →
    ∃ t, exec (.mbc3WrRam addr data) s = .next t ∧ t.Wrote ∧ s.SameButRtc t ∧
      t.rtc.live.get k = data[0] ∧ (∀ j, j ≠ k → t.rtc.live.get j = s.rtc.live.get j) ∧
      t.rtc.lat = s.rtc.lat ∧ t.rtc.latched = s.rtc.latched ∧ t.rtc.last = s.rtc.last

/-- R207, R268, R269: the latch port: nothing without a timer; bit 0 set ticks, takes a fresh snapshot of all five
registers and latches; bit 0 clear only unlatches.
The event `diag` is the model's (log entry 8). -/
def Obligations.Mbc3LatchPort : Prop :=
  ∀ (addr : Addr) (data : Block) (s : State), (Instr.mbc3WrLatch addr data).wf = true →
    (s.cfg.hasTimer = false →
      ∃ t, exec (.mbc3WrLatch addr data) s = .next t ∧ t.Wrote ∧ s.SameDevice t) ∧
    (s.cfg.hasTimer = true → data[0].toNat % 2 = 0 →
      ∃ t, exec (.mbc3WrLatch addr data) s = .next t ∧ t.Wrote ∧ s.SameButRtc t ∧
        t.rtc.latched = false ∧ t.rtc.live = s.rtc.live ∧ t.rtc.lat = s.rtc.lat ∧
        t.rtc.last = s.rtc.last) ∧
    (∀ r, s.cfg.hasTimer = true → data[0].toNat % 2 = 1 → tick s.now s.rtc = .some r →
      ∃ t, exec (.mbc3WrLatch addr data) s = .next t ∧ t.Wrote ∧ s.SameButRtc t ∧
        t.rtc.latched = true ∧ t.rtc.live = r.live ∧ t.rtc.lat = r.live ∧ t.rtc.last = s.now)

/-- R270 (f): no bus transaction moves `rtc.last` backwards. -/
def Obligations.LastTickNeverMovesBack : Prop :=
  ∀ (s t : State) (q : Request) (rest : List Request), s.inbox = q :: rest → q.isBus = true →
    step s = .next t → s.rtc.last.toNat ≤ t.rtc.last.toNat

/-! ## Load, save, unload -/

/-- The reset values R26, R39, R322 and R326 give, on the state after reset. The bank registers and the latch
flag have theirs on every cartridge. The cartridge and the load's clock are the model's choices and are not stated (log
entries 2 and 3); as that cartridge has no RAM and no RTC, that its RAM bytes read as the cold pattern at every index,
and that its RTC registers stand there at their cold values, rests on log entries 17 and 9. -/
def Obligations.ResetValues : Prop :=
  State.reset.bank.romBank = 1#9 ∧ State.reset.bank.ramBank = 0#4 ∧ State.reset.bank.ramEn = false ∧
  State.reset.bank.mode = false ∧ State.reset.rtc.latched = false ∧
  State.reset.rtc.live = ⟨0#8, 0#8, 0#8, 0#8, 0#8⟩ ∧ State.reset.rtc.lat = ⟨0#8, 0#8, 0#8, 0#8, 0#8⟩ ∧
  ∀ k, State.reset.ramByte k = if k / 128 % 2 = 0 then 0x00#8 else 0xFF#8

/-- R26: every load, of every variant, cold or restoring, leaves the bank registers at 1, 0, false, false. -/
def Obligations.LoadResetsBankRegisters : Prop :=
  ∀ (p : Launch) (s t : State), load p s = .next t →
    t.bank.romBank = 1#9 ∧ t.bank.ramBank = 0#4 ∧ t.bank.ramEn = false ∧ t.bank.mode = false

/-- R12, R267, R297, R320, R321: a load completes exactly for a modelled variant, a well-formed configuration, a ROM
image of its size and a clock that is not behind the restored one, and is refused by name otherwise; the device is then
loaded, with that configuration and those ROM bytes. The order of the refusals is the model's choice (log entry 21), and
that the inbox and the last saved image stay is its interface (log entries 5 and 20). -/
def Obligations.LoadCompletesExactly : Prop :=
  ∀ (p : Launch) (s : State),
    (p.cfg.wf = true → p.rom.length = p.cfg.romBanks * 16384 →
      (∀ im, p.cfg.hasRtc = true → p.rtcInit = .some im → im.last.toNat ≤ p.now.toNat) →
      ∃ t, load p s = .next t ∧ t.loaded = true ∧ t.cfg = p.cfg ∧ t.inbox = s.inbox ∧
        t.saved = s.saved ∧ t.rtc.latched = false ∧ ∀ k (h : k < p.rom.length), t.romByte k = p.rom[k]) ∧
    (p.cfg.mapper.modelled = false → load p s = .refused .unsupportedMapper) ∧
    (p.cfg.mapper.modelled = true →
      p.cfg.wf = false ∨ p.rom.length ≠ p.cfg.romBanks * 16384 →
      load p s = .refused .illFormedConfig) ∧
    (∀ im, p.cfg.wf = true → p.rom.length = p.cfg.romBanks * 16384 → p.cfg.hasRtc = true →
      p.rtcInit = .some im → p.now.toNat < im.last.toNat → load p s = .refused .clockBackwards)

/-- R322: without a saved image RAM holds the alternating pattern, 0x00 first. -/
def Obligations.ColdRamPattern : Prop :=
  ∀ (p : Launch) (s t : State) (k : Nat), load p s = .next t → p.cfg.ramPresent = true →
    p.ramInit = .none → k < p.cfg.ramBanks * 8192 →
    t.ramByte k = if k / 128 % 2 = 0 then 0x00#8 else 0xFF#8

/-- R323: a load with a saved image completes whatever the image's length is, with RAM restored from it, cut to
the array's size, and its deficit filled with zeros, not with the cold pattern. What the spec asks of the rest of the load
is the premise: a well-formed launch (R12) and a restored clock that is not in the future (R267). -/
def Obligations.RestoredRamBytes : Prop :=
  ∀ (p : Launch) (s : State) (image : List Byte), p.wf = true →
    (∀ im, p.cfg.hasRtc = true → p.rtcInit = .some im → im.last.toNat ≤ p.now.toNat) →
    p.cfg.ramPresent = true → p.ramInit = .some image →
    ∃ t, load p s = .next t ∧ ∀ k, k < p.cfg.ramBanks * 8192 →
      (∀ h : k < image.length, t.ramByte k = image[k]) ∧ (image.length ≤ k → t.ramByte k = 0x00#8)

/-- R325, R326: the RTC after a load is cold, at the load's clock, or the restored one after a tick to it, the
snapshot as saved; it is not latched. -/
def Obligations.RtcAfterLoad : Prop :=
  ∀ (p : Launch) (s t : State), load p s = .next t → p.cfg.hasRtc = true →
    (p.rtcInit = .none → t.rtc = ⟨⟨0#8, 0#8, 0#8, 0#8, 0#8⟩, ⟨0#8, 0#8, 0#8, 0#8, 0#8⟩, false, p.now⟩) ∧
    (∀ im, p.rtcInit = .some im →
      t.rtc.lat = im.lat ∧ t.rtc.latched = false ∧ t.rtc.last = p.now ∧
      tick p.now ⟨im.live, im.lat, false, im.last⟩ = .some t.rtc)

/-- R331: a save changes nothing of the device. With a battery and RAM it writes out the RAM bytes and, with an
RTC, its ten registers and its timestamp as they stand; else nothing. -/
def Obligations.SaveWritesTheImage : Prop :=
  ∀ s : State, s.loaded = true →
    ∃ t, save s = .next t ∧ { t with saved := s.saved } = s ∧
      (s.cfg.hasBattery = true → s.cfg.ramPresent = true →
        ∃ im, t.saved = .some im ∧ im.ram.length = s.cfg.ramBanks * 8192 ∧
          (∀ k (h : k < im.ram.length), im.ram[k] = s.ramByte k) ∧
          (s.cfg.hasRtc = true → im.rtc = .some ⟨s.rtc.live, s.rtc.lat, s.rtc.last⟩) ∧
          (s.cfg.hasRtc = false → im.rtc = .none)) ∧
      ((s.cfg.hasBattery = false ∨ s.cfg.ramPresent = false) → t.saved = s.saved)

/-- R324, R309, R325: what a save wrote out, a later load of the same cartridge restores: RAM is the same data,
and the clock is the one that was running, ticked over the gap. -/
def Obligations.SaveThenLoadRestores : Prop :=
  ∀ (s t : State) (im : Image) (p : Launch), s.Inv → s.loaded = true → s.cfg.hasBattery = true →
    s.cfg.ramPresent = true → save s = .next t → t.saved = .some im →
    p.cfg = s.cfg → p.wf = true → p.ramInit = .some im.ram → p.rtcInit = im.rtc →
    (s.cfg.hasRtc = true → s.rtc.last.toNat ≤ p.now.toNat) →
    ∃ u, load p t = .next u ∧ u.ram = s.ram ∧
      (s.cfg.hasRtc = true → tick p.now { s.rtc with latched := false } = .some u.rtc)

/-- R332: an unload ends the instance; it does not save, it may be repeated, and no bus transaction is possible
after it. That it keeps the rest of the state, where nothing reads it, and that a save is then refused are the model's choice
(log entry 11). -/
def Obligations.UnloadEndsTheInstance : Prop :=
  ∀ s : State, ∃ t, unload s = .next t ∧ t = { s with loaded := false } ∧ unload t = .next t ∧
    save t = .refused .notLoaded ∧
    ∀ (w : Bool) (addr : Addr) (data : Block) (now : Seconds),
      transact w addr data now t = .refused .notLoaded

/-- R8, R9, R10, R12: what the header tables identify is well formed, but for a timer cartridge with quarter-sized
RAM. -/
def Obligations.IdentifiedCartridgesAreWellFormed : Prop :=
  ∀ (mbc2HasRam : Bool) (type rom ram : Byte) (c : Cfg),
    identityOfHeader mbc2HasRam type rom ram = .cfg c →
    (c.wf = true ↔ ¬ (c.hasTimer = true ∧ c.hasRam = true ∧ c.ramQuarters = 1))

/-! ## The whole machine -/

/-- The reset state meets the invariant. -/
def Obligations.ResetMeetsInvariant : Prop := State.reset.Inv

/-- R27, R30, R31, R12: every step keeps the invariant: the bank registers stay legal for their variant, the
arrays stay in canonical form and inside their sizes, the configuration stays well formed. -/
def Obligations.StepKeepsInvariant : Prop :=
  ∀ s t : State, s.Inv → step s = .next t → t.Inv

/-- R30, R8, R331: no bus transaction changes the ROM, the configuration, the power state or what was saved. That it is
taken from an inbox, and nothing else is, is the model's interface (log entry 5). -/
def Obligations.TransactionsLeaveTheCartridge : Prop :=
  ∀ (s t : State) (q : Request) (rest : List Request), s.inbox = q :: rest → q.isBus = true →
    step s = .next t →
    t.rom = s.rom ∧ t.cfg = s.cfg ∧ t.loaded = s.loaded ∧ t.saved = s.saved ∧ t.inbox = rest

/-- R65: what a write can change, by its window: below 0x8000 only bank registers, or the RTC on MBC3 from 0x6000
up; in 0xA000 to 0xBFFF only RAM, or the one live register an MBC3 with a timer has selected; elsewhere nothing. It
returns no data. -/
def Obligations.WritesStayInTheirClass : Prop :=
  ∀ (i : Instr) (s t : State), i.wf = true → i.shape.write = true → exec i s = .next t →
    t.out = .none ∧ s.SameCartridge t ∧ t.free = s.free ∧
    (i.addr.toNat < 0x8000 →
      t.ram = s.ram ∧
      (t.rtc = s.rtc ∨ (i.shape.mapper = .mbc3 ∧ 0x6000 ≤ i.addr.toNat ∧ t.bank = s.bank))) ∧
    (0xA000 ≤ i.addr.toNat → i.addr.toNat ≤ 0xBFFF →
      t.bank = s.bank ∧
      (t.rtc = s.rtc ∨
        (i.shape.mapper = .mbc3 ∧ s.RtcWindow ∧ t.ram = s.ram ∧
          ∃ k b, RtcReg.ofBank s.bank.ramBank = .some k ∧
            t.rtc = { s.rtc with live := s.rtc.live.set k b }))) ∧
    ((0x8000 ≤ i.addr.toNat ∧ i.addr.toNat < 0xA000) ∨ 0xC000 ≤ i.addr.toNat → s.SameDevice t)

/-- R76: a read changes nothing, but for one kind: an unlatched RTC read, which ticks. -/
def Obligations.ReadsChangeOnlyTheClock : Prop :=
  ∀ (i : Instr) (s t : State), i.wf = true → i.shape.write = false → exec i s = .next t →
    t.out.isSome = true ∧ s.SameCartridge t ∧ t.bank = s.bank ∧ t.ram = s.ram ∧
    (t.rtc = s.rtc ∨
      (i = .mbc3RdRam i.addr ∧ s.RtcWindow ∧ s.rtc.latched = false ∧ tick s.now s.rtc = .some t.rtc))

/-- R24, R70, R343: but on MBC2, no transaction's outcome depends on `ram_en`: from two states that differ in it alone,
a transaction returns the same block and leaves states that differ at most in it, and one is refused exactly as the
other is. -/
def Obligations.EnableIsUnobservableButOnMbc2 : Prop :=
  ∀ (s : State) (e : Bool) (q : Request) (rest : List Request), s.inbox = q :: rest →
    q.isBus = true → s.cfg.mapper ≠ .mbc2 →
    (∀ t, step s = .next t →
      ∃ u, step (s.withEnable e) = .next u ∧ u.withEnable t.bank.ramEn = t) ∧
    (∀ r, step s = .refused r → step (s.withEnable e) = .refused r)

/-- R9, R10, R297: header bytes are refused as an unsupported mapper for every type code without a row of a
modelled variant, MMM01's among them, and as an ill-formed configuration for a RAM size code above 0x05; nothing else is
refused. The type table is the spec's general knowledge (log entry 14), and that the type code is judged before the RAM
size code is the model's choice (log entry 21). -/
def Obligations.HeadersAreRefusedExactly : Prop :=
  ∀ (mbc2HasRam : Bool) (type rom ram : Byte),
    let known := [0x00, 0x01, 0x02, 0x03, 0x05, 0x06, 0x08, 0x09, 0x0F, 0x10, 0x11, 0x12, 0x13, 0x19, 0x1A,
      0x1B, 0x1C, 0x1D, 0x1E]
    (type.toNat ∉ known → identityOfHeader mbc2HasRam type rom ram = .refused .unsupportedMapper) ∧
    (type.toNat ∈ known → 0x05 < ram.toNat →
      identityOfHeader mbc2HasRam type rom ram = .refused .illFormedConfig) ∧
    (type.toNat ∈ known → ram.toNat ≤ 0x05 → ∃ c, identityOfHeader mbc2HasRam type rom ram = .cfg c)
end

