-- ==== Sys2Proof/Laws/Decode.lean ====
section
/-! SUPPORT. Command words and addresses: the fields of an encoded word, and the bits of an address as
arithmetic on its number. -/

namespace Sys2Proof

variable {a : Addr} {m : Mapper} {w : Bool}

/-! ### The fields of a command word -/

@[simp] theorem Mapper.ofStrap_strap (m : Mapper) : Mapper.ofStrap m.strap = m := by cases m <;> rfl

theorem Mapper.strap_ofStrap (x : BitVec 3) : (Mapper.ofStrap x).strap = x := by revert x; decide

@[simp] theorem CmdWord.strap_commandWord (m : Mapper) (w : Bool) (a : Addr) :
    CmdWord.strap (commandWord m w a) = m.strap := by
  apply BitVec.eq_of_getLsbD_eq
  intro i hi
  simp only [CmdWord.strap, commandWord, BitVec.getLsbD_extractLsb', BitVec.getLsbD_append]
  have h1 : ¬ 17 + i < 16 := by omega
  have h2 : ¬ 17 + i - 16 < 1 := by omega
  have h3 : 17 + i - 16 - 1 = i := by omega
  simp [hi, h1, h2, h3]

@[simp] theorem CmdWord.write_commandWord (m : Mapper) (w : Bool) (a : Addr) :
    CmdWord.write (commandWord m w a) = w := by
  simp only [CmdWord.write, commandWord, BitVec.getLsbD_append]
  cases w <;> rfl

@[simp] theorem CmdWord.addr_commandWord (m : Mapper) (w : Bool) (a : Addr) :
    CmdWord.addr (commandWord m w a) = a := by
  apply BitVec.eq_of_getLsbD_eq
  intro i hi
  simp only [CmdWord.addr, commandWord, BitVec.getLsbD_extractLsb', BitVec.getLsbD_append, hi,
    Nat.zero_add, decide_true, Bool.true_and, if_true]

/-- A command word is its three fields. -/
theorem commandWord_fields (cw : CmdWord) :
    commandWord (Mapper.ofStrap (CmdWord.strap cw)) (CmdWord.write cw) (CmdWord.addr cw) = cw := by
  rw [commandWord, Mapper.strap_ofStrap]
  apply BitVec.eq_of_getLsbD_eq
  intro i hi
  simp only [CmdWord.strap, CmdWord.write, CmdWord.addr, BitVec.getLsbD_append,
    BitVec.getLsbD_extractLsb', BitVec.getLsbD_ofBool]
  by_cases h16 : i < 16
  · simp [h16]
  · by_cases h17 : i < 17
    · have : i = 16 := by omega
      subst this; simp
    · have h1 : ¬ i - 16 < 1 := by omega
      have h2 : 17 + (i - 16 - 1) = i := by omega
      have h3 : i - 16 - 1 < 3 := by omega
      simp [h16, h1, h2, h3]

/-! ### Addresses -/

theorem Addr.getLsbD_eq (a : Addr) (k : Nat) : a.getLsbD k = decide (a.toNat / 2 ^ k % 2 = 1) := by
  rw [BitVec.getLsbD, Nat.testBit_eq_decide_div_mod_eq]

theorem Addr.low5_eq_zero (a : Addr) : a.extractLsb' 0 5 = 0#5 ↔ a.toNat % 32 = 0 := by
  rw [← BitVec.toNat_inj]
  simp [BitVec.extractLsb'_toNat]

theorem aligned_iff (a : Addr) : aligned a = true ↔ a.toNat % 32 = 0 := by simp [aligned]

/-- What well-formedness says of the address. -/
theorem Instr.wf_iff (i : Instr) : i.wf = true ↔
    i.addr.toNat % 32 = 0 ∧ i.shape.lo ≤ i.addr.toNat ∧ i.addr.toNat ≤ i.shape.hi := by
  simp [Instr.wf, Instr.inRange, aligned]

/-- The four masks of the opcode table, on an aligned address: what is left is the number of the
address's window. -/
theorem Addr.and_mask (h : a.toNat % 32 = 0) :
    (a &&& 0x801F#16).toNat = a.toNat / 32768 * 32768 ∧
    (a &&& 0xC01F#16).toNat = a.toNat / 16384 * 16384 ∧
    (a &&& 0xE01F#16).toNat = a.toNat / 8192 * 8192 ∧
    (a &&& 0xF01F#16).toNat = a.toNat / 4096 * 4096 := by
  have key : ∀ (x : Addr) (n : Nat), n < 65536 → (∀ k < 16,
      (a.getLsbD k && x.getLsbD k) = decide (n / 2 ^ k % 2 = 1)) → (a &&& x).toNat = n := by
    intro x n hn hk
    have : a &&& x = BitVec.ofNat 16 n := by
      apply BitVec.eq_of_getLsbD_eq
      intro k hk'
      rw [BitVec.getLsbD_and, hk k hk', Addr.getLsbD_eq, BitVec.toNat_ofNat,
        Nat.mod_eq_of_lt (a := n) hn]
    rw [this, BitVec.toNat_ofNat, Nat.mod_eq_of_lt hn]
  have hlt := a.isLt
  refine ⟨key _ _ (by omega) ?_, key _ _ (by omega) ?_, key _ _ (by omega) ?_, key _ _ (by omega) ?_⟩ <;>
  · intro k hk
    rw [Addr.getLsbD_eq]
    interval_cases k <;> simp <;> omega

/-- The masks of the opcode table keep the variant, the direction and part of the address. -/
theorem commandWord_and (m : Mapper) (w : Bool) (a x : Addr) :
    commandWord m w a &&& (0xF#4 ++ x) = m.strap ++ BitVec.ofBool w ++ (a &&& x) := by
  apply BitVec.eq_of_getLsbD_eq
  intro i hi
  simp only [commandWord, BitVec.getLsbD_and, BitVec.getLsbD_append]
  by_cases h : i < 16
  · simp [h]
  · have : (0xF#4).getLsbD (i - 16) = true := by
      have : i - 16 < 4 := by omega
      generalize i - 16 = j at this
      revert j; decide
    simp only [h, if_false, this, Bool.and_true]

/-- A row whose mask keeps part `x` of the address matches a word whose address has that part. -/
theorem commandWord_matches (m : Mapper) (w : Bool) (a x : Addr) (n : Nat)
    (h : (a &&& x).toNat = n) :
    commandWord m w a &&& (0xF#4 ++ x) = m.strap ++ BitVec.ofBool w ++ BitVec.ofNat 16 n := by
  rw [commandWord_and, ← h, BitVec.ofNat_toNat, BitVec.setWidth_eq]

/-! ### The rows of a variant, by the number of the address -/

/-- The number of an address's 0x1000-byte slice, `addr[15:12]` (R231). -/
def Addr.slice (a : Addr) : Nat := a.toNat / 0x1000

theorem Addr.slice_lt (a : Addr) : a.slice < 16 := by
  have := a.isLt; simp only [Addr.slice]; omega

/-- The four top bits of an address, by its slice. -/
theorem Addr.top_bits (a : Addr) :
    (a.getLsbD 15 = decide (a.slice / 8 = 1)) ∧ (a.getLsbD 14 = decide (a.slice / 4 % 2 = 1)) ∧
    (a.getLsbD 13 = decide (a.slice / 2 % 2 = 1)) ∧ (a.getLsbD 12 = decide (a.slice % 2 = 1)) := by
  have := a.isLt
  simp only [Addr.getLsbD_eq, Addr.slice]
  refine ⟨?_, ?_, ?_, ?_⟩ <;> congr 1 <;> apply propext <;> omega

theorem decodeNone_read (a : Addr) (d : Block) : decodeNone false a d =
    if a.slice ≤ 7 then .noneRdRom a else
    if a.slice ≤ 9 then .noneRdInv8 a else
    if a.slice ≤ 11 then .noneRdRam a else
    .noneRdInvc a := by
  obtain ⟨h15, h14, h13, h12⟩ := a.top_bits
  have := a.slice_lt
  simp only [decodeNone, h15, h14, h13]
  generalize a.slice = n at this
  interval_cases n <;> rfl

theorem decodeNone_write (a : Addr) (d : Block) : decodeNone true a d =
    if a.slice ≤ 7 then .noneWrRom a d else
    if a.slice ≤ 9 then .noneWrInv8 a d else
    if a.slice ≤ 11 then .noneWrRam a d else
    .noneWrInvc a d := by
  obtain ⟨h15, h14, h13, h12⟩ := a.top_bits
  have := a.slice_lt
  simp only [decodeNone, h15, h14, h13]
  generalize a.slice = n at this
  interval_cases n <;> rfl

theorem decodeMbc1_read (a : Addr) (d : Block) : decodeMbc1 false a d =
    if a.slice ≤ 3 then .mbc1RdRom0 a else
    if a.slice ≤ 7 then .mbc1RdRomx a else
    if a.slice ≤ 9 then .mbc1RdInv8 a else
    if a.slice ≤ 11 then .mbc1RdRam a else
    .mbc1RdInvc a := by
  obtain ⟨h15, h14, h13, h12⟩ := a.top_bits
  have := a.slice_lt
  simp only [decodeMbc1, h15, h14, h13]
  generalize a.slice = n at this
  interval_cases n <;> rfl

theorem decodeMbc1_write (a : Addr) (d : Block) : decodeMbc1 true a d =
    if a.slice ≤ 1 then .mbc1WrRamen a d else
    if a.slice ≤ 3 then .mbc1WrRomb a d else
    if a.slice ≤ 5 then .mbc1WrBank2 a d else
    if a.slice ≤ 7 then .mbc1WrMode a d else
    if a.slice ≤ 9 then .mbc1WrInv8 a d else
    if a.slice ≤ 11 then .mbc1WrRam a d else
    .mbc1WrInvc a d := by
  obtain ⟨h15, h14, h13, h12⟩ := a.top_bits
  have := a.slice_lt
  simp only [decodeMbc1, h15, h14, h13]
  generalize a.slice = n at this
  interval_cases n <;> rfl

theorem decodeMbc2_read (a : Addr) (d : Block) : decodeMbc2 false a d =
    if a.slice ≤ 3 then .mbc2RdRom0 a else
    if a.slice ≤ 7 then .mbc2RdRomx a else
    if a.slice ≤ 9 then .mbc2RdInv8 a else
    if a.slice ≤ 11 then .mbc2RdRam a else
    .mbc2RdInvc a := by
  obtain ⟨h15, h14, h13, h12⟩ := a.top_bits
  have := a.slice_lt
  simp only [decodeMbc2, h15, h14, h13]
  generalize a.slice = n at this
  interval_cases n <;> rfl

theorem decodeMbc2_write (a : Addr) (d : Block) : decodeMbc2 true a d =
    if a.slice ≤ 1 then .mbc2WrRamen a d else
    if a.slice ≤ 3 then .mbc2WrRomb a d else
    if a.slice ≤ 7 then .mbc2WrNop a d else
    if a.slice ≤ 9 then .mbc2WrInv8 a d else
    if a.slice ≤ 11 then .mbc2WrRam a d else
    .mbc2WrInvc a d := by
  obtain ⟨h15, h14, h13, h12⟩ := a.top_bits
  have := a.slice_lt
  simp only [decodeMbc2, h15, h14, h13]
  generalize a.slice = n at this
  interval_cases n <;> rfl

theorem decodeMbc3_read (a : Addr) (d : Block) : decodeMbc3 false a d =
    if a.slice ≤ 3 then .mbc3RdRom0 a else
    if a.slice ≤ 7 then .mbc3RdRomx a else
    if a.slice ≤ 9 then .mbc3RdInv8 a else
    if a.slice ≤ 11 then .mbc3RdRam a else
    .mbc3RdInvc a := by
  obtain ⟨h15, h14, h13, h12⟩ := a.top_bits
  have := a.slice_lt
  simp only [decodeMbc3, h15, h14, h13]
  generalize a.slice = n at this
  interval_cases n <;> rfl

theorem decodeMbc3_write (a : Addr) (d : Block) : decodeMbc3 true a d =
    if a.slice ≤ 1 then .mbc3WrRamen a d else
    if a.slice ≤ 3 then .mbc3WrRomb a d else
    if a.slice ≤ 5 then .mbc3WrSel a d else
    if a.slice ≤ 7 then .mbc3WrLatch a d else
    if a.slice ≤ 9 then .mbc3WrInv8 a d else
    if a.slice ≤ 11 then .mbc3WrRam a d else
    .mbc3WrInvc a d := by
  obtain ⟨h15, h14, h13, h12⟩ := a.top_bits
  have := a.slice_lt
  simp only [decodeMbc3, h15, h14, h13]
  generalize a.slice = n at this
  interval_cases n <;> rfl

theorem decodeMbc5_read (a : Addr) (d : Block) : decodeMbc5 false a d =
    if a.slice ≤ 3 then .mbc5RdRom0 a else
    if a.slice ≤ 7 then .mbc5RdRomx a else
    if a.slice ≤ 9 then .mbc5RdInv8 a else
    if a.slice ≤ 11 then .mbc5RdRam a else
    .mbc5RdInvc a := by
  obtain ⟨h15, h14, h13, h12⟩ := a.top_bits
  have := a.slice_lt
  simp only [decodeMbc5, h15, h14, h13, h12]
  generalize a.slice = n at this
  interval_cases n <;> rfl

theorem decodeMbc5_write (a : Addr) (d : Block) : decodeMbc5 true a d =
    if a.slice ≤ 1 then .mbc5WrRamen a d else
    if a.slice ≤ 2 then .mbc5WrRombl a d else
    if a.slice ≤ 3 then .mbc5WrRombh a d else
    if a.slice ≤ 5 then .mbc5WrRamb a d else
    if a.slice ≤ 7 then .mbc5WrNop a d else
    if a.slice ≤ 9 then .mbc5WrInv8 a d else
    if a.slice ≤ 11 then .mbc5WrRam a d else
    .mbc5WrInvc a d := by
  obtain ⟨h15, h14, h13, h12⟩ := a.top_bits
  have := a.slice_lt
  simp only [decodeMbc5, h15, h14, h13, h12]
  generalize a.slice = n at this
  interval_cases n <;> rfl

/-- Decoding the word of an aligned address: by the variant alone. -/
theorem decode_commandWord (m : Mapper) (w : Bool) (a : Addr) (d : Block) (h : a.toNat % 32 = 0) :
    decode (commandWord m w a) d =
      match m with
      | .none => .instr (decodeNone w a d)
      | .mbc1 => .instr (decodeMbc1 w a d)
      | .mbc2 => .instr (decodeMbc2 w a d)
      | .mbc3 => .instr (decodeMbc3 w a d)
      | .mbc5 => .instr (decodeMbc5 w a d)
      | .unassigned4 | .mmm01 | .unassigned7 => .reject .unsupportedMapper := by
  have h' := (Addr.low5_eq_zero a).2 h
  unfold decode
  cases m <;>
    simp only [CmdWord.strap_commandWord, CmdWord.write_commandWord, CmdWord.addr_commandWord,
      Mapper.ofStrap_strap, h', if_true]

/-! ### What decoding answers -/

theorem CmdWord.fields_toNat (cw : CmdWord) :
    (CmdWord.addr cw).toNat = cw.toNat % 65536 ∧ (CmdWord.strap cw).toNat = cw.toNat / 131072 := by
  have := cw.isLt
  constructor
  · simp [CmdWord.addr, BitVec.extractLsb'_toNat]
  · simp [CmdWord.strap, BitVec.extractLsb'_toNat, Nat.shiftRight_eq_div_pow]; omega

theorem Mapper.modelled_ofStrap (x : BitVec 3) :
    (Mapper.ofStrap x).modelled = true ↔ x.toNat ≠ 4 ∧ x.toNat ≠ 6 ∧ x.toNat ≠ 7 := by
  revert x; decide

theorem decode_unsupported {cw : CmdWord} {d : Block}
    (hm : (Mapper.ofStrap (CmdWord.strap cw)).modelled = false) :
    decode cw d = .reject .unsupportedMapper := by
  unfold decode
  generalize Mapper.ofStrap (CmdWord.strap cw) = m at hm
  cases m <;> simp [Mapper.modelled] at hm ⊢

theorem decode_unaligned {cw : CmdWord} {d : Block}
    (hm : (Mapper.ofStrap (CmdWord.strap cw)).modelled = true) (h : (CmdWord.addr cw).toNat % 32 ≠ 0) :
    decode cw d = .reject .unaligned := by
  have := mt (Addr.low5_eq_zero (CmdWord.addr cw)).1 h
  unfold decode
  simp only [this, if_false]
  generalize Mapper.ofStrap (CmdWord.strap cw) = m at hm
  cases m <;> simp [Mapper.modelled] at hm ⊢

theorem decode_some {cw : CmdWord} {d : Block}
    (hm : (Mapper.ofStrap (CmdWord.strap cw)).modelled = true) (h : (CmdWord.addr cw).toNat % 32 = 0) :
    ∃ i, decode cw d = .instr i := by
  have := (Addr.low5_eq_zero (CmdWord.addr cw)).2 h
  unfold decode
  simp only [this, if_true]
  generalize Mapper.ofStrap (CmdWord.strap cw) = m at hm
  cases m <;> simp [Mapper.modelled] at hm ⊢

/-- A transaction is the one a variant, a direction, an aligned address and a payload stand for. -/
structure Instr.IsFor (m : Mapper) (w : Bool) (a : Addr) (d : Block) (i : Instr) : Prop where
  wf : i.wf = true
  addr : i.addr = a
  mapper : i.shape.mapper = m
  write : i.shape.write = w
  payload : i.payload = if w then .some d else .none

theorem Instr.isFor_of {d : Block} {i : Instr} (h : a.toNat % 32 = 0) (h0 : i.addr = a)
    (h1 : i.shape.mapper = m) (h2 : i.shape.write = w) (h3 : i.payload = if w then .some d else .none)
    (hl : i.shape.lo ≤ a.toNat) (hh : a.toNat ≤ i.shape.hi) : i.IsFor m w a d := by
  subst h0
  exact ⟨(Instr.wf_iff _).2 ⟨h, hl, hh⟩, rfl, h1, h2, h3⟩

theorem decodeNone_isFor (w : Bool) (d : Block) (h : a.toNat % 32 = 0) :
    (decodeNone w a d).IsFor .none w a d := by
  have := a.isLt
  cases w <;> simp only [decodeNone_read, decodeNone_write] <;> split_ifs <;>
    refine Instr.isFor_of h rfl rfl rfl rfl ?_ ?_ <;> simp only [Instr.shape, Addr.slice] at * <;> omega

theorem decodeMbc1_isFor (w : Bool) (d : Block) (h : a.toNat % 32 = 0) :
    (decodeMbc1 w a d).IsFor .mbc1 w a d := by
  have := a.isLt
  cases w <;> simp only [decodeMbc1_read, decodeMbc1_write] <;> split_ifs <;>
    refine Instr.isFor_of h rfl rfl rfl rfl ?_ ?_ <;> simp only [Instr.shape, Addr.slice] at * <;> omega

theorem decodeMbc2_isFor (w : Bool) (d : Block) (h : a.toNat % 32 = 0) :
    (decodeMbc2 w a d).IsFor .mbc2 w a d := by
  have := a.isLt
  cases w <;> simp only [decodeMbc2_read, decodeMbc2_write] <;> split_ifs <;>
    refine Instr.isFor_of h rfl rfl rfl rfl ?_ ?_ <;> simp only [Instr.shape, Addr.slice] at * <;> omega

theorem decodeMbc3_isFor (w : Bool) (d : Block) (h : a.toNat % 32 = 0) :
    (decodeMbc3 w a d).IsFor .mbc3 w a d := by
  have := a.isLt
  cases w <;> simp only [decodeMbc3_read, decodeMbc3_write] <;> split_ifs <;>
    refine Instr.isFor_of h rfl rfl rfl rfl ?_ ?_ <;> simp only [Instr.shape, Addr.slice] at * <;> omega

theorem decodeMbc5_isFor (w : Bool) (d : Block) (h : a.toNat % 32 = 0) :
    (decodeMbc5 w a d).IsFor .mbc5 w a d := by
  have := a.isLt
  cases w <;> simp only [decodeMbc5_read, decodeMbc5_write] <;> split_ifs <;>
    refine Instr.isFor_of h rfl rfl rfl rfl ?_ ?_ <;> simp only [Instr.shape, Addr.slice] at * <;> omega

/-- What decodes is the transaction the word's fields stand for, and its address is aligned. -/
theorem decode_isFor {cw : CmdWord} {d : Block} {i : Instr} (hd : decode cw d = .instr i) :
    (CmdWord.addr cw).toNat % 32 = 0 ∧
      i.IsFor (Mapper.ofStrap (CmdWord.strap cw)) (CmdWord.write cw) (CmdWord.addr cw) d := by
  have ha : (CmdWord.addr cw).toNat % 32 = 0 := by
    by_contra hn
    cases hm : (Mapper.ofStrap (CmdWord.strap cw)).modelled
    · rw [decode_unsupported hm] at hd; cases hd
    · rw [decode_unaligned hm hn] at hd; cases hd
  rw [← commandWord_fields cw, decode_commandWord _ _ _ _ ha] at hd
  refine ⟨ha, ?_⟩
  generalize Mapper.ofStrap (CmdWord.strap cw) = m at hd ⊢
  cases m <;> simp only [Decoded.instr.injEq, reduceCtorEq] at hd <;> subst hd
  · exact decodeNone_isFor _ _ ha
  · exact decodeMbc1_isFor _ _ ha
  · exact decodeMbc2_isFor _ _ ha
  · exact decodeMbc3_isFor _ _ ha
  · exact decodeMbc5_isFor _ _ ha

end Sys2Proof
end

