-- ==== Sys2Proof/Laws/State.lean ====
section
/-! SUPPORT. Each field of the state after each update of it, so that no proof unfolds a record update. -/

namespace Sys2Proof.Machine

/-! ### `State.setBank` -/

@[simp] theorem State.setBank_cfg (s : State) (b : BankRegs) : (s.setBank b).cfg = s.cfg := rfl
@[simp] theorem State.setBank_rom (s : State) (b : BankRegs) : (s.setBank b).rom = s.rom := rfl
@[simp] theorem State.setBank_loaded (s : State) (b : BankRegs) :
    (s.setBank b).loaded = s.loaded := rfl
@[simp] theorem State.setBank_bank (s : State) (b : BankRegs) : (s.setBank b).bank = b := rfl
@[simp] theorem State.setBank_ram (s : State) (b : BankRegs) : (s.setBank b).ram = s.ram := rfl
@[simp] theorem State.setBank_rtc (s : State) (b : BankRegs) : (s.setBank b).rtc = s.rtc := rfl
@[simp] theorem State.setBank_now (s : State) (b : BankRegs) : (s.setBank b).now = s.now := rfl
@[simp] theorem State.setBank_inbox (s : State) (b : BankRegs) :
    (s.setBank b).inbox = s.inbox := rfl
@[simp] theorem State.setBank_out (s : State) (b : BankRegs) : (s.setBank b).out = s.out := rfl
@[simp] theorem State.setBank_diag (s : State) (b : BankRegs) : (s.setBank b).diag = s.diag := rfl
@[simp] theorem State.setBank_saved (s : State) (b : BankRegs) :
    (s.setBank b).saved = s.saved := rfl
@[simp] theorem State.setBank_free (s : State) (b : BankRegs) : (s.setBank b).free = s.free := rfl
@[simp] theorem State.setBank_romByte (s : State) (b : BankRegs) (k : Nat) :
    (s.setBank b).romByte k = s.romByte k := rfl
@[simp] theorem State.setBank_ramByte (s : State) (b : BankRegs) (k : Nat) :
    (s.setBank b).ramByte k = s.ramByte k := rfl

/-! ### `State.setRtc` -/

@[simp] theorem State.setRtc_cfg (s : State) (r : Rtc) : (s.setRtc r).cfg = s.cfg := rfl
@[simp] theorem State.setRtc_rom (s : State) (r : Rtc) : (s.setRtc r).rom = s.rom := rfl
@[simp] theorem State.setRtc_loaded (s : State) (r : Rtc) : (s.setRtc r).loaded = s.loaded := rfl
@[simp] theorem State.setRtc_bank (s : State) (r : Rtc) : (s.setRtc r).bank = s.bank := rfl
@[simp] theorem State.setRtc_ram (s : State) (r : Rtc) : (s.setRtc r).ram = s.ram := rfl
@[simp] theorem State.setRtc_rtc (s : State) (r : Rtc) : (s.setRtc r).rtc = r := rfl
@[simp] theorem State.setRtc_now (s : State) (r : Rtc) : (s.setRtc r).now = s.now := rfl
@[simp] theorem State.setRtc_inbox (s : State) (r : Rtc) : (s.setRtc r).inbox = s.inbox := rfl
@[simp] theorem State.setRtc_out (s : State) (r : Rtc) : (s.setRtc r).out = s.out := rfl
@[simp] theorem State.setRtc_diag (s : State) (r : Rtc) : (s.setRtc r).diag = s.diag := rfl
@[simp] theorem State.setRtc_saved (s : State) (r : Rtc) : (s.setRtc r).saved = s.saved := rfl
@[simp] theorem State.setRtc_free (s : State) (r : Rtc) : (s.setRtc r).free = s.free := rfl
@[simp] theorem State.setRtc_romByte (s : State) (r : Rtc) (k : Nat) :
    (s.setRtc r).romByte k = s.romByte k := rfl
@[simp] theorem State.setRtc_ramByte (s : State) (r : Rtc) (k : Nat) :
    (s.setRtc r).ramByte k = s.ramByte k := rfl

/-! ### `State.storeRam` -/

@[simp] theorem State.storeRam_cfg (s : State) (off : Nat) (d : Block) :
    (s.storeRam off d).cfg = s.cfg := rfl
@[simp] theorem State.storeRam_rom (s : State) (off : Nat) (d : Block) :
    (s.storeRam off d).rom = s.rom := rfl
@[simp] theorem State.storeRam_loaded (s : State) (off : Nat) (d : Block) :
    (s.storeRam off d).loaded = s.loaded := rfl
@[simp] theorem State.storeRam_bank (s : State) (off : Nat) (d : Block) :
    (s.storeRam off d).bank = s.bank := rfl
@[simp] theorem State.storeRam_ram (s : State) (off : Nat) (d : Block) :
    (s.storeRam off d).ram = Memory.writeBytes ramBlank s.ram off d.toList := rfl
@[simp] theorem State.storeRam_rtc (s : State) (off : Nat) (d : Block) :
    (s.storeRam off d).rtc = s.rtc := rfl
@[simp] theorem State.storeRam_now (s : State) (off : Nat) (d : Block) :
    (s.storeRam off d).now = s.now := rfl
@[simp] theorem State.storeRam_inbox (s : State) (off : Nat) (d : Block) :
    (s.storeRam off d).inbox = s.inbox := rfl
@[simp] theorem State.storeRam_out (s : State) (off : Nat) (d : Block) :
    (s.storeRam off d).out = s.out := rfl
@[simp] theorem State.storeRam_diag (s : State) (off : Nat) (d : Block) :
    (s.storeRam off d).diag = s.diag := rfl
@[simp] theorem State.storeRam_saved (s : State) (off : Nat) (d : Block) :
    (s.storeRam off d).saved = s.saved := rfl
@[simp] theorem State.storeRam_free (s : State) (off : Nat) (d : Block) :
    (s.storeRam off d).free = s.free := rfl
@[simp] theorem State.storeRam_romByte (s : State) (off : Nat) (d : Block) (k : Nat) :
    (s.storeRam off d).romByte k = s.romByte k := rfl

/-! ### `State.begin` -/

@[simp] theorem State.begin_cfg (s : State) (t : Seconds) (i : Instr) :
    (s.begin t i).cfg = s.cfg := rfl
@[simp] theorem State.begin_rom (s : State) (t : Seconds) (i : Instr) :
    (s.begin t i).rom = s.rom := rfl
@[simp] theorem State.begin_loaded (s : State) (t : Seconds) (i : Instr) :
    (s.begin t i).loaded = s.loaded := rfl
@[simp] theorem State.begin_bank (s : State) (t : Seconds) (i : Instr) :
    (s.begin t i).bank = s.bank := rfl
@[simp] theorem State.begin_ram (s : State) (t : Seconds) (i : Instr) :
    (s.begin t i).ram = s.ram := rfl
@[simp] theorem State.begin_rtc (s : State) (t : Seconds) (i : Instr) :
    (s.begin t i).rtc = s.rtc := rfl
@[simp] theorem State.begin_now (s : State) (t : Seconds) (i : Instr) : (s.begin t i).now = t := rfl
@[simp] theorem State.begin_inbox (s : State) (t : Seconds) (i : Instr) :
    (s.begin t i).inbox = s.inbox := rfl
@[simp] theorem State.begin_out (s : State) (t : Seconds) (i : Instr) :
    (s.begin t i).out = s.out := rfl
@[simp] theorem State.begin_diag (s : State) (t : Seconds) (i : Instr) :
    (s.begin t i).diag = ⟨.some i, .none⟩ := rfl
@[simp] theorem State.begin_saved (s : State) (t : Seconds) (i : Instr) :
    (s.begin t i).saved = s.saved := rfl
@[simp] theorem State.begin_free (s : State) (t : Seconds) (i : Instr) :
    (s.begin t i).free = s.free := rfl
@[simp] theorem State.begin_romByte (s : State) (t : Seconds) (i : Instr) (k : Nat) :
    (s.begin t i).romByte k = s.romByte k := rfl
@[simp] theorem State.begin_ramByte (s : State) (t : Seconds) (i : Instr) (k : Nat) :
    (s.begin t i).ramByte k = s.ramByte k := rfl

/-! ### `State.answer` -/

@[simp] theorem State.answer_cfg (s : State) (o : Option Block) (f : Option BusFault) :
    (s.answer o f).cfg = s.cfg := rfl
@[simp] theorem State.answer_rom (s : State) (o : Option Block) (f : Option BusFault) :
    (s.answer o f).rom = s.rom := rfl
@[simp] theorem State.answer_loaded (s : State) (o : Option Block) (f : Option BusFault) :
    (s.answer o f).loaded = s.loaded := rfl
@[simp] theorem State.answer_bank (s : State) (o : Option Block) (f : Option BusFault) :
    (s.answer o f).bank = s.bank := rfl
@[simp] theorem State.answer_ram (s : State) (o : Option Block) (f : Option BusFault) :
    (s.answer o f).ram = s.ram := rfl
@[simp] theorem State.answer_rtc (s : State) (o : Option Block) (f : Option BusFault) :
    (s.answer o f).rtc = s.rtc := rfl
@[simp] theorem State.answer_now (s : State) (o : Option Block) (f : Option BusFault) :
    (s.answer o f).now = s.now := rfl
@[simp] theorem State.answer_inbox (s : State) (o : Option Block) (f : Option BusFault) :
    (s.answer o f).inbox = s.inbox := rfl
@[simp] theorem State.answer_out (s : State) (o : Option Block) (f : Option BusFault) :
    (s.answer o f).out = o := rfl
@[simp] theorem State.answer_diag (s : State) (o : Option Block) (f : Option BusFault) :
    (s.answer o f).diag = ⟨s.diag.op, f⟩ := rfl
@[simp] theorem State.answer_saved (s : State) (o : Option Block) (f : Option BusFault) :
    (s.answer o f).saved = s.saved := rfl
@[simp] theorem State.answer_free (s : State) (o : Option Block) (f : Option BusFault) :
    (s.answer o f).free = s.free := rfl
@[simp] theorem State.answer_romByte (s : State) (o : Option Block) (f : Option BusFault) (k : Nat) :
    (s.answer o f).romByte k = s.romByte k := rfl
@[simp] theorem State.answer_ramByte (s : State) (o : Option Block) (f : Option BusFault) (k : Nat) :
    (s.answer o f).ramByte k = s.ramByte k := rfl

/-! ### `State.drawFree` -/

@[simp] theorem State.drawFree_cfg (s : State) : (s.drawFree).cfg = s.cfg := rfl
@[simp] theorem State.drawFree_rom (s : State) : (s.drawFree).rom = s.rom := rfl
@[simp] theorem State.drawFree_loaded (s : State) : (s.drawFree).loaded = s.loaded := rfl
@[simp] theorem State.drawFree_bank (s : State) : (s.drawFree).bank = s.bank := rfl
@[simp] theorem State.drawFree_ram (s : State) : (s.drawFree).ram = s.ram := rfl
@[simp] theorem State.drawFree_rtc (s : State) : (s.drawFree).rtc = s.rtc := rfl
@[simp] theorem State.drawFree_now (s : State) : (s.drawFree).now = s.now := rfl
@[simp] theorem State.drawFree_inbox (s : State) : (s.drawFree).inbox = s.inbox := rfl
@[simp] theorem State.drawFree_out (s : State) : (s.drawFree).out = s.out := rfl
@[simp] theorem State.drawFree_diag (s : State) : (s.drawFree).diag = s.diag := rfl
@[simp] theorem State.drawFree_saved (s : State) : (s.drawFree).saved = s.saved := rfl
@[simp] theorem State.drawFree_free (s : State) : (s.drawFree).free = s.free + 1 := rfl
@[simp] theorem State.drawFree_romByte (s : State) (k : Nat) :
    (s.drawFree).romByte k = s.romByte k := rfl
@[simp] theorem State.drawFree_ramByte (s : State) (k : Nat) :
    (s.drawFree).ramByte k = s.ramByte k := rfl

/-! ### `State.withInbox` -/

@[simp] theorem State.withInbox_cfg (s : State) (l : List Request) :
    (s.withInbox l).cfg = s.cfg := rfl
@[simp] theorem State.withInbox_rom (s : State) (l : List Request) :
    (s.withInbox l).rom = s.rom := rfl
@[simp] theorem State.withInbox_loaded (s : State) (l : List Request) :
    (s.withInbox l).loaded = s.loaded := rfl
@[simp] theorem State.withInbox_bank (s : State) (l : List Request) :
    (s.withInbox l).bank = s.bank := rfl
@[simp] theorem State.withInbox_ram (s : State) (l : List Request) :
    (s.withInbox l).ram = s.ram := rfl
@[simp] theorem State.withInbox_rtc (s : State) (l : List Request) :
    (s.withInbox l).rtc = s.rtc := rfl
@[simp] theorem State.withInbox_now (s : State) (l : List Request) :
    (s.withInbox l).now = s.now := rfl
@[simp] theorem State.withInbox_inbox (s : State) (l : List Request) :
    (s.withInbox l).inbox = l := rfl
@[simp] theorem State.withInbox_out (s : State) (l : List Request) :
    (s.withInbox l).out = s.out := rfl
@[simp] theorem State.withInbox_diag (s : State) (l : List Request) :
    (s.withInbox l).diag = s.diag := rfl
@[simp] theorem State.withInbox_saved (s : State) (l : List Request) :
    (s.withInbox l).saved = s.saved := rfl
@[simp] theorem State.withInbox_free (s : State) (l : List Request) :
    (s.withInbox l).free = s.free := rfl
@[simp] theorem State.withInbox_romByte (s : State) (l : List Request) (k : Nat) :
    (s.withInbox l).romByte k = s.romByte k := rfl
@[simp] theorem State.withInbox_ramByte (s : State) (l : List Request) (k : Nat) :
    (s.withInbox l).ramByte k = s.ramByte k := rfl

end Sys2Proof.Machine
end

