-- ==== Sys2Proof/Laws/Memory.lean ====
section
/-! SUPPORT. Byte arrays: what a read gives after a write, and that every operation keeps the canonical
form. -/

namespace Sys2Proof.Machine

variable {blank : Nat → Byte} {m n : Memory} {a k off : Nat} {b : Byte}

/-! ### Reading -/

@[simp] theorem Memory.read_nil : Memory.read blank [] k = blank k := rfl

theorem Memory.read_cons (c : Host.Cell) :
    Memory.read blank (c :: m) k = if k = c.1 then c.2 else Memory.read blank m k := rfl

/-- An index below every listed one reads as unlisted. -/
theorem Memory.read_of_all_above (h : ∀ c ∈ m, k < c.1) : Memory.read blank m k = blank k := by
  induction m with
  | nil => rfl
  | cons c m ih =>
    have hc := h c (by simp)
    rw [Memory.read_cons, if_neg (by omega), ih fun d hd => h d (by simp [hd])]

/-- A listed byte reads as it is listed. -/
theorem Memory.read_of_mem (hm : m.Pairwise fun c d => c.1 < d.1) {c : Host.Cell} (hc : c ∈ m) :
    Memory.read blank m c.1 = c.2 := by
  induction m with
  | nil => simp at hc
  | cons d m ih =>
    rw [List.pairwise_cons] at hm
    rcases List.mem_cons.1 hc with rfl | hc
    · simp [Memory.read_cons]
    · have := hm.1 c hc
      rw [Memory.read_cons, if_neg (by omega), ih hm.2 hc]

/-- An index that is not listed reads as unlisted. -/
theorem Memory.read_of_not_mem (h : ∀ c ∈ m, c.1 ≠ k) : Memory.read blank m k = blank k := by
  induction m with
  | nil => rfl
  | cons c m ih =>
    rw [Memory.read_cons, if_neg fun e => h c (by simp) e.symm, ih fun d hd => h d (by simp [hd])]

/-! ### One byte written -/

theorem Memory.read_write (hm : m.Pairwise fun c d => c.1 < d.1) :
    Memory.read blank (Memory.write blank m a b) k =
      if k = a then b else Memory.read blank m k := by
  induction m with
  | nil =>
    by_cases hb : b = blank a <;> by_cases hk : k = a <;>
      simp [Memory.write, hb, hk, Memory.read_cons]
  | cons c m ih =>
    obtain ⟨j, v⟩ := c
    rw [List.pairwise_cons] at hm
    have above : ∀ c ∈ m, j < c.1 := hm.1
    rw [Memory.write]
    split
    · rename_i hj
      rw [Memory.read_cons, Memory.read_cons, ih hm.2]
      by_cases hk : k = j
      · rw [if_pos hk, if_pos hk, if_neg (by omega)]
      · rw [if_neg hk, if_neg hk]
    · rename_i hj
      by_cases hja : j = a
      · subst hja
        by_cases hb : b = blank j <;> by_cases hk : k = j <;>
          simp [hb, hk, Memory.read_cons, Memory.read_of_all_above above]
      · have low : ∀ c ∈ (j, v) :: m, a < c.1 := by
          intro c hc
          rcases List.mem_cons.1 hc with rfl | hc
          · simp only; omega
          · have := above c hc; omega
        by_cases hb : b = blank a
        · by_cases hk : k = a
          · simp [hb, hja, hk, Memory.read_of_all_above low]
          · simp [hb, hja, hk]
        · by_cases hk : k = a
          · simp [hb, hja, hk, Memory.read_cons]
          · simp [hb, hja, hk, Memory.read_cons]

/-- Every cell after a write is the written one or one that was there. -/
theorem Memory.mem_write {c : Host.Cell} (h : c ∈ Memory.write blank m a b) :
    (c = (a, b) ∧ b ≠ blank a) ∨ c ∈ m := by
  induction m with
  | nil =>
    by_cases hb : b = blank a
    · simp [Memory.write, hb] at h
    · simp only [Memory.write, hb, if_false, List.mem_singleton] at h
      exact .inl ⟨h, hb⟩
  | cons d m ih =>
    obtain ⟨j, v⟩ := d
    rw [Memory.write] at h
    split at h
    · rcases List.mem_cons.1 h with rfl | h
      · simp
      · rcases ih h with h | h
        · exact .inl h
        · exact .inr (by simp [h])
    · by_cases hb : b = blank a <;> by_cases hj : j = a <;>
        simp only [hb, hj, if_true, if_false, List.mem_cons] at h ⊢ <;> tauto

theorem Memory.write_wf (hm : Memory.wf blank m) : Memory.wf blank (Memory.write blank m a b) := by
  refine ⟨?_, fun c hc => ?_⟩
  · obtain ⟨hm, -⟩ := hm
    induction m with
    | nil => by_cases hb : b = blank a <;> simp [Memory.write, hb]
    | cons d m ih =>
      obtain ⟨j, v⟩ := d
      rw [List.pairwise_cons] at hm
      rw [Memory.write]
      split
      · rename_i hj
        rw [List.pairwise_cons]
        refine ⟨fun c hc => ?_, ih hm.2⟩
        rcases Memory.mem_write hc with ⟨rfl, -⟩ | hc
        · exact hj
        · exact hm.1 c hc
      · rename_i hj
        have rest : ((if j = a then m else (j, v) :: m).Pairwise fun c d => c.1 < d.1) ∧
            ∀ c ∈ (if j = a then m else (j, v) :: m), a < c.1 := by
          by_cases hja : j = a
          · subst hja
            simpa using ⟨hm.2, fun x y hc => hm.1 (x, y) hc⟩
          · simp only [hja, if_false]
            refine ⟨List.pairwise_cons.2 hm, fun c hc => ?_⟩
            rcases List.mem_cons.1 hc with rfl | hc
            · simp only; omega
            · have := hm.1 c hc; simp only at this; omega
        by_cases hb : b = blank a
        · simpa only [hb, if_true] using rest.1
        · simp only [hb, if_false]
          exact List.pairwise_cons.2 ⟨rest.2, rest.1⟩
  · rcases Memory.mem_write hc with ⟨rfl, hb⟩ | hc
    · exact hb
    · exact hm.2 c hc

/-! ### Bytes written from an index upwards -/

theorem Memory.writeBytes_wf {bs : List Byte} (hm : Memory.wf blank m) :
    Memory.wf blank (Memory.writeBytes blank m a bs) := by
  induction bs generalizing m a with
  | nil => exact hm
  | cons b bs ih => exact ih (Memory.write_wf hm)

theorem Memory.read_writeBytes {bs : List Byte} (hm : Memory.wf blank m) :
    Memory.read blank (Memory.writeBytes blank m a bs) k =
      if h : a ≤ k ∧ k < a + bs.length then bs[k - a] else Memory.read blank m k := by
  induction bs generalizing m a with
  | nil => rw [dif_neg (by simp only [List.length_nil]; omega)]; rfl
  | cons b bs ih =>
    rw [Memory.writeBytes, ih (Memory.write_wf hm), Memory.read_write hm.1]
    by_cases h : a + 1 ≤ k ∧ k < a + 1 + bs.length
    · have : k - a = (k - (a + 1)) + 1 := by omega
      rw [dif_pos h, dif_pos (by simp; omega)]
      simp [this]
    · rw [dif_neg h]
      by_cases hk : k = a
      · subst hk; simp
      · rw [if_neg hk, dif_neg (by simp; omega)]

/-- Every cell after bytes are written lies in their range or was there. -/
theorem Memory.mem_writeBytes {bs : List Byte} {c : Host.Cell}
    (h : c ∈ Memory.writeBytes blank m a bs) : (a ≤ c.1 ∧ c.1 < a + bs.length) ∨ c ∈ m := by
  induction bs generalizing m a with
  | nil => exact .inr h
  | cons b bs ih =>
    rcases ih h with h | h
    · exact .inl (by simp; omega)
    · rcases Memory.mem_write h with ⟨rfl, -⟩ | h
      · exact .inl (by simp)
      · exact .inr h

/-! ### An array built from a list of bytes -/

theorem Memory.mem_ofBytes {bs : List Byte} {c : Host.Cell} (h : c ∈ Memory.ofBytes blank a bs) :
    a ≤ c.1 ∧ c.1 < a + bs.length ∧ c.2 ≠ blank c.1 := by
  induction bs generalizing a with
  | nil => simp [Memory.ofBytes] at h
  | cons b bs ih =>
    rw [Memory.ofBytes] at h
    have tail (h : c ∈ Memory.ofBytes blank (a + 1) bs) :
        a ≤ c.1 ∧ c.1 < a + (b :: bs).length ∧ c.2 ≠ blank c.1 := by
      obtain ⟨h1, h2, h3⟩ := ih h
      exact ⟨by omega, by simp; omega, h3⟩
    by_cases hb : b = blank a
    · rw [if_pos hb] at h; exact tail h
    · rw [if_neg hb] at h
      rcases List.mem_cons.1 h with rfl | h
      · exact ⟨le_refl _, by simp, hb⟩
      · exact tail h

theorem Memory.ofBytes_wf {bs : List Byte} : Memory.wf blank (Memory.ofBytes blank a bs) := by
  refine ⟨?_, fun c hc => (Memory.mem_ofBytes hc).2.2⟩
  induction bs generalizing a with
  | nil => exact List.Pairwise.nil
  | cons b bs ih =>
    rw [Memory.ofBytes]
    by_cases hb : b = blank a
    · rw [if_pos hb]; exact ih
    · rw [if_neg hb]
      exact List.pairwise_cons.2 ⟨fun c hc => (Memory.mem_ofBytes hc).1, ih⟩

theorem Memory.read_ofBytes {bs : List Byte} :
    Memory.read blank (Memory.ofBytes blank a bs) k =
      if h : a ≤ k ∧ k < a + bs.length then bs[k - a] else blank k := by
  induction bs generalizing a with
  | nil => rw [dif_neg (by simp only [List.length_nil]; omega)]; rfl
  | cons b bs ih =>
    have head : Memory.read blank (Memory.ofBytes blank a (b :: bs)) k =
        if k = a then b else Memory.read blank (Memory.ofBytes blank (a + 1) bs) k := by
      rw [Memory.ofBytes]
      by_cases hb : b = blank a
      · by_cases hk : k = a
        · subst hk
          rw [if_pos hb, if_pos rfl, hb, Memory.read_of_all_above]
          exact fun c hc => (Memory.mem_ofBytes hc).1
        · rw [if_pos hb, if_neg hk]
      · rw [if_neg hb]; rfl
    rw [head, ih]
    by_cases h : a + 1 ≤ k ∧ k < a + 1 + bs.length
    · have : k - a = (k - (a + 1)) + 1 := by omega
      rw [if_neg (by omega), dif_pos h, dif_pos (by simp; omega)]
      simp [this]
    · by_cases hk : k = a
      · subst hk; simp
      · rw [if_neg hk, dif_neg h, dif_neg (by simp; omega)]

/-! ### Equal reads, equal arrays -/

/-- Two arrays in canonical form that read alike are the same data. -/
theorem Memory.eq_of_read_eq (hm : Memory.wf blank m) (hn : Memory.wf blank n)
    (h : ∀ k, Memory.read blank m k = Memory.read blank n k) : m = n := by
  have sub : ∀ {m n : Memory}, Memory.wf blank m → Memory.wf blank n →
      (∀ k, Memory.read blank m k = Memory.read blank n k) → ∀ c ∈ m, c ∈ n := by
    intro m n hm hn h c hc
    by_contra hcn
    by_cases hx : ∃ d ∈ n, d.1 = c.1
    · obtain ⟨d, hd, e⟩ := hx
      have h1 := Memory.read_of_mem (blank := blank) hm.1 hc
      have h2 := Memory.read_of_mem (blank := blank) hn.1 hd
      rw [e, ← h, h1] at h2
      exact hcn (Prod.ext e h2.symm ▸ hd)
    · push Not at hx
      have h1 := Memory.read_of_mem (blank := blank) hm.1 hc
      rw [h, Memory.read_of_not_mem hx] at h1
      exact hm.2 c hc h1.symm
  have perm : m.Perm n := by
    refine (List.perm_ext_iff_of_nodup ?_ ?_).2 fun c => ⟨sub hm hn h c, sub hn hm (fun k => (h k).symm) c⟩
    · exact hm.1.imp fun h e => by subst e; omega
    · exact hn.1.imp fun h e => by subst e; omega
  exact perm.eq_of_pairwise (fun a b _ _ h1 h2 => absurd h1 (by omega)) hm.1 hn.1

/-! ### Blocks -/

@[simp] theorem Memory.getElem_readBlock (h : k < 32) :
    (Memory.readBlock blank m off)[k] = Memory.read blank m (off + k) := by
  simp [Memory.readBlock]

@[simp] theorem State.getElem_romBlock (s : State) (h : k < 32) :
    (s.romBlock off)[k] = s.romByte (off + k) := Memory.getElem_readBlock h

@[simp] theorem State.getElem_ramBlock (s : State) (h : k < 32) :
    (s.ramBlock off)[k] = s.ramByte (off + k) := Memory.getElem_readBlock h

@[simp] theorem Block.getElem_zero (h : k < 32) : Block.zero[k] = 0x00#8 := by
  simp [Block.zero, Block.bcast]

@[simp] theorem Block.getElem_bcast (h : k < 32) : (Block.bcast b)[k] = b := by
  simp [Block.bcast]

/-- What a byte of `RAM` reads as after a block is stored. -/
theorem State.storeRam_ramByte (s : State) (d : Block) (hm : Memory.wf ramBlank s.ram) :
    (s.storeRam off d).ramByte k =
      if h : off ≤ k ∧ k < off + 32 then d[k - off]'(by omega) else s.ramByte k := by
  have := Memory.read_writeBytes (a := off) (k := k) (bs := d.toList) hm
  simp only [Vector.length_toList] at this
  simpa [State.ramByte, State.storeRam] using this

end Sys2Proof.Machine
end

