-- ==== Sys2Proof/Laws/Ops.lean ====
section
/-! SUPPORT. What each shared operation can do, said once: what it answers, what the transaction
returned, and what is left alone. -/

namespace Sys2Proof.Machine

variable {s t : State} {addr : Addr} {data : Block} {f : BusFault} {off : Nat}

theorem Result.next_inj {s t : State} :
    (Host.Outcome.next s : Result) = .next t ↔ s = t := ⟨fun h => by injection h, congrArg _⟩

/-! ### What the frames contain -/

theorem State.SameCartridge.refl (s : State) : s.SameCartridge s :=
  ⟨rfl, fun _ => rfl, rfl, rfl, rfl, rfl, rfl⟩

theorem State.SameCartridge.trans {u : State} (h : s.SameCartridge t) (h' : t.SameCartridge u) :
    s.SameCartridge u :=
  ⟨h'.cfg.trans h.cfg, fun k => (h'.rom k).trans (h.rom k), h'.loaded.trans h.loaded,
    h'.now.trans h.now, h'.inbox.trans h.inbox, h'.saved.trans h.saved, h'.op.trans h.op⟩

/-- Ending a transaction changes the outputs alone. -/
theorem State.answer_sameDevice (s : State) (o : Option Block) (g : Option BusFault) :
    s.SameDevice (s.answer o g) :=
  ⟨⟨rfl, fun _ => rfl, rfl, rfl, rfl, rfl, rfl⟩, rfl, fun _ => rfl, rfl, rfl⟩

/-! ### Ends of a transaction -/

theorem returnBlock_spec (b : Block) (s : State) :
    ∃ t, returnBlock b s = .next t ∧ t.Returned (fun k => b.toList.getD k 0#8) ∧ s.SameDevice t :=
  ⟨_, rfl, ⟨rfl, b, rfl, fun k h => by
    have h' : k < b.toList.length := by simpa using h
    simp [List.getD_eq_getElem?_getD, h]⟩, s.answer_sameDevice _ _⟩

theorem returnBlock_of (b : Block) (s : State) {g : Nat → Byte} (h : ∀ k (h : k < 32), b[k] = g k) :
    ∃ t, returnBlock b s = .next t ∧ t.Returned g ∧ s.SameDevice t :=
  ⟨_, rfl, ⟨rfl, b, rfl, h⟩, s.answer_sameDevice _ _⟩

theorem completeWrite_spec (s : State) :
    ∃ t, completeWrite s = .next t ∧ t.Wrote ∧ s.SameDevice t :=
  ⟨_, rfl, ⟨rfl, rfl⟩, s.answer_sameDevice _ _⟩

theorem degradeRead_spec (f : BusFault) (s : State) :
    ∃ t, degradeRead f s = .next t ∧ t.Zeroed f ∧ s.SameDevice t :=
  ⟨_, rfl, ⟨rfl, Block.zero, rfl, fun _ h => Block.getElem_zero h⟩, s.answer_sameDevice _ _⟩

theorem degradeWrite_spec (f : BusFault) (s : State) :
    ∃ t, degradeWrite f s = .next t ∧ t.Ignored f ∧ s.SameDevice t :=
  ⟨_, rfl, ⟨rfl, rfl⟩, s.answer_sameDevice _ _⟩

/-- A read of an invalid window returns some block, draws one block of free values and changes nothing else. -/
theorem readInvalid_spec (s : State) :
    ∃ t, readInvalid s = .next t ∧ t.out.isSome = true ∧ t.diag.fault = .some .invalidWindow ∧
      t.free = s.free + 1 ∧ s.SameCartridge t ∧ t.bank = s.bank ∧ (∀ k, t.ramByte k = s.ramByte k) ∧
      t.rtc = s.rtc :=
  ⟨_, rfl, rfl, rfl, rfl, ⟨rfl, fun _ => rfl, rfl, rfl, rfl, rfl, rfl⟩, rfl, fun _ => rfl, rfl⟩

theorem writeInvalid_spec (s : State) :
    ∃ t, writeInvalid s = .next t ∧ t.Ignored .invalidWindow ∧ s.SameDevice t := degradeWrite_spec _ s

/-! ### Accesses -/

theorem readFixedRom_spec (addr : Addr) (s : State) :
    ∃ t, readFixedRom addr s = .next t ∧ t.Returned (fun k => s.romByte (addr.toNat + k)) ∧
      s.SameDevice t :=
  returnBlock_of _ s fun _ h => State.getElem_romBlock s h

theorem readRomAt_at (off : Nat) (s : State) :
    ∃ t, readRomAt (.at off) s = .next t ∧ t.Returned (fun k => s.romByte (off + k)) ∧
      s.SameDevice t :=
  returnBlock_of _ s fun _ h => State.getElem_romBlock s h

theorem readRamAt_at (off : Nat) (s : State) :
    ∃ t, readRamAt (.at off) s = .next t ∧ t.Returned (fun k => s.ramByte (off + k)) ∧
      s.SameDevice t :=
  returnBlock_of _ s fun _ h => State.getElem_ramBlock s h

theorem readRomAt_fault (f : BusFault) (s : State) :
    ∃ t, readRomAt (.fault f) s = .next t ∧ t.Zeroed f ∧ s.SameDevice t := degradeRead_spec f s

theorem readRamAt_fault (f : BusFault) (s : State) :
    ∃ t, readRamAt (.fault f) s = .next t ∧ t.Zeroed f ∧ s.SameDevice t := degradeRead_spec f s

theorem writeRamAt_at (off : Nat) (data : Block) (s : State) (hm : Memory.wf ramBlank s.ram) :
    ∃ t, writeRamAt (.at off) data s = .next t ∧ t.Wrote ∧ s.Stored t off data := by
  refine ⟨_, rfl, ⟨rfl, rfl⟩, ⟨⟨rfl, fun _ => rfl, rfl, rfl, rfl, rfl, rfl⟩, rfl, rfl, rfl,
    fun k h => ?_, fun k h => ?_⟩⟩
  · rw [State.answer_ramByte, State.storeRam_ramByte s data hm, dif_pos (by omega)]
    congr 1
    omega
  · rw [State.answer_ramByte, State.storeRam_ramByte s data hm, dif_neg (by omega)]

theorem writeRamAt_fault (f : BusFault) (data : Block) (s : State) :
    ∃ t, writeRamAt (.fault f) data s = .next t ∧ t.Ignored f ∧ s.SameDevice t := degradeWrite_spec f s

/-- A register port changes the bank registers, as its function says, and nothing else. -/
theorem writePort_spec (g : BankRegs → BankRegs) (s : State) :
    ∃ t, writePort g s = .next t ∧ t.Wrote ∧ t.bank = g s.bank ∧ s.SameButBank t :=
  ⟨_, rfl, ⟨rfl, rfl⟩, rfl, ⟨rfl, fun _ => rfl, rfl, rfl, rfl, rfl, rfl⟩, fun _ => rfl, rfl, rfl⟩

/-! ### Translations -/

theorem romTarget_valid (h : s.bank.romBank.toNat < s.cfg.romBanks) :
    romTarget addr s = .at (bankedRomOffset s.bank.romBank addr) := if_neg (by omega)

theorem romTarget_range (h : s.cfg.romBanks ≤ s.bank.romBank.toNat) :
    romTarget addr s = .fault .romBankRange := if_pos h

theorem ramTarget_valid (hp : s.cfg.ramPresent = true) (h : s.bank.ramBank.toNat < s.cfg.ramBanks) :
    ramTarget addr s = .at (bankedRamOffset s.bank.ramBank addr) := by
  simp [ramTarget, hp]; omega

theorem ramTarget_absent (hp : s.cfg.ramPresent = false) :
    ramTarget addr s = .fault .ramAbsent := by simp [ramTarget, hp]

theorem ramTarget_range (hp : s.cfg.ramPresent = true) (h : s.cfg.ramBanks ≤ s.bank.ramBank.toNat) :
    ramTarget addr s = .fault .ramBankRange := by simp [ramTarget, hp, h]

theorem gatedRamTarget_enabled (h : s.bank.ramEn = true) :
    gatedRamTarget addr s = ramTarget addr s := by
  cases hp : s.cfg.ramPresent <;> simp [gatedRamTarget, ramTarget, hp, h]

theorem gatedRamTarget_disabled (hp : s.cfg.ramPresent = true) (h : s.bank.ramEn = false) :
    gatedRamTarget addr s = .fault .ramDisabled := by simp [gatedRamTarget, hp, h]

theorem gatedRamTarget_absent (hp : s.cfg.ramPresent = false) :
    gatedRamTarget addr s = .fault .ramAbsent := by simp [gatedRamTarget, hp]

theorem flatRamTarget_valid (hp : s.cfg.ramPresent = true)
    (h : s.cfg.quarterSized = true → addr.toNat ≤ 0xA7FF) :
    flatRamTarget addr s = .at (flatRamOffset addr) := by
  simp only [flatRamTarget, hp]
  by_cases hq : s.cfg.quarterSized = true
  · have := h hq; simp [hq]; omega
  · simp [hq]

theorem flatRamTarget_absent (hp : s.cfg.ramPresent = false) :
    flatRamTarget addr s = .fault .ramAbsent := by simp [flatRamTarget, hp]

theorem flatRamTarget_range (hp : s.cfg.ramPresent = true) (hq : s.cfg.quarterSized = true)
    (h : 0xA7FF < addr.toNat) : flatRamTarget addr s = .fault .ramRange := by
  simp [flatRamTarget, hp, hq, h]

/-- Present RAM has at least one bank. -/
theorem ramPresent_iff : s.cfg.ramPresent = true ↔ s.cfg.hasRam = true ∧ 1 ≤ s.cfg.ramBanks := by
  simp [Cfg.ramPresent]

/-! ### What a target says -/

theorem romTarget_eq_at : romTarget addr s = .at off ↔
    s.bank.romBank.toNat < s.cfg.romBanks ∧ off = bankedRomOffset s.bank.romBank addr := by
  unfold romTarget
  split <;> simp_all
  exact eq_comm

theorem ramTarget_eq_at : ramTarget addr s = .at off ↔
    s.cfg.ramPresent = true ∧ s.bank.ramBank.toNat < s.cfg.ramBanks ∧
      off = bankedRamOffset s.bank.ramBank addr := by
  unfold ramTarget
  split <;> [skip; split] <;> simp_all
  exact eq_comm

theorem gatedRamTarget_eq_at : gatedRamTarget addr s = .at off ↔
    s.bank.ramEn = true ∧ ramTarget addr s = .at off := by
  unfold gatedRamTarget
  split <;> [skip; split] <;> simp_all [ramTarget_absent]

theorem flatRamTarget_eq_at : flatRamTarget addr s = .at off ↔
    s.cfg.ramPresent = true ∧ (s.cfg.quarterSized = true → addr.toNat ≤ 0xA7FF) ∧
      off = flatRamOffset addr := by
  unfold flatRamTarget
  split <;> [skip; split] <;> simp_all
  exact eq_comm

theorem bankedRamOffset_eq (b : BitVec 4) (a : Addr) :
    bankedRamOffset b a = a.toNat - 0xA000 + b.toNat * 0x2000 := by
  simp [bankedRamOffset, Nat.shiftLeft_eq]

theorem flatRamOffset_eq (h : 0xA000 ≤ addr.toNat) : flatRamOffset addr = addr.toNat - 0xA000 := by
  have := addr.isLt
  rw [flatRamOffset, BitVec.toNat_sub]
  generalize addr.toNat = n at *
  simp only [BitVec.toNat_ofNat]
  omega

/-- A block at a RAM target is inside the array (R68, R69). -/
theorem ramTarget_inside (h32 : addr.toNat % 32 = 0) (hlo : 0xA000 ≤ addr.toNat) (hhi : addr.toNat ≤ 0xBFFF)
    (h : ramTarget addr s = .at off ∨ gatedRamTarget addr s = .at off ∨ flatRamTarget addr s = .at off) :
    s.cfg.ramPresent = true ∧ off + 31 < s.cfg.ramBytes := by
  have hr : ramTarget addr s = .at off → s.cfg.ramPresent = true ∧ off + 31 < s.cfg.ramBytes := by
    intro h
    obtain ⟨hp, hb, rfl⟩ := ramTarget_eq_at.1 h
    refine ⟨hp, ?_⟩
    rw [bankedRamOffset_eq, Cfg.ramBytes]
    generalize addr.toNat = n at *
    omega
  rcases h with h | h | h
  · exact hr h
  · exact hr (gatedRamTarget_eq_at.1 h).2
  · obtain ⟨hp, -, rfl⟩ := flatRamTarget_eq_at.1 h
    have := (ramPresent_iff.1 hp).2
    refine ⟨hp, ?_⟩
    rw [flatRamOffset_eq hlo, Cfg.ramBytes]
    generalize addr.toNat = n at *
    omega

end Sys2Proof.Machine
end

