-- ==== Sys2Proof/Laws/Rtc.lean ====
section
/-! SUPPORT. The clock: what a tick leaves in each register, as numbers, and what each of the five
operations answers. -/

namespace Sys2Proof.Machine

variable {s : State} {r r' : Rtc} {now : Seconds} {d : Nat}

/-! ### The control byte -/

theorem dayBit8_lt (c : Byte) : (dayBit8 c).toNat < 2 := by cases dayBit8 c <;> simp

theorem dayCounter_lt (r : RtcRegs) : dayCounter r < 512 := by
  have := dayBit8_lt r.ctl
  have := r.dayLow.isLt
  simp only [dayCounter]
  omega

/-- The control byte of a tick, by whether the day count overflows and by its bit 8. -/
theorem tickCtl_cases (c : Byte) (dd : Nat) :
    ∃ o q : Bool, o = decide (511 < dd) ∧ q.toNat = dd % 512 / 256 ∧
      tickCtl c dd = ((bif o then c ||| 0x80#8 else c) &&& 0xFE#8) ||| (bif q then 1#8 else 0#8) := by
  refine ⟨decide (511 < dd), decide (dd % 512 / 256 = 1), rfl, ?_, ?_⟩
  · by_cases h : dd % 512 / 256 = 1
    · simp [h]
    · simp only [h, decide_false, Bool.toNat_false]; omega
  · have h : dd % 512 / 256 = 0 ∨ dd % 512 / 256 = 1 := by omega
    unfold tickCtl
    by_cases hd : 511 < dd <;> rcases h with h | h <;> simp [hd, h]

theorem tickCtl_dayBit8 (c : Byte) (dd : Nat) : (dayBit8 (tickCtl c dd)).toNat = dd % 512 / 256 := by
  obtain ⟨o, q, -, hq, e⟩ := tickCtl_cases c dd
  rw [← hq, e]
  clear hq e
  revert c o q; decide

theorem tickCtl_dayCarry (c : Byte) (dd : Nat) :
    dayCarry (tickCtl c dd) = (dayCarry c || decide (511 < dd)) := by
  obtain ⟨o, q, ho, -, e⟩ := tickCtl_cases c dd
  rw [← ho, e]
  clear ho e
  revert c o q; decide

theorem tickCtl_middle (c : Byte) (dd : Nat) :
    (tickCtl c dd).extractLsb' 1 6 = c.extractLsb' 1 6 := by
  obtain ⟨o, q, -, -, e⟩ := tickCtl_cases c dd
  rw [e]
  clear e
  revert c o q; decide

/-! ### What time an advance leaves -/

theorem advance_seconds (r : RtcRegs) (d : Nat) :
    (advance r d).seconds.toNat = (r.seconds.toNat + d) % 60 := by
  simp only [advance, BitVec.toNat_ofNat]; omega

theorem advance_minutes (r : RtcRegs) (d : Nat) :
    (advance r d).minutes.toNat = (r.minutes.toNat + (r.seconds.toNat + d) / 60) % 60 := by
  simp only [advance, BitVec.toNat_ofNat]; omega

theorem advance_hours (r : RtcRegs) (d : Nat) :
    (advance r d).hours.toNat =
      (r.hours.toNat + (r.minutes.toNat + (r.seconds.toNat + d) / 60) / 60) % 24 := by
  simp only [advance, BitVec.toNat_ofNat]; omega

/-- The day count of an advance before it is reduced to 9 bits (R266's `dd`). -/
theorem advance_dd (r : RtcRegs) (d : Nat) :
    dayCounter r + (r.hours.toNat + (r.minutes.toNat + (r.seconds.toNat + d) / 60) / 60) / 24 =
      (r.total + d) / 86400 := by
  simp only [RtcRegs.total]; omega

theorem advance_ctl (r : RtcRegs) (d : Nat) :
    (advance r d).ctl = tickCtl r.ctl ((r.total + d) / 86400) := by
  rw [← advance_dd]; rfl

theorem advance_dayCounter (r : RtcRegs) (d : Nat) :
    dayCounter (advance r d) = (r.total + d) / 86400 % 512 := by
  have h : (advance r d).dayLow.toNat = (r.total + d) / 86400 % 512 % 256 := by
    rw [← advance_dd]; simp only [advance, BitVec.toNat_ofNat]; omega
  rw [dayCounter, h, advance_ctl, tickCtl_dayBit8]
  omega

theorem advance_dayCarry (r : RtcRegs) (d : Nat) :
    dayCarry (advance r d).ctl = (dayCarry r.ctl || decide (511 < (r.total + d) / 86400)) := by
  rw [advance_ctl, tickCtl_dayCarry]

/-! ### The operations -/

theorem tick_eq_some : tick now r = .some r' ↔
    r.last.toNat ≤ now.toNat ∧
      r' = { r with live := advance r.live (now.toNat - r.last.toNat), last := now } := by
  unfold tick
  by_cases h : now.toNat < r.last.toNat
  · simp [h]
  · rw [if_neg h]
    constructor
    · intro e; injection e with e; exact ⟨by omega, e.symm⟩
    · rintro ⟨-, rfl⟩; rfl

theorem tick_eq_none : tick now r = .none ↔ now.toNat < r.last.toNat := by
  unfold tick
  by_cases h : now.toNat < r.last.toNat <;> simp [h]

theorem tick_of_le (h : r.last.toNat ≤ now.toNat) : tick now r =
    .some { r with live := advance r.live (now.toNat - r.last.toNat), last := now } :=
  tick_eq_some.2 ⟨h, rfl⟩

theorem withTick_some {k : Rtc → Result} (h : tick s.now s.rtc = .some r) : withTick s k = k r := by
  simp [withTick, h]

theorem withTick_none {k : Rtc → Result} (h : tick s.now s.rtc = .none) :
    withTick s k = .refused .clockBackwards := by simp [withTick, h]

end Sys2Proof.Machine
end

