-- ==== Sys2Proof/Laws/Exec.lean ====
section
/-! SUPPORT. What a transaction can do, said once for all of them: the kinds of change it can make, and when
it makes none because the clock is refused. -/

namespace Sys2Proof.Machine

variable {s t : State} {i : Instr} {addr : Addr}

/-! ### The RTC window -/

theorem RtcReg.ofBank_eq_none (b : BitVec 4) : RtcReg.ofBank b = .none ↔ ¬ (8 ≤ b.toNat ∧ b.toNat ≤ 12) := by
  revert b; decide

theorem rtcSelected_eq_none : rtcSelected s = .none ↔ ¬ s.RtcWindow := by
  unfold rtcSelected State.RtcWindow
  cases s.cfg.hasTimer <;> simp [RtcReg.ofBank_eq_none]

theorem rtcSelected_window {k : RtcReg} (h : rtcSelected s = .some k) : s.RtcWindow := by
  by_contra hn
  rw [rtcSelected_eq_none.2 hn] at h
  cases h

theorem rtcSelected_of_window (h : s.RtcWindow) : rtcSelected s = RtcReg.ofBank s.bank.ramBank :=
  if_pos h.1

theorem lowBit_iff (d : Byte) : lowBit d = true ↔ d.toNat % 2 = 1 := by revert d; decide

/-! ### The ports keep the bank registers legal -/

theorem enablePort_legal {c : Cfg} {b : BankRegs} (d : Byte) (hm : c.mapper ≠ .none) (h : b.Legal c) :
    (enablePort d b).Legal c := by
  unfold BankRegs.Legal at h ⊢
  cases hc : c.mapper <;> simp_all [enablePort]

/-- R155 on a legal `rom_bank`. -/
theorem zeroCorrect_low5 : ∀ (b : BitVec 9) (v : BitVec 5), (zeroCorrect (withRomLow5 b v)).toNat =
    b.toNat / 32 * 32 + if v.toNat = 0 then 1 else v.toNat := by decide +kernel

theorem withRomMagic_toNat : ∀ (b : BitVec 9) (v : BitVec 2),
    (withRomMagic b v).toNat = b.toNat / 128 * 128 + v.toNat * 32 + b.toNat % 32 := by decide +kernel

/-- R157, in numbers. -/
theorem modePort_spec (m : Bool) (b : BankRegs) :
    (modePort m b).ramEn = b.ramEn ∧ (modePort m b).mode = m ∧
    (m = b.mode → modePort m b = b) ∧
    (b.mode = false → m = true →
      (modePort m b).ramBank.toNat = b.romBank.toNat / 32 % 4 ∧
      (modePort m b).romBank.toNat = b.romBank.toNat / 128 * 128 + b.romBank.toNat % 32) ∧
    (b.mode = true → m = false →
      (modePort m b).ramBank = 0#4 ∧
      (modePort m b).romBank.toNat =
        b.romBank.toNat / 128 * 128 + b.ramBank.toNat % 4 * 32 + b.romBank.toNat % 32) := by
  obtain ⟨rb, sb, e, mo⟩ := b
  cases m <;> cases mo <;>
    simp [modePort, withRomMagic_toNat, romMagic, ramMagic, BitVec.extractLsb'_toNat,
      Nat.shiftRight_eq_div_pow]
  omega

theorem legal_mbc1 {c : Cfg} {b : BankRegs} (hm : c.mapper = .mbc1) : b.Legal c ↔
    b.romBank.toNat < 128 ∧ b.romBank.toNat % 32 ≠ 0 ∧ b.ramBank.toNat ≤ 3 ∧
      (b.mode = true → b.romBank.toNat < 32) ∧ (b.mode = false → b.ramBank = 0#4) := by
  simp [BankRegs.Legal, hm]

theorem mbc1WrRomb_legal {c : Cfg} {b : BankRegs} (v : BitVec 5) (hm : c.mapper = .mbc1) (h : b.Legal c) :
    BankRegs.Legal c { b with romBank := zeroCorrect (withRomLow5 b.romBank v) } := by
  rw [legal_mbc1 hm] at h ⊢
  obtain ⟨h1, h2, h3, h4, h5⟩ := h
  have := v.isLt
  simp only [zeroCorrect_low5]
  refine ⟨?_, ?_, h3, fun e => ?_, h5⟩
  · split <;> omega
  · split <;> omega
  · have := h4 e
    split <;> omega

theorem mbc1WrBank2_legal {c : Cfg} {b : BankRegs} (v : BitVec 2) (hm : c.mapper = .mbc1) (h : b.Legal c) :
    BankRegs.Legal c (if b.mode then { b with ramBank := v.setWidth 4 }
      else { b with romBank := withRomMagic b.romBank v }) := by
  rw [legal_mbc1 hm] at h ⊢
  obtain ⟨h1, h2, h3, h4, h5⟩ := h
  have := v.isLt
  cases hb : b.mode
  · simp [withRomMagic_toNat, h5 hb]; omega
  · simp [h2, h4 hb]; omega

theorem modePort_legal {c : Cfg} {b : BankRegs} (m : Bool) (hm : c.mapper = .mbc1) (h : b.Legal c) :
    (modePort m b).Legal c := by
  have hs := modePort_spec m b
  rw [legal_mbc1 hm] at h ⊢
  obtain ⟨-, s2, s3, s4, s5⟩ := hs
  obtain ⟨h1, h2, h3, h4, h5⟩ := h
  by_cases e : m = b.mode
  · rw [s3 e]; exact ⟨h1, h2, h3, h4, h5⟩
  · rw [s2]
    cases m
    · have s5 := s5 (by simpa using e) rfl
      rw [s5.1, s5.2]
      simp; omega
    · have s4 := s4 (by simpa using e) rfl
      rw [s4.1, s4.2]
      simp; omega

theorem mbc2WrRomb_legal {c : Cfg} {b : BankRegs} (v : BitVec 4) (hm : c.mapper = .mbc2) (h : b.Legal c) :
    BankRegs.Legal c { b with romBank := if v = 0#4 then 1#9 else v.setWidth 9 } := by
  simp only [BankRegs.Legal, hm] at h ⊢
  have key : ∀ v : BitVec 4, 1 ≤ (if v = 0#4 then 1#9 else v.setWidth 9).toNat ∧
      (if v = 0#4 then 1#9 else v.setWidth 9).toNat ≤ 15 := by decide
  exact ⟨(key v).1, (key v).2, h.2.2.1, h.2.2.2⟩

theorem mbc3WrRomb_legal {c : Cfg} {b : BankRegs} (v : BitVec 7) (hm : c.mapper = .mbc3) (h : b.Legal c) :
    BankRegs.Legal c { b with romBank := v.setWidth 9 } := by
  simp only [BankRegs.Legal, hm] at h ⊢
  have := v.isLt
  refine ⟨?_, h.2⟩
  simp; omega

theorem mbc3WrSel_legal {c : Cfg} {b : BankRegs} (d : Byte) (hm : c.mapper = .mbc3) (h : b.Legal c) :
    BankRegs.Legal c (if selAccepted c.hasTimer d then { b with ramBank := d.setWidth 4 } else b) := by
  split
  · rename_i hs
    simp only [BankRegs.Legal, hm] at h ⊢
    refine ⟨h.1, h.2.1, ?_⟩
    cases ht : c.hasTimer <;> simp [selAccepted, ht] at hs ⊢ <;> omega
  · exact h

theorem legal_mbc5 {c : Cfg} {b : BankRegs} (hm : c.mapper = .mbc5) : b.Legal c ↔ b.mode = false := by
  simp [BankRegs.Legal, hm]

/-! ### The kinds of change -/

/-- What a transaction `i` can make of the state `s`: a block or nothing is returned with nothing else
changed, a block of free values is drawn, the RTC is ticked, a port is written, RAM is written, an RTC
register is written, or the latch is. -/
inductive Effect (i : Instr) (s : State) : State → Prop where
  | readSame (b : Block) (f : Option BusFault) : i.shape.write = false →
      Effect i s (s.answer (.some b) f)
  | readFree : i.shape.write = false →
      Effect i s (s.drawFree.answer (.some (anyBlock s.free)) (.some .invalidWindow))
  | readTick (b : Block) (r : Rtc) : i = .mbc3RdRam i.addr → s.RtcWindow → s.rtc.latched = false →
      tick s.now s.rtc = .some r → Effect i s ((s.setRtc r).answer (.some b) .none)
  | writeSame (f : Option BusFault) : i.shape.write = true → Effect i s (s.answer .none f)
  | port (b : BankRegs) : i.shape.write = true → i.shape.hi ≤ 0x7FFF →
      (s.cfg.mapper = i.shape.mapper → s.bank.Legal s.cfg → b.Legal s.cfg) →
      Effect i s ((s.setBank b).answer .none .none)
  | store (off : Nat) (d : Block) : i.shape.write = true → 0xA000 ≤ i.shape.lo →
      i.shape.hi ≤ 0xBFFF → i.payload = .some d →
      (ramTarget i.addr s = .at off ∨ gatedRamTarget i.addr s = .at off ∨
        flatRamTarget i.addr s = .at off) →
      Effect i s ((s.storeRam off d).answer .none .none)
  | rtcWrite (k : RtcReg) (b : Byte) : i.shape.write = true → i.shape.mapper = .mbc3 →
      0xA000 ≤ i.shape.lo → i.shape.hi ≤ 0xBFFF → rtcSelected s = .some k →
      Effect i s ((s.setRtc { s.rtc with live := s.rtc.live.set k b }).answer .none .none)
  | latch (r : Rtc) : i.shape.write = true → i.shape.mapper = .mbc3 → 0x6000 ≤ i.shape.lo →
      i.shape.hi ≤ 0x7FFF → s.cfg.hasTimer = true → s.rtc.last.toNat ≤ r.last.toNat →
      Effect i s ((s.setRtc r).answer .none .none)

theorem readFixedRom_effect (hw : i.shape.write = false) (h : readFixedRom addr s = .next t) :
    Effect i s t := by
  obtain rfl := Result.next_inj.1 h; exact .readSame _ _ hw

theorem readRomAt_effect {g : Target} (hw : i.shape.write = false) (h : readRomAt g s = .next t) :
    Effect i s t := by
  cases g <;> obtain rfl := Result.next_inj.1 h <;> exact .readSame _ _ hw

theorem readRamAt_effect {g : Target} (hw : i.shape.write = false) (h : readRamAt g s = .next t) :
    Effect i s t := by
  cases g <;> obtain rfl := Result.next_inj.1 h <;> exact .readSame _ _ hw

theorem readInvalid_effect (hw : i.shape.write = false) (h : readInvalid s = .next t) :
    Effect i s t := by
  obtain rfl := Result.next_inj.1 h; exact .readFree hw

theorem completeWrite_effect (hw : i.shape.write = true) (h : completeWrite s = .next t) :
    Effect i s t := by
  obtain rfl := Result.next_inj.1 h; exact .writeSame _ hw

theorem writeInvalid_effect (hw : i.shape.write = true) (h : writeInvalid s = .next t) :
    Effect i s t := by
  obtain rfl := Result.next_inj.1 h; exact .writeSame _ hw

theorem writePort_effect {g : BankRegs → BankRegs} (hw : i.shape.write = true) (hh : i.shape.hi ≤ 0x7FFF)
    (hl : s.cfg.mapper = i.shape.mapper → s.bank.Legal s.cfg → (g s.bank).Legal s.cfg)
    (h : writePort g s = .next t) : Effect i s t := by
  obtain rfl := Result.next_inj.1 h; exact .port _ hw hh hl

theorem writeRamAt_effect {g : Target} {d : Block} (hw : i.shape.write = true) (hl : 0xA000 ≤ i.shape.lo)
    (hh : i.shape.hi ≤ 0xBFFF) (hd : i.payload = .some d)
    (hg : g = ramTarget i.addr s ∨ g = gatedRamTarget i.addr s ∨ g = flatRamTarget i.addr s)
    (h : writeRamAt g d s = .next t) : Effect i s t := by
  rcases g with off | f
  · obtain rfl := Result.next_inj.1 h
    exact .store off d hw hl hh hd (hg.imp Eq.symm (Or.imp Eq.symm Eq.symm))
  · obtain rfl := Result.next_inj.1 h
    exact .writeSame _ hw

theorem rtcRead_effect {k : RtcReg} (hi : i = .mbc3RdRam i.addr) (hw : s.RtcWindow)
    (h : rtcRead k s = .next t) : Effect i s t := by
  unfold rtcRead at h
  cases hl : s.rtc.latched
  · rw [hl] at h
    cases ht : tick s.now s.rtc with
    | none => simp [withTick_none ht] at h
    | some r =>
      simp only [Bool.false_eq_true, if_false, withTick_some ht] at h
      obtain rfl := Result.next_inj.1 h
      exact .readTick _ r hi hw hl ht
  · rw [hl] at h
    obtain rfl := Result.next_inj.1 h
    exact .readSame _ _ (by rw [hi]; rfl)

theorem latch_effect (hw : i.shape.write = true) (hm : i.shape.mapper = .mbc3) (hlo : 0x6000 ≤ i.shape.lo)
    (hhi : i.shape.hi ≤ 0x7FFF) (ht : s.cfg.hasTimer = true) (h : latch s = .next t) : Effect i s t := by
  unfold latch at h
  cases hr : tick s.now s.rtc with
  | none => simp [withTick_none hr] at h
  | some r =>
    rw [withTick_some hr] at h
    obtain rfl := Result.next_inj.1 h
    obtain ⟨hle, rfl⟩ := tick_eq_some.1 hr
    exact .latch _ hw hm hlo hhi ht hle

/-- Whatever a transaction answers next is one of the kinds of change. -/
theorem exec_effect (h : exec i s = .next t) : Effect i s t := by
  cases i with
  | noneRdRom | mbc1RdRom0 | mbc2RdRom0 | mbc3RdRom0 | mbc5RdRom0 => exact readFixedRom_effect rfl h
  | mbc1RdRomx | mbc2RdRomx | mbc3RdRomx | mbc5RdRomx => exact readRomAt_effect rfl h
  | noneRdRam | mbc1RdRam | mbc2RdRam | mbc5RdRam => exact readRamAt_effect rfl h
  | noneRdInv8 | noneRdInvc | mbc1RdInv8 | mbc1RdInvc | mbc2RdInv8 | mbc2RdInvc | mbc3RdInv8
  | mbc3RdInvc | mbc5RdInv8 | mbc5RdInvc => exact readInvalid_effect rfl h
  | noneWrInv8 | noneWrInvc | mbc1WrInv8 | mbc1WrInvc | mbc2WrInv8 | mbc2WrInvc | mbc3WrInv8
  | mbc3WrInvc | mbc5WrInv8 | mbc5WrInvc => exact writeInvalid_effect rfl h
  | noneWrRom | mbc2WrNop | mbc5WrNop => exact completeWrite_effect rfl h
  | mbc1WrRamen | mbc2WrRamen | mbc3WrRamen | mbc5WrRamen =>
    refine writePort_effect rfl (by simp [Instr.shape]) ?_ h
    exact fun hm => enablePort_legal _ (by rw [hm]; simp [Instr.shape])
  | mbc1WrRomb =>
    simp only [exec, execMbc1WrRomb] at h
    refine writePort_effect rfl (by simp [Instr.shape]) ?_ h
    exact fun hm => mbc1WrRomb_legal _ hm
  | mbc1WrBank2 =>
    simp only [exec, execMbc1WrBank2] at h
    refine writePort_effect rfl (by simp [Instr.shape]) ?_ h
    exact fun hm => mbc1WrBank2_legal _ hm
  | mbc1WrMode =>
    simp only [exec, execMbc1WrMode] at h
    refine writePort_effect rfl (by simp [Instr.shape]) ?_ h
    exact fun hm => modePort_legal _ hm
  | mbc2WrRomb =>
    simp only [exec, execMbc2WrRomb] at h
    refine writePort_effect rfl (by simp [Instr.shape]) ?_ h
    exact fun hm => mbc2WrRomb_legal _ hm
  | mbc3WrRomb =>
    simp only [exec, execMbc3WrRomb] at h
    refine writePort_effect rfl (by simp [Instr.shape]) ?_ h
    exact fun hm => mbc3WrRomb_legal _ hm
  | mbc3WrSel =>
    simp only [exec, execMbc3WrSel] at h
    refine writePort_effect rfl (by simp [Instr.shape]) ?_ h
    exact fun hm => mbc3WrSel_legal _ hm
  | mbc5WrRombl | mbc5WrRombh | mbc5WrRamb =>
    simp only [exec, execMbc5WrRombl, execMbc5WrRombh, execMbc5WrRamb] at h
    refine writePort_effect rfl (by simp [Instr.shape]) ?_ h
    exact fun hm hl => by rw [legal_mbc5 hm] at hl ⊢; exact hl
  | noneWrRam =>
    exact writeRamAt_effect rfl (by simp [Instr.shape]) (by simp [Instr.shape]) rfl
      (.inr (.inr rfl)) h
  | mbc1WrRam | mbc5WrRam => exact writeRamAt_effect rfl (by simp [Instr.shape]) (by simp [Instr.shape]) rfl (.inl rfl) h
  | mbc2WrRam => exact writeRamAt_effect rfl (by simp [Instr.shape]) (by simp [Instr.shape]) rfl (.inr (.inl rfl)) h
  | mbc3RdRam a =>
    simp only [exec, execMbc3RdRam] at h
    cases hk : rtcSelected s with
    | none => simp only [hk] at h; exact readRamAt_effect rfl h
    | some k => simp only [hk] at h; exact rtcRead_effect rfl (rtcSelected_window hk) h
  | mbc3WrRam a d =>
    simp only [exec, execMbc3WrRam] at h
    cases hk : rtcSelected s with
    | none => simp only [hk] at h; exact writeRamAt_effect rfl (by simp [Instr.shape]) (by simp [Instr.shape]) rfl (.inl rfl) h
    | some k =>
      simp only [hk] at h
      obtain rfl := Result.next_inj.1 h
      exact .rtcWrite k _ rfl rfl (by simp [Instr.shape]) (by simp [Instr.shape]) hk
  | mbc3WrLatch a d =>
    simp only [exec, execMbc3WrLatch] at h
    cases ht : s.cfg.hasTimer
    · simp only [ht] at h; exact completeWrite_effect rfl h
    · cases hb : lowBit (portByte d)
      · simp only [ht, hb] at h
        obtain rfl := Result.next_inj.1 h
        exact .latch _ rfl rfl (by simp [Instr.shape]) (by simp [Instr.shape]) ht (le_refl _)
      · simp only [ht, hb] at h
        exact latch_effect rfl rfl (by simp [Instr.shape]) (by simp [Instr.shape]) ht h

/-! ### When the clock is refused -/

/-- A transaction runs a tick: an unlatched RTC read, or a latch write (R266). -/
def Ticks (s : State) : Instr → Prop
  | .mbc3RdRam _ => s.RtcWindow ∧ s.rtc.latched = false
  | .mbc3WrLatch _ d => s.cfg.hasTimer = true ∧ d[0].toNat % 2 = 1
  | _ => False

/-- Every transaction answers a next state, but for one that ticks at a clock behind the last tick, which is
refused (R267). -/
theorem exec_next_or_refused (i : Instr) (s : State) :
    (∃ t, exec i s = .next t) ∨
    (exec i s = .refused .clockBackwards ∧ Ticks s i ∧ s.now.toNat < s.rtc.last.toNat) := by
  cases i with
  | mbc3RdRam a =>
    simp only [exec, execMbc3RdRam]
    cases hk : rtcSelected s with
    | none => cases hg : ramTarget a s <;> exact .inl ⟨_, rfl⟩
    | some k =>
      simp only [rtcRead]
      cases hl : s.rtc.latched
      · cases ht : tick s.now s.rtc with
        | none => exact .inr ⟨withTick_none ht, ⟨rtcSelected_window hk, hl⟩, tick_eq_none.1 ht⟩
        | some r => exact .inl ⟨_, withTick_some ht⟩
      · exact .inl ⟨_, rfl⟩
  | mbc3WrRam a d =>
    simp only [exec, execMbc3WrRam]
    cases hk : rtcSelected s with
    | none => cases hg : ramTarget a s <;> exact .inl ⟨_, rfl⟩
    | some k => exact .inl ⟨_, rfl⟩
  | mbc3WrLatch a d =>
    simp only [exec, execMbc3WrLatch]
    cases ht : s.cfg.hasTimer
    · exact .inl ⟨_, rfl⟩
    · cases hb : lowBit (portByte d)
      · exact .inl ⟨_, rfl⟩
      · cases hr : tick s.now s.rtc with
        | none =>
          exact .inr ⟨withTick_none hr, ⟨ht, (lowBit_iff _).1 hb⟩, tick_eq_none.1 hr⟩
        | some r => exact .inl ⟨_, withTick_some hr⟩
  | mbc1RdRomx a | mbc2RdRomx a | mbc3RdRomx a | mbc5RdRomx a =>
    simp only [exec, execMbc1RdRomx, execMbc2RdRomx, execMbc3RdRomx, execMbc5RdRomx, readRomAt]
    split <;> exact .inl ⟨_, rfl⟩
  | noneRdRam a | mbc1RdRam a | mbc2RdRam a | mbc5RdRam a =>
    simp only [exec, execNoneRdRam, execMbc1RdRam, execMbc2RdRam, execMbc5RdRam, readRamAt]
    split <;> exact .inl ⟨_, rfl⟩
  | noneWrRam a d | mbc1WrRam a d | mbc2WrRam a d | mbc5WrRam a d =>
    simp only [exec, execNoneWrRam, execMbc1WrRam, execMbc2WrRam, execMbc5WrRam, writeRamAt]
    split <;> exact .inl ⟨_, rfl⟩
  | _ => exact .inl ⟨_, rfl⟩

end Sys2Proof.Machine
end

