-- ==== Sys2Proof/Laws/Load.lean ====
section
/-! SUPPORT. Loading a cartridge: what a load that completes leaves, when it is refused, and what the header
bytes answer. -/

namespace Sys2Proof

variable {b : Bool} {type rom ram : Byte} {c : Cfg}

/-! ### Header bytes -/

theorem identityOfHeader_unknown (h : cartTypeOfCode b type = .none) :
    identityOfHeader b type rom ram = .refused .unsupportedMapper := by simp [identityOfHeader, h]

theorem identityOfHeader_unmodelled {t : CartType} (h : cartTypeOfCode b type = .some t)
    (hm : t.mapper.modelled = false) :
    identityOfHeader b type rom ram = .refused .unsupportedMapper := by simp [identityOfHeader, h, hm]

theorem identityOfHeader_ramCode {t : CartType} (h : cartTypeOfCode b type = .some t)
    (hm : t.mapper.modelled = true) (hr : ramSizeOfCode ram = .none) :
    identityOfHeader b type rom ram = .refused .illFormedConfig := by simp [identityOfHeader, h, hm, hr]

/-- A header gives a configuration from the rows of its three tables, and only so. -/
theorem identityOfHeader_eq_cfg : identityOfHeader b type rom ram = .cfg c ↔
    ∃ t banks quarters, cartTypeOfCode b type = .some t ∧ t.mapper.modelled = true ∧
      ramSizeOfCode ram = .some (banks, quarters) ∧
      c = ⟨t.mapper, t.hasRam, t.hasBattery, t.hasTimer, t.hasRumble, romBanksOfCode rom, banks, quarters⟩ := by
  unfold identityOfHeader
  cases cartTypeOfCode b type with
  | none => simp
  | some t =>
    cases hm : t.mapper.modelled
    · simp [hm]
    · cases ramSizeOfCode ram with
      | none => simp [hm]
      | some size =>
        simp only [hm, if_true, Identified.cfg.injEq]
        exact ⟨fun h => ⟨t, size.1, size.2, rfl, hm, rfl, h.symm⟩, fun ⟨_, _, _, ht, _, hr, h⟩ => by
          cases ht
          cases hr
          exact h.symm⟩

namespace Machine

variable {p : Launch} {s t : State}

theorem Launch.wf_iff : p.wf = true ↔ p.cfg.wf = true ∧ p.rom.length = p.cfg.romBytes := by simp [Launch.wf]

theorem Cfg.modelled_of_wf (h : c.wf = true) : c.mapper.modelled = true := by
  simp [Cfg.wf] at h
  exact h.1.1

/-! ### The RTC a load leaves -/

theorem loadedRtc_restored {i : RtcImage} (h : p.cfg.hasRtc = true) (hi : p.rtcInit = .some i) :
    loadedRtc p = tick p.now ⟨i.live, i.lat, false, i.last⟩ := by simp [loadedRtc, h, hi]

theorem loadedRtc_cold (h : p.cfg.hasRtc = true → p.rtcInit = .none) : loadedRtc p = .some (.cold p.now) := by
  cases hr : p.cfg.hasRtc
  · simp [loadedRtc, hr]
  · simp [loadedRtc, hr, h hr]

/-! ### The load -/

/-- A load that completes: its launch is well formed, its clock is accepted, and the device is `loadedState`. -/
theorem load_next : load p s = .next t ↔
    p.wf = true ∧ ∃ r, loadedRtc p = .some r ∧ t = loadedState p r s := by
  unfold load
  cases hw : p.wf
  · cases p.cfg.mapper.modelled <;> simp
  · have hm := Cfg.modelled_of_wf (Launch.wf_iff.1 hw).1
    cases loadedRtc p <;> simp [hm, eq_comm]

theorem load_unsupported (h : p.cfg.mapper.modelled = false) : load p s = .refused .unsupportedMapper := by
  simp [load, h]

theorem load_illFormed (h : p.cfg.mapper.modelled = true) (hw : p.wf = false) :
    load p s = .refused .illFormedConfig := by simp [load, h, hw]

theorem load_backwards (hw : p.wf = true) (h : loadedRtc p = .none) : load p s = .refused .clockBackwards := by
  simp [load, hw, Cfg.modelled_of_wf (Launch.wf_iff.1 hw).1, h]

end Machine

end Sys2Proof
end

