-- ==== Sys2Proof/Laws/PerInstr.lean ====
section
/-! SUPPORT. Facts about every transaction, one lemma per constructor: the encoder's word belongs to the
transaction's own row of the opcode table. -/

namespace Sys2Proof.Laws

/-- The command word of a well-formed transaction belongs to the row of the opcode table that bears its mnemonic
(30_encoding.md R106). -/
def EncodedRow.Statement (i : Instr) : Prop :=
  i.wf = true → ∃ r ∈ tableRows, r.mnemonic = i.shape.mnemonic ∧ r.matches (encode i).1 = true

/-- A transaction whose address keeps the number `n` under its row's mask. -/
theorem encodedRow_of (i : Instr) (r : TableRow) (x : Addr) (n : Nat) (hr : r ∈ tableRows)
    (hn : r.mnemonic = i.shape.mnemonic) (hm : r.mask = 0xF#4 ++ x)
    (hv : r.value = i.shape.mapper.strap ++ BitVec.ofBool i.shape.write ++ BitVec.ofNat 16 n)
    (h : i.wf = true → (i.addr &&& x).toNat = n) : EncodedRow.Statement i := by
  intro hw
  refine ⟨r, hr, hn, ?_⟩
  rw [TableRow.matches, beq_iff_eq, hm, hv]
  exact commandWord_matches _ _ _ _ _ (h hw)

theorem EncodedRow.noneRdRom (a : Addr) : Statement (.noneRdRom a) :=
  encodedRow_of _ ⟨"NONE.RD.ROM", 0x00000#20, 0xF801F#20⟩ 0x801F#16 0x0000 (by decide) rfl rfl (by simp only [Instr.shape]; decide)
    fun hw => by
      obtain ⟨h32, hlo, hhi⟩ := (Instr.wf_iff _).1 hw
      obtain ⟨h, -, -, -⟩ := Addr.and_mask h32
      simp only [Instr.addr, Instr.shape] at *
      omega

theorem EncodedRow.noneRdRam (a : Addr) : Statement (.noneRdRam a) :=
  encodedRow_of _ ⟨"NONE.RD.RAM", 0x0A000#20, 0xFE01F#20⟩ 0xE01F#16 0xA000 (by decide) rfl rfl (by simp only [Instr.shape]; decide)
    fun hw => by
      obtain ⟨h32, hlo, hhi⟩ := (Instr.wf_iff _).1 hw
      obtain ⟨-, -, h, -⟩ := Addr.and_mask h32
      simp only [Instr.addr, Instr.shape] at *
      omega

theorem EncodedRow.noneRdInv8 (a : Addr) : Statement (.noneRdInv8 a) :=
  encodedRow_of _ ⟨"NONE.RD.INV8", 0x08000#20, 0xFE01F#20⟩ 0xE01F#16 0x8000 (by decide) rfl rfl (by simp only [Instr.shape]; decide)
    fun hw => by
      obtain ⟨h32, hlo, hhi⟩ := (Instr.wf_iff _).1 hw
      obtain ⟨-, -, h, -⟩ := Addr.and_mask h32
      simp only [Instr.addr, Instr.shape] at *
      omega

theorem EncodedRow.noneRdInvc (a : Addr) : Statement (.noneRdInvc a) :=
  encodedRow_of _ ⟨"NONE.RD.INVC", 0x0C000#20, 0xFC01F#20⟩ 0xC01F#16 0xC000 (by decide) rfl rfl (by simp only [Instr.shape]; decide)
    fun hw => by
      obtain ⟨h32, hlo, hhi⟩ := (Instr.wf_iff _).1 hw
      obtain ⟨-, h, -, -⟩ := Addr.and_mask h32
      simp only [Instr.addr, Instr.shape] at *
      omega

theorem EncodedRow.noneWrRom (a : Addr) (d : Block) : Statement (.noneWrRom a d) :=
  encodedRow_of _ ⟨"NONE.WR.ROM", 0x10000#20, 0xF801F#20⟩ 0x801F#16 0x0000 (by decide) rfl rfl (by simp only [Instr.shape]; decide)
    fun hw => by
      obtain ⟨h32, hlo, hhi⟩ := (Instr.wf_iff _).1 hw
      obtain ⟨h, -, -, -⟩ := Addr.and_mask h32
      simp only [Instr.addr, Instr.shape] at *
      omega

theorem EncodedRow.noneWrRam (a : Addr) (d : Block) : Statement (.noneWrRam a d) :=
  encodedRow_of _ ⟨"NONE.WR.RAM", 0x1A000#20, 0xFE01F#20⟩ 0xE01F#16 0xA000 (by decide) rfl rfl (by simp only [Instr.shape]; decide)
    fun hw => by
      obtain ⟨h32, hlo, hhi⟩ := (Instr.wf_iff _).1 hw
      obtain ⟨-, -, h, -⟩ := Addr.and_mask h32
      simp only [Instr.addr, Instr.shape] at *
      omega

theorem EncodedRow.noneWrInv8 (a : Addr) (d : Block) : Statement (.noneWrInv8 a d) :=
  encodedRow_of _ ⟨"NONE.WR.INV8", 0x18000#20, 0xFE01F#20⟩ 0xE01F#16 0x8000 (by decide) rfl rfl (by simp only [Instr.shape]; decide)
    fun hw => by
      obtain ⟨h32, hlo, hhi⟩ := (Instr.wf_iff _).1 hw
      obtain ⟨-, -, h, -⟩ := Addr.and_mask h32
      simp only [Instr.addr, Instr.shape] at *
      omega

theorem EncodedRow.noneWrInvc (a : Addr) (d : Block) : Statement (.noneWrInvc a d) :=
  encodedRow_of _ ⟨"NONE.WR.INVC", 0x1C000#20, 0xFC01F#20⟩ 0xC01F#16 0xC000 (by decide) rfl rfl (by simp only [Instr.shape]; decide)
    fun hw => by
      obtain ⟨h32, hlo, hhi⟩ := (Instr.wf_iff _).1 hw
      obtain ⟨-, h, -, -⟩ := Addr.and_mask h32
      simp only [Instr.addr, Instr.shape] at *
      omega

theorem EncodedRow.mbc1RdRom0 (a : Addr) : Statement (.mbc1RdRom0 a) :=
  encodedRow_of _ ⟨"MBC1.RD.ROM0", 0x20000#20, 0xFC01F#20⟩ 0xC01F#16 0x0000 (by decide) rfl rfl (by simp only [Instr.shape]; decide)
    fun hw => by
      obtain ⟨h32, hlo, hhi⟩ := (Instr.wf_iff _).1 hw
      obtain ⟨-, h, -, -⟩ := Addr.and_mask h32
      simp only [Instr.addr, Instr.shape] at *
      omega

theorem EncodedRow.mbc1RdRomx (a : Addr) : Statement (.mbc1RdRomx a) :=
  encodedRow_of _ ⟨"MBC1.RD.ROMX", 0x24000#20, 0xFC01F#20⟩ 0xC01F#16 0x4000 (by decide) rfl rfl (by simp only [Instr.shape]; decide)
    fun hw => by
      obtain ⟨h32, hlo, hhi⟩ := (Instr.wf_iff _).1 hw
      obtain ⟨-, h, -, -⟩ := Addr.and_mask h32
      simp only [Instr.addr, Instr.shape] at *
      omega

theorem EncodedRow.mbc1RdRam (a : Addr) : Statement (.mbc1RdRam a) :=
  encodedRow_of _ ⟨"MBC1.RD.RAM", 0x2A000#20, 0xFE01F#20⟩ 0xE01F#16 0xA000 (by decide) rfl rfl (by simp only [Instr.shape]; decide)
    fun hw => by
      obtain ⟨h32, hlo, hhi⟩ := (Instr.wf_iff _).1 hw
      obtain ⟨-, -, h, -⟩ := Addr.and_mask h32
      simp only [Instr.addr, Instr.shape] at *
      omega

theorem EncodedRow.mbc1RdInv8 (a : Addr) : Statement (.mbc1RdInv8 a) :=
  encodedRow_of _ ⟨"MBC1.RD.INV8", 0x28000#20, 0xFE01F#20⟩ 0xE01F#16 0x8000 (by decide) rfl rfl (by simp only [Instr.shape]; decide)
    fun hw => by
      obtain ⟨h32, hlo, hhi⟩ := (Instr.wf_iff _).1 hw
      obtain ⟨-, -, h, -⟩ := Addr.and_mask h32
      simp only [Instr.addr, Instr.shape] at *
      omega

theorem EncodedRow.mbc1RdInvc (a : Addr) : Statement (.mbc1RdInvc a) :=
  encodedRow_of _ ⟨"MBC1.RD.INVC", 0x2C000#20, 0xFC01F#20⟩ 0xC01F#16 0xC000 (by decide) rfl rfl (by simp only [Instr.shape]; decide)
    fun hw => by
      obtain ⟨h32, hlo, hhi⟩ := (Instr.wf_iff _).1 hw
      obtain ⟨-, h, -, -⟩ := Addr.and_mask h32
      simp only [Instr.addr, Instr.shape] at *
      omega

theorem EncodedRow.mbc1WrRamen (a : Addr) (d : Block) : Statement (.mbc1WrRamen a d) :=
  encodedRow_of _ ⟨"MBC1.WR.RAMEN", 0x30000#20, 0xFE01F#20⟩ 0xE01F#16 0x0000 (by decide) rfl rfl (by simp only [Instr.shape]; decide)
    fun hw => by
      obtain ⟨h32, hlo, hhi⟩ := (Instr.wf_iff _).1 hw
      obtain ⟨-, -, h, -⟩ := Addr.and_mask h32
      simp only [Instr.addr, Instr.shape] at *
      omega

theorem EncodedRow.mbc1WrRomb (a : Addr) (d : Block) : Statement (.mbc1WrRomb a d) :=
  encodedRow_of _ ⟨"MBC1.WR.ROMB", 0x32000#20, 0xFE01F#20⟩ 0xE01F#16 0x2000 (by decide) rfl rfl (by simp only [Instr.shape]; decide)
    fun hw => by
      obtain ⟨h32, hlo, hhi⟩ := (Instr.wf_iff _).1 hw
      obtain ⟨-, -, h, -⟩ := Addr.and_mask h32
      simp only [Instr.addr, Instr.shape] at *
      omega

theorem EncodedRow.mbc1WrBank2 (a : Addr) (d : Block) : Statement (.mbc1WrBank2 a d) :=
  encodedRow_of _ ⟨"MBC1.WR.BANK2", 0x34000#20, 0xFE01F#20⟩ 0xE01F#16 0x4000 (by decide) rfl rfl (by simp only [Instr.shape]; decide)
    fun hw => by
      obtain ⟨h32, hlo, hhi⟩ := (Instr.wf_iff _).1 hw
      obtain ⟨-, -, h, -⟩ := Addr.and_mask h32
      simp only [Instr.addr, Instr.shape] at *
      omega

theorem EncodedRow.mbc1WrMode (a : Addr) (d : Block) : Statement (.mbc1WrMode a d) :=
  encodedRow_of _ ⟨"MBC1.WR.MODE", 0x36000#20, 0xFE01F#20⟩ 0xE01F#16 0x6000 (by decide) rfl rfl (by simp only [Instr.shape]; decide)
    fun hw => by
      obtain ⟨h32, hlo, hhi⟩ := (Instr.wf_iff _).1 hw
      obtain ⟨-, -, h, -⟩ := Addr.and_mask h32
      simp only [Instr.addr, Instr.shape] at *
      omega

theorem EncodedRow.mbc1WrRam (a : Addr) (d : Block) : Statement (.mbc1WrRam a d) :=
  encodedRow_of _ ⟨"MBC1.WR.RAM", 0x3A000#20, 0xFE01F#20⟩ 0xE01F#16 0xA000 (by decide) rfl rfl (by simp only [Instr.shape]; decide)
    fun hw => by
      obtain ⟨h32, hlo, hhi⟩ := (Instr.wf_iff _).1 hw
      obtain ⟨-, -, h, -⟩ := Addr.and_mask h32
      simp only [Instr.addr, Instr.shape] at *
      omega

theorem EncodedRow.mbc1WrInv8 (a : Addr) (d : Block) : Statement (.mbc1WrInv8 a d) :=
  encodedRow_of _ ⟨"MBC1.WR.INV8", 0x38000#20, 0xFE01F#20⟩ 0xE01F#16 0x8000 (by decide) rfl rfl (by simp only [Instr.shape]; decide)
    fun hw => by
      obtain ⟨h32, hlo, hhi⟩ := (Instr.wf_iff _).1 hw
      obtain ⟨-, -, h, -⟩ := Addr.and_mask h32
      simp only [Instr.addr, Instr.shape] at *
      omega

theorem EncodedRow.mbc1WrInvc (a : Addr) (d : Block) : Statement (.mbc1WrInvc a d) :=
  encodedRow_of _ ⟨"MBC1.WR.INVC", 0x3C000#20, 0xFC01F#20⟩ 0xC01F#16 0xC000 (by decide) rfl rfl (by simp only [Instr.shape]; decide)
    fun hw => by
      obtain ⟨h32, hlo, hhi⟩ := (Instr.wf_iff _).1 hw
      obtain ⟨-, h, -, -⟩ := Addr.and_mask h32
      simp only [Instr.addr, Instr.shape] at *
      omega

theorem EncodedRow.mbc2RdRom0 (a : Addr) : Statement (.mbc2RdRom0 a) :=
  encodedRow_of _ ⟨"MBC2.RD.ROM0", 0x40000#20, 0xFC01F#20⟩ 0xC01F#16 0x0000 (by decide) rfl rfl (by simp only [Instr.shape]; decide)
    fun hw => by
      obtain ⟨h32, hlo, hhi⟩ := (Instr.wf_iff _).1 hw
      obtain ⟨-, h, -, -⟩ := Addr.and_mask h32
      simp only [Instr.addr, Instr.shape] at *
      omega

theorem EncodedRow.mbc2RdRomx (a : Addr) : Statement (.mbc2RdRomx a) :=
  encodedRow_of _ ⟨"MBC2.RD.ROMX", 0x44000#20, 0xFC01F#20⟩ 0xC01F#16 0x4000 (by decide) rfl rfl (by simp only [Instr.shape]; decide)
    fun hw => by
      obtain ⟨h32, hlo, hhi⟩ := (Instr.wf_iff _).1 hw
      obtain ⟨-, h, -, -⟩ := Addr.and_mask h32
      simp only [Instr.addr, Instr.shape] at *
      omega

theorem EncodedRow.mbc2RdRam (a : Addr) : Statement (.mbc2RdRam a) :=
  encodedRow_of _ ⟨"MBC2.RD.RAM", 0x4A000#20, 0xFE01F#20⟩ 0xE01F#16 0xA000 (by decide) rfl rfl (by simp only [Instr.shape]; decide)
    fun hw => by
      obtain ⟨h32, hlo, hhi⟩ := (Instr.wf_iff _).1 hw
      obtain ⟨-, -, h, -⟩ := Addr.and_mask h32
      simp only [Instr.addr, Instr.shape] at *
      omega

theorem EncodedRow.mbc2RdInv8 (a : Addr) : Statement (.mbc2RdInv8 a) :=
  encodedRow_of _ ⟨"MBC2.RD.INV8", 0x48000#20, 0xFE01F#20⟩ 0xE01F#16 0x8000 (by decide) rfl rfl (by simp only [Instr.shape]; decide)
    fun hw => by
      obtain ⟨h32, hlo, hhi⟩ := (Instr.wf_iff _).1 hw
      obtain ⟨-, -, h, -⟩ := Addr.and_mask h32
      simp only [Instr.addr, Instr.shape] at *
      omega

theorem EncodedRow.mbc2RdInvc (a : Addr) : Statement (.mbc2RdInvc a) :=
  encodedRow_of _ ⟨"MBC2.RD.INVC", 0x4C000#20, 0xFC01F#20⟩ 0xC01F#16 0xC000 (by decide) rfl rfl (by simp only [Instr.shape]; decide)
    fun hw => by
      obtain ⟨h32, hlo, hhi⟩ := (Instr.wf_iff _).1 hw
      obtain ⟨-, h, -, -⟩ := Addr.and_mask h32
      simp only [Instr.addr, Instr.shape] at *
      omega

theorem EncodedRow.mbc2WrRamen (a : Addr) (d : Block) : Statement (.mbc2WrRamen a d) :=
  encodedRow_of _ ⟨"MBC2.WR.RAMEN", 0x50000#20, 0xFE01F#20⟩ 0xE01F#16 0x0000 (by decide) rfl rfl (by simp only [Instr.shape]; decide)
    fun hw => by
      obtain ⟨h32, hlo, hhi⟩ := (Instr.wf_iff _).1 hw
      obtain ⟨-, -, h, -⟩ := Addr.and_mask h32
      simp only [Instr.addr, Instr.shape] at *
      omega

theorem EncodedRow.mbc2WrRomb (a : Addr) (d : Block) : Statement (.mbc2WrRomb a d) :=
  encodedRow_of _ ⟨"MBC2.WR.ROMB", 0x52000#20, 0xFE01F#20⟩ 0xE01F#16 0x2000 (by decide) rfl rfl (by simp only [Instr.shape]; decide)
    fun hw => by
      obtain ⟨h32, hlo, hhi⟩ := (Instr.wf_iff _).1 hw
      obtain ⟨-, -, h, -⟩ := Addr.and_mask h32
      simp only [Instr.addr, Instr.shape] at *
      omega

theorem EncodedRow.mbc2WrNop (a : Addr) (d : Block) : Statement (.mbc2WrNop a d) :=
  encodedRow_of _ ⟨"MBC2.WR.NOP", 0x54000#20, 0xFC01F#20⟩ 0xC01F#16 0x4000 (by decide) rfl rfl (by simp only [Instr.shape]; decide)
    fun hw => by
      obtain ⟨h32, hlo, hhi⟩ := (Instr.wf_iff _).1 hw
      obtain ⟨-, h, -, -⟩ := Addr.and_mask h32
      simp only [Instr.addr, Instr.shape] at *
      omega

theorem EncodedRow.mbc2WrRam (a : Addr) (d : Block) : Statement (.mbc2WrRam a d) :=
  encodedRow_of _ ⟨"MBC2.WR.RAM", 0x5A000#20, 0xFE01F#20⟩ 0xE01F#16 0xA000 (by decide) rfl rfl (by simp only [Instr.shape]; decide)
    fun hw => by
      obtain ⟨h32, hlo, hhi⟩ := (Instr.wf_iff _).1 hw
      obtain ⟨-, -, h, -⟩ := Addr.and_mask h32
      simp only [Instr.addr, Instr.shape] at *
      omega

theorem EncodedRow.mbc2WrInv8 (a : Addr) (d : Block) : Statement (.mbc2WrInv8 a d) :=
  encodedRow_of _ ⟨"MBC2.WR.INV8", 0x58000#20, 0xFE01F#20⟩ 0xE01F#16 0x8000 (by decide) rfl rfl (by simp only [Instr.shape]; decide)
    fun hw => by
      obtain ⟨h32, hlo, hhi⟩ := (Instr.wf_iff _).1 hw
      obtain ⟨-, -, h, -⟩ := Addr.and_mask h32
      simp only [Instr.addr, Instr.shape] at *
      omega

theorem EncodedRow.mbc2WrInvc (a : Addr) (d : Block) : Statement (.mbc2WrInvc a d) :=
  encodedRow_of _ ⟨"MBC2.WR.INVC", 0x5C000#20, 0xFC01F#20⟩ 0xC01F#16 0xC000 (by decide) rfl rfl (by simp only [Instr.shape]; decide)
    fun hw => by
      obtain ⟨h32, hlo, hhi⟩ := (Instr.wf_iff _).1 hw
      obtain ⟨-, h, -, -⟩ := Addr.and_mask h32
      simp only [Instr.addr, Instr.shape] at *
      omega

theorem EncodedRow.mbc3RdRom0 (a : Addr) : Statement (.mbc3RdRom0 a) :=
  encodedRow_of _ ⟨"MBC3.RD.ROM0", 0x60000#20, 0xFC01F#20⟩ 0xC01F#16 0x0000 (by decide) rfl rfl (by simp only [Instr.shape]; decide)
    fun hw => by
      obtain ⟨h32, hlo, hhi⟩ := (Instr.wf_iff _).1 hw
      obtain ⟨-, h, -, -⟩ := Addr.and_mask h32
      simp only [Instr.addr, Instr.shape] at *
      omega

theorem EncodedRow.mbc3RdRomx (a : Addr) : Statement (.mbc3RdRomx a) :=
  encodedRow_of _ ⟨"MBC3.RD.ROMX", 0x64000#20, 0xFC01F#20⟩ 0xC01F#16 0x4000 (by decide) rfl rfl (by simp only [Instr.shape]; decide)
    fun hw => by
      obtain ⟨h32, hlo, hhi⟩ := (Instr.wf_iff _).1 hw
      obtain ⟨-, h, -, -⟩ := Addr.and_mask h32
      simp only [Instr.addr, Instr.shape] at *
      omega

theorem EncodedRow.mbc3RdRam (a : Addr) : Statement (.mbc3RdRam a) :=
  encodedRow_of _ ⟨"MBC3.RD.RAM", 0x6A000#20, 0xFE01F#20⟩ 0xE01F#16 0xA000 (by decide) rfl rfl (by simp only [Instr.shape]; decide)
    fun hw => by
      obtain ⟨h32, hlo, hhi⟩ := (Instr.wf_iff _).1 hw
      obtain ⟨-, -, h, -⟩ := Addr.and_mask h32
      simp only [Instr.addr, Instr.shape] at *
      omega

theorem EncodedRow.mbc3RdInv8 (a : Addr) : Statement (.mbc3RdInv8 a) :=
  encodedRow_of _ ⟨"MBC3.RD.INV8", 0x68000#20, 0xFE01F#20⟩ 0xE01F#16 0x8000 (by decide) rfl rfl (by simp only [Instr.shape]; decide)
    fun hw => by
      obtain ⟨h32, hlo, hhi⟩ := (Instr.wf_iff _).1 hw
      obtain ⟨-, -, h, -⟩ := Addr.and_mask h32
      simp only [Instr.addr, Instr.shape] at *
      omega

theorem EncodedRow.mbc3RdInvc (a : Addr) : Statement (.mbc3RdInvc a) :=
  encodedRow_of _ ⟨"MBC3.RD.INVC", 0x6C000#20, 0xFC01F#20⟩ 0xC01F#16 0xC000 (by decide) rfl rfl (by simp only [Instr.shape]; decide)
    fun hw => by
      obtain ⟨h32, hlo, hhi⟩ := (Instr.wf_iff _).1 hw
      obtain ⟨-, h, -, -⟩ := Addr.and_mask h32
      simp only [Instr.addr, Instr.shape] at *
      omega

theorem EncodedRow.mbc3WrRamen (a : Addr) (d : Block) : Statement (.mbc3WrRamen a d) :=
  encodedRow_of _ ⟨"MBC3.WR.RAMEN", 0x70000#20, 0xFE01F#20⟩ 0xE01F#16 0x0000 (by decide) rfl rfl (by simp only [Instr.shape]; decide)
    fun hw => by
      obtain ⟨h32, hlo, hhi⟩ := (Instr.wf_iff _).1 hw
      obtain ⟨-, -, h, -⟩ := Addr.and_mask h32
      simp only [Instr.addr, Instr.shape] at *
      omega

theorem EncodedRow.mbc3WrRomb (a : Addr) (d : Block) : Statement (.mbc3WrRomb a d) :=
  encodedRow_of _ ⟨"MBC3.WR.ROMB", 0x72000#20, 0xFE01F#20⟩ 0xE01F#16 0x2000 (by decide) rfl rfl (by simp only [Instr.shape]; decide)
    fun hw => by
      obtain ⟨h32, hlo, hhi⟩ := (Instr.wf_iff _).1 hw
      obtain ⟨-, -, h, -⟩ := Addr.and_mask h32
      simp only [Instr.addr, Instr.shape] at *
      omega

theorem EncodedRow.mbc3WrSel (a : Addr) (d : Block) : Statement (.mbc3WrSel a d) :=
  encodedRow_of _ ⟨"MBC3.WR.SEL", 0x74000#20, 0xFE01F#20⟩ 0xE01F#16 0x4000 (by decide) rfl rfl (by simp only [Instr.shape]; decide)
    fun hw => by
      obtain ⟨h32, hlo, hhi⟩ := (Instr.wf_iff _).1 hw
      obtain ⟨-, -, h, -⟩ := Addr.and_mask h32
      simp only [Instr.addr, Instr.shape] at *
      omega

theorem EncodedRow.mbc3WrLatch (a : Addr) (d : Block) : Statement (.mbc3WrLatch a d) :=
  encodedRow_of _ ⟨"MBC3.WR.LATCH", 0x76000#20, 0xFE01F#20⟩ 0xE01F#16 0x6000 (by decide) rfl rfl (by simp only [Instr.shape]; decide)
    fun hw => by
      obtain ⟨h32, hlo, hhi⟩ := (Instr.wf_iff _).1 hw
      obtain ⟨-, -, h, -⟩ := Addr.and_mask h32
      simp only [Instr.addr, Instr.shape] at *
      omega

theorem EncodedRow.mbc3WrRam (a : Addr) (d : Block) : Statement (.mbc3WrRam a d) :=
  encodedRow_of _ ⟨"MBC3.WR.RAM", 0x7A000#20, 0xFE01F#20⟩ 0xE01F#16 0xA000 (by decide) rfl rfl (by simp only [Instr.shape]; decide)
    fun hw => by
      obtain ⟨h32, hlo, hhi⟩ := (Instr.wf_iff _).1 hw
      obtain ⟨-, -, h, -⟩ := Addr.and_mask h32
      simp only [Instr.addr, Instr.shape] at *
      omega

theorem EncodedRow.mbc3WrInv8 (a : Addr) (d : Block) : Statement (.mbc3WrInv8 a d) :=
  encodedRow_of _ ⟨"MBC3.WR.INV8", 0x78000#20, 0xFE01F#20⟩ 0xE01F#16 0x8000 (by decide) rfl rfl (by simp only [Instr.shape]; decide)
    fun hw => by
      obtain ⟨h32, hlo, hhi⟩ := (Instr.wf_iff _).1 hw
      obtain ⟨-, -, h, -⟩ := Addr.and_mask h32
      simp only [Instr.addr, Instr.shape] at *
      omega

theorem EncodedRow.mbc3WrInvc (a : Addr) (d : Block) : Statement (.mbc3WrInvc a d) :=
  encodedRow_of _ ⟨"MBC3.WR.INVC", 0x7C000#20, 0xFC01F#20⟩ 0xC01F#16 0xC000 (by decide) rfl rfl (by simp only [Instr.shape]; decide)
    fun hw => by
      obtain ⟨h32, hlo, hhi⟩ := (Instr.wf_iff _).1 hw
      obtain ⟨-, h, -, -⟩ := Addr.and_mask h32
      simp only [Instr.addr, Instr.shape] at *
      omega

theorem EncodedRow.mbc5RdRom0 (a : Addr) : Statement (.mbc5RdRom0 a) :=
  encodedRow_of _ ⟨"MBC5.RD.ROM0", 0xA0000#20, 0xFC01F#20⟩ 0xC01F#16 0x0000 (by decide) rfl rfl (by simp only [Instr.shape]; decide)
    fun hw => by
      obtain ⟨h32, hlo, hhi⟩ := (Instr.wf_iff _).1 hw
      obtain ⟨-, h, -, -⟩ := Addr.and_mask h32
      simp only [Instr.addr, Instr.shape] at *
      omega

theorem EncodedRow.mbc5RdRomx (a : Addr) : Statement (.mbc5RdRomx a) :=
  encodedRow_of _ ⟨"MBC5.RD.ROMX", 0xA4000#20, 0xFC01F#20⟩ 0xC01F#16 0x4000 (by decide) rfl rfl (by simp only [Instr.shape]; decide)
    fun hw => by
      obtain ⟨h32, hlo, hhi⟩ := (Instr.wf_iff _).1 hw
      obtain ⟨-, h, -, -⟩ := Addr.and_mask h32
      simp only [Instr.addr, Instr.shape] at *
      omega

theorem EncodedRow.mbc5RdRam (a : Addr) : Statement (.mbc5RdRam a) :=
  encodedRow_of _ ⟨"MBC5.RD.RAM", 0xAA000#20, 0xFE01F#20⟩ 0xE01F#16 0xA000 (by decide) rfl rfl (by simp only [Instr.shape]; decide)
    fun hw => by
      obtain ⟨h32, hlo, hhi⟩ := (Instr.wf_iff _).1 hw
      obtain ⟨-, -, h, -⟩ := Addr.and_mask h32
      simp only [Instr.addr, Instr.shape] at *
      omega

theorem EncodedRow.mbc5RdInv8 (a : Addr) : Statement (.mbc5RdInv8 a) :=
  encodedRow_of _ ⟨"MBC5.RD.INV8", 0xA8000#20, 0xFE01F#20⟩ 0xE01F#16 0x8000 (by decide) rfl rfl (by simp only [Instr.shape]; decide)
    fun hw => by
      obtain ⟨h32, hlo, hhi⟩ := (Instr.wf_iff _).1 hw
      obtain ⟨-, -, h, -⟩ := Addr.and_mask h32
      simp only [Instr.addr, Instr.shape] at *
      omega

theorem EncodedRow.mbc5RdInvc (a : Addr) : Statement (.mbc5RdInvc a) :=
  encodedRow_of _ ⟨"MBC5.RD.INVC", 0xAC000#20, 0xFC01F#20⟩ 0xC01F#16 0xC000 (by decide) rfl rfl (by simp only [Instr.shape]; decide)
    fun hw => by
      obtain ⟨h32, hlo, hhi⟩ := (Instr.wf_iff _).1 hw
      obtain ⟨-, h, -, -⟩ := Addr.and_mask h32
      simp only [Instr.addr, Instr.shape] at *
      omega

theorem EncodedRow.mbc5WrRamen (a : Addr) (d : Block) : Statement (.mbc5WrRamen a d) :=
  encodedRow_of _ ⟨"MBC5.WR.RAMEN", 0xB0000#20, 0xFE01F#20⟩ 0xE01F#16 0x0000 (by decide) rfl rfl (by simp only [Instr.shape]; decide)
    fun hw => by
      obtain ⟨h32, hlo, hhi⟩ := (Instr.wf_iff _).1 hw
      obtain ⟨-, -, h, -⟩ := Addr.and_mask h32
      simp only [Instr.addr, Instr.shape] at *
      omega

theorem EncodedRow.mbc5WrRombl (a : Addr) (d : Block) : Statement (.mbc5WrRombl a d) :=
  encodedRow_of _ ⟨"MBC5.WR.ROMBL", 0xB2000#20, 0xFF01F#20⟩ 0xF01F#16 0x2000 (by decide) rfl rfl (by simp only [Instr.shape]; decide)
    fun hw => by
      obtain ⟨h32, hlo, hhi⟩ := (Instr.wf_iff _).1 hw
      obtain ⟨-, -, -, h⟩ := Addr.and_mask h32
      simp only [Instr.addr, Instr.shape] at *
      omega

theorem EncodedRow.mbc5WrRombh (a : Addr) (d : Block) : Statement (.mbc5WrRombh a d) :=
  encodedRow_of _ ⟨"MBC5.WR.ROMBH", 0xB3000#20, 0xFF01F#20⟩ 0xF01F#16 0x3000 (by decide) rfl rfl (by simp only [Instr.shape]; decide)
    fun hw => by
      obtain ⟨h32, hlo, hhi⟩ := (Instr.wf_iff _).1 hw
      obtain ⟨-, -, -, h⟩ := Addr.and_mask h32
      simp only [Instr.addr, Instr.shape] at *
      omega

theorem EncodedRow.mbc5WrRamb (a : Addr) (d : Block) : Statement (.mbc5WrRamb a d) :=
  encodedRow_of _ ⟨"MBC5.WR.RAMB", 0xB4000#20, 0xFE01F#20⟩ 0xE01F#16 0x4000 (by decide) rfl rfl (by simp only [Instr.shape]; decide)
    fun hw => by
      obtain ⟨h32, hlo, hhi⟩ := (Instr.wf_iff _).1 hw
      obtain ⟨-, -, h, -⟩ := Addr.and_mask h32
      simp only [Instr.addr, Instr.shape] at *
      omega

theorem EncodedRow.mbc5WrNop (a : Addr) (d : Block) : Statement (.mbc5WrNop a d) :=
  encodedRow_of _ ⟨"MBC5.WR.NOP", 0xB6000#20, 0xFE01F#20⟩ 0xE01F#16 0x6000 (by decide) rfl rfl (by simp only [Instr.shape]; decide)
    fun hw => by
      obtain ⟨h32, hlo, hhi⟩ := (Instr.wf_iff _).1 hw
      obtain ⟨-, -, h, -⟩ := Addr.and_mask h32
      simp only [Instr.addr, Instr.shape] at *
      omega

theorem EncodedRow.mbc5WrRam (a : Addr) (d : Block) : Statement (.mbc5WrRam a d) :=
  encodedRow_of _ ⟨"MBC5.WR.RAM", 0xBA000#20, 0xFE01F#20⟩ 0xE01F#16 0xA000 (by decide) rfl rfl (by simp only [Instr.shape]; decide)
    fun hw => by
      obtain ⟨h32, hlo, hhi⟩ := (Instr.wf_iff _).1 hw
      obtain ⟨-, -, h, -⟩ := Addr.and_mask h32
      simp only [Instr.addr, Instr.shape] at *
      omega

theorem EncodedRow.mbc5WrInv8 (a : Addr) (d : Block) : Statement (.mbc5WrInv8 a d) :=
  encodedRow_of _ ⟨"MBC5.WR.INV8", 0xB8000#20, 0xFE01F#20⟩ 0xE01F#16 0x8000 (by decide) rfl rfl (by simp only [Instr.shape]; decide)
    fun hw => by
      obtain ⟨h32, hlo, hhi⟩ := (Instr.wf_iff _).1 hw
      obtain ⟨-, -, h, -⟩ := Addr.and_mask h32
      simp only [Instr.addr, Instr.shape] at *
      omega

theorem EncodedRow.mbc5WrInvc (a : Addr) (d : Block) : Statement (.mbc5WrInvc a d) :=
  encodedRow_of _ ⟨"MBC5.WR.INVC", 0xBC000#20, 0xFC01F#20⟩ 0xC01F#16 0xC000 (by decide) rfl rfl (by simp only [Instr.shape]; decide)
    fun hw => by
      obtain ⟨h32, hlo, hhi⟩ := (Instr.wf_iff _).1 hw
      obtain ⟨-, h, -, -⟩ := Addr.and_mask h32
      simp only [Instr.addr, Instr.shape] at *
      omega

end Sys2Proof.Laws
end

