-- ==== Sys2Proof/Tests/Slice0.lean ====
section
/-! SUPPORT. Tests of the model on the spec's own examples and vectors (95_test_vectors.md; the id of a vector
stands in each docstring), the smoke of the well-formedness checks, and the decoding of every row. -/

namespace Sys2Proof.Tests

open Sys2Proof.Machine

/-! ## Helpers -/

/-- The configurations of 95_test_vectors.md. -/
def cfgNone : Cfg := ⟨.none, true, true, false, false, 2, 1, 4⟩
def cfgQuarter : Cfg := ⟨.none, true, true, false, false, 2, 1, 1⟩
def cfgMbc1 : Cfg := ⟨.mbc1, true, true, false, false, 128, 4, 16⟩
def cfgMbc2 : Cfg := ⟨.mbc2, true, true, false, false, 16, 1, 4⟩
def cfgMbc3 : Cfg := ⟨.mbc3, true, true, false, false, 128, 4, 16⟩
def cfgClock : Cfg := ⟨.mbc3, true, true, true, false, 64, 4, 16⟩
def cfgMbc5 : Cfg := ⟨.mbc5, true, true, false, false, 128, 16, 64⟩

/-- A loaded device with the bank registers given, the rest as after a cold load. -/
def dev (c : Cfg) (romBank : BitVec 9) (ramBank : BitVec 4) (ramEn mode : Bool) : State :=
  { State.reset with cfg := c, bank := ⟨romBank, ramBank, ramEn, mode⟩ }

/-- A clock cartridge with one of its registers selected. -/
def clock (ramBank : BitVec 4) (r : Rtc) (now : Seconds) : State :=
  { dev cfgClock 1#9 ramBank false false with rtc := r, now := now }

/-- `WRB`: the first byte given, the others zero (95_test_vectors.md). -/
def wrb (v : Byte) : Block := Vector.ofFn fun i => if i.val = 0 then v else 0#8

/-- `DB(x)`: 32 ascending bytes from `x`. -/
def db (x : Nat) : Block := Vector.ofFn fun i => BitVec.ofNat 8 (x + i.val)

def after : Result → Option State
  | .next s => .some s
  | _ => .none

def bankAfter (r : Result) : Option BankRegs := (after r).map (·.bank)
def rtcAfter (r : Result) : Option Rtc := (after r).map (·.rtc)
def out (r : Result) : Option Block := (after r).bind (·.out)
def fault (r : Result) : Option BusFault := (after r).bind (·.diag.fault)
def ramAfter (r : Result) (k : Nat) : Option Byte := (after r).map (·.ramByte k)
def ramListed (r : Result) : Option Memory := (after r).map (·.ram)
def lane (r : Result) (k : Nat) : Option Byte := (out r).map (·.toList.getD k 0#8)

def isRefusal (r : Result) (x : Refusal) : Bool :=
  match r with
  | .refused y => x == y
  | _ => false

/-! ## Well-formedness -/

/-- X-4: `addr[4:0]` is not zero. -/
theorem test_wf_refuses_unaligned : (Instr.mbc1RdRomx 0x4001#16).wf = false := by decide

/-- R106: an address that belongs to another row. -/
theorem test_wf_refuses_out_of_range :
    (Instr.mbc5WrRombl 0x3000#16 Block.zero).wf = false ∧ (Instr.mbc5WrRombh 0x2FE0#16 Block.zero).wf = false ∧
    (Instr.noneRdRom 0x8000#16).wf = false := by decide

theorem test_wf_accepts : (Instr.mbc5WrRombl 0x2FE0#16 (wrb 0x7F#8)).wf = true := by decide

/-- R12: a variant that is not modelled, sizes that are no row of R9, a timer with quarter-sized RAM. -/
theorem test_cfg_wf_refuses :
    Cfg.wf ⟨.mmm01, false, false, false, false, 2, 0, 0⟩ = false ∧
    Cfg.wf ⟨.mbc1, false, false, false, false, 3, 0, 0⟩ = false ∧
    Cfg.wf ⟨.mbc1, true, false, false, false, 2, 1, 16⟩ = false ∧
    Cfg.wf ⟨.mbc3, true, true, true, false, 2, 1, 1⟩ = false := by decide

theorem test_cfg_wf_accepts :
    cfgNone.wf = true ∧ cfgQuarter.wf = true ∧ cfgMbc1.wf = true ∧ cfgMbc2.wf = true ∧ cfgMbc3.wf = true ∧
    cfgClock.wf = true ∧ cfgMbc5.wf = true := by decide

/-- R8, R320 step 1: the ROM image must have `ROM_BYTES` bytes. -/
theorem test_launch_wf_refuses_size : Launch.wf ⟨cfgNone, [0#8], .none, .none, 0#64⟩ = false := by decide

/-- R9, R10, R297: the header bytes of an MBC3 cartridge with RAM, battery and timer; an MMM01 code, which the RAM
code does not change; an unknown RAM code. -/
theorem test_header :
    identityOfHeader true 0x10#8 0x05#8 0x03#8 = .cfg cfgClock ∧
    identityOfHeader true 0x0B#8 0x00#8 0x00#8 = .refused .unsupportedMapper ∧
    identityOfHeader true 0x0D#8 0x00#8 0x06#8 = .refused .unsupportedMapper ∧
    identityOfHeader true 0x03#8 0x00#8 0x06#8 = .refused .illFormedConfig ∧
    identityOfHeader false 0x06#8 0x03#8 0x00#8 = .cfg ⟨.mbc2, false, true, false, false, 16, 0, 0⟩ := by decide

/-! ## Decoding -/

/-- R103: the strap codes 4, 6 and 7 (X-6), a misaligned address (X-4, X-5), and a number of more than 20 bits. -/
theorem test_decode_refuses :
    decode 0x80000#20 Block.zero = .reject .unsupportedMapper ∧
    decode 0xC0001#20 Block.zero = .reject .unsupportedMapper ∧
    decode 0xF0000#20 Block.zero = .reject .unsupportedMapper ∧
    decode 0x24001#20 Block.zero = .reject .unaligned ∧
    decode 0x3201F#20 Block.zero = .reject .unaligned ∧
    decodeTableWord 24 0x100000 = .none := by decide

/-- R112: the payload travels beside the word. -/
theorem test_decode_payload : decode 0xB2000#20 (wrb 0x05#8) = .instr (.mbc5WrRombl 0x2000#16 (wrb 0x05#8)) := by
  decide

/-- The rows of R106 for `M = 0`: each word is `M`, `W` and the address, bit by bit. -/
theorem test_decode_none :
    decodeTableWord 24 0b00000100000000000000 = .some (.noneRdRom 0x4000#16) ∧
    decodeTableWord 24 0b00001010011111100000 = .some (.noneRdRam 0xA7E0#16) ∧
    decodeTableWord 24 0b00001000000000000000 = .some (.noneRdInv8 0x8000#16) ∧
    decodeTableWord 24 0b00001100000000000000 = .some (.noneRdInvc 0xC000#16) ∧
    decodeTableWord 24 0b00010010000000000000 = .some (.noneWrRom 0x2000#16 Block.zero) ∧
    decodeTableWord 24 0b00011011000000000000 = .some (.noneWrRam 0xB000#16 Block.zero) ∧
    decodeTableWord 24 0b00011001111111100000 = .some (.noneWrInv8 0x9FE0#16 Block.zero) ∧
    decodeTableWord 24 0b00011110000000000000 = .some (.noneWrInvc 0xE000#16 Block.zero) := by decide

/-- The rows of R106 for `M = 1`: each word is `M`, `W` and the address, bit by bit. -/
theorem test_decode_mbc1 :
    decodeTableWord 24 0b00100000000000100000 = .some (.mbc1RdRom0 0x0020#16) ∧
    decodeTableWord 24 0b00100111111111100000 = .some (.mbc1RdRomx 0x7FE0#16) ∧
    decodeTableWord 24 0b00101010000000100000 = .some (.mbc1RdRam 0xA020#16) ∧
    decodeTableWord 24 0b00101000000000000000 = .some (.mbc1RdInv8 0x8000#16) ∧
    decodeTableWord 24 0b00101111111111100000 = .some (.mbc1RdInvc 0xFFE0#16) ∧
    decodeTableWord 24 0b00110001111111100000 = .some (.mbc1WrRamen 0x1FE0#16 Block.zero) ∧
    decodeTableWord 24 0b00110011111111100000 = .some (.mbc1WrRomb 0x3FE0#16 Block.zero) ∧
    decodeTableWord 24 0b00110100000000000000 = .some (.mbc1WrBank2 0x4000#16 Block.zero) ∧
    decodeTableWord 24 0b00110110000000000000 = .some (.mbc1WrMode 0x6000#16 Block.zero) ∧
    decodeTableWord 24 0b00111010000000000000 = .some (.mbc1WrRam 0xA000#16 Block.zero) ∧
    decodeTableWord 24 0b00111000000000000000 = .some (.mbc1WrInv8 0x8000#16 Block.zero) ∧
    decodeTableWord 24 0b00111100000000000000 = .some (.mbc1WrInvc 0xC000#16 Block.zero) := by decide

/-- The rows of R106 for `M = 2`: each word is `M`, `W` and the address, bit by bit. -/
theorem test_decode_mbc2 :
    decodeTableWord 24 0b01000011111111100000 = .some (.mbc2RdRom0 0x3FE0#16) ∧
    decodeTableWord 24 0b01000111111111100000 = .some (.mbc2RdRomx 0x7FE0#16) ∧
    decodeTableWord 24 0b01001010000010000000 = .some (.mbc2RdRam 0xA080#16) ∧
    decodeTableWord 24 0b01001000000000000000 = .some (.mbc2RdInv8 0x8000#16) ∧
    decodeTableWord 24 0b01001110000000000000 = .some (.mbc2RdInvc 0xE000#16) ∧
    decodeTableWord 24 0b01010000000000000000 = .some (.mbc2WrRamen 0x0000#16 Block.zero) ∧
    decodeTableWord 24 0b01010010000100000000 = .some (.mbc2WrRomb 0x2100#16 Block.zero) ∧
    decodeTableWord 24 0b01010100000000000000 = .some (.mbc2WrNop 0x4000#16 Block.zero) ∧
    decodeTableWord 24 0b01011010000111100000 = .some (.mbc2WrRam 0xA1E0#16 Block.zero) ∧
    decodeTableWord 24 0b01011001111111100000 = .some (.mbc2WrInv8 0x9FE0#16 Block.zero) ∧
    decodeTableWord 24 0b01011111111111100000 = .some (.mbc2WrInvc 0xFFE0#16 Block.zero) := by decide

/-- The rows of R106 for `M = 3`: each word is `M`, `W` and the address, bit by bit. -/
theorem test_decode_mbc3 :
    decodeTableWord 24 0b01100000000101000000 = .some (.mbc3RdRom0 0x0140#16) ∧
    decodeTableWord 24 0b01100100000000000000 = .some (.mbc3RdRomx 0x4000#16) ∧
    decodeTableWord 24 0b01101010000000000000 = .some (.mbc3RdRam 0xA000#16) ∧
    decodeTableWord 24 0b01101000000000000000 = .some (.mbc3RdInv8 0x8000#16) ∧
    decodeTableWord 24 0b01101100000000000000 = .some (.mbc3RdInvc 0xC000#16) ∧
    decodeTableWord 24 0b01110000000000000000 = .some (.mbc3WrRamen 0x0000#16 Block.zero) ∧
    decodeTableWord 24 0b01110010000000000000 = .some (.mbc3WrRomb 0x2000#16 Block.zero) ∧
    decodeTableWord 24 0b01110100000000000000 = .some (.mbc3WrSel 0x4000#16 Block.zero) ∧
    decodeTableWord 24 0b01110110000000000000 = .some (.mbc3WrLatch 0x6000#16 Block.zero) ∧
    decodeTableWord 24 0b01111011111111100000 = .some (.mbc3WrRam 0xBFE0#16 Block.zero) ∧
    decodeTableWord 24 0b01111000000000000000 = .some (.mbc3WrInv8 0x8000#16 Block.zero) ∧
    decodeTableWord 24 0b01111110000000000000 = .some (.mbc3WrInvc 0xE000#16 Block.zero) := by decide

/-- The rows of R106 for `M = 5`: each word is `M`, `W` and the address, bit by bit. -/
theorem test_decode_mbc5 :
    decodeTableWord 24 0b10100000000000000000 = .some (.mbc5RdRom0 0x0000#16) ∧
    decodeTableWord 24 0b10100100000000000000 = .some (.mbc5RdRomx 0x4000#16) ∧
    decodeTableWord 24 0b10101011111111100000 = .some (.mbc5RdRam 0xBFE0#16) ∧
    decodeTableWord 24 0b10101000000000000000 = .some (.mbc5RdInv8 0x8000#16) ∧
    decodeTableWord 24 0b10101100000000000000 = .some (.mbc5RdInvc 0xC000#16) ∧
    decodeTableWord 24 0b10110001000000000000 = .some (.mbc5WrRamen 0x1000#16 Block.zero) ∧
    decodeTableWord 24 0b10110010111111100000 = .some (.mbc5WrRombl 0x2FE0#16 Block.zero) ∧
    decodeTableWord 24 0b10110011000000000000 = .some (.mbc5WrRombh 0x3000#16 Block.zero) ∧
    decodeTableWord 24 0b10110101000000000000 = .some (.mbc5WrRamb 0x5000#16 Block.zero) ∧
    decodeTableWord 24 0b10110110000000000000 = .some (.mbc5WrNop 0x6000#16 Block.zero) ∧
    decodeTableWord 24 0b10111011111111100000 = .some (.mbc5WrRam 0xBFE0#16 Block.zero) ∧
    decodeTableWord 24 0b10111001111111100000 = .some (.mbc5WrInv8 0x9FE0#16 Block.zero) ∧
    decodeTableWord 24 0b10111100000000000000 = .some (.mbc5WrInvc 0xC000#16 Block.zero) := by decide

/-! ## NONE -/

/-- N-2. -/
theorem test_noneRdRom :
    let r := exec (.noneRdRom 0x4000#16) { dev cfgNone 1 0 false false with rom := [(0x4000, 0x01#8), (0x401F, 0x1F#8)] }
    lane r 0 = .some 0x01#8 ∧ lane r 31 = .some 0x1F#8 ∧ fault r = .none := by decide

/-- N-7: the second run of the cold pattern. -/
theorem test_noneRdRam_cold : out (exec (.noneRdRam 0xA080#16) (dev cfgNone 1 0 false false)) =
    .some (Block.bcast 0xFF#8) := by decide

/-- N-11: above the quarter. -/
theorem test_noneRdRam_quarter :
    let r := exec (.noneRdRam 0xA800#16) (dev cfgQuarter 1 0 false false)
    out r = .some Block.zero ∧ fault r = .some .ramRange := by decide

/-- N-4, N-5: nothing is enabled, no bank is selected. -/
theorem test_noneWrRom :
    bankAfter (exec (.noneWrRom 0x2000#16 (wrb 0x05#8)) (dev cfgNone 1 0 false false)) =
      .some ⟨1#9, 0#4, false, false⟩ ∧
    bankAfter (exec (.noneWrRom 0x0000#16 (wrb 0x0A#8)) (dev cfgNone 1 0 false false)) =
      .some ⟨1#9, 0#4, false, false⟩ := by decide

/-- N-8. -/
theorem test_noneWrRam :
    let r := exec (.noneWrRam 0xBFE0#16 (db 0x10)) (dev cfgNone 1 0 false false)
    ramAfter r 0x1FE0 = .some 0x10#8 ∧ ramAfter r 0x1FFF = .some 0x2F#8 ∧ ramAfter r 0x1FDF = .some 0xFF#8 := by
  decide

/-- N-10. -/
theorem test_noneWrRam_quarter :
    let r := exec (.noneWrRam 0xA800#16 (db 0x40)) (dev cfgQuarter 1 0 false false)
    ramListed r = .some [] ∧ fault r = .some .ramRange := by decide

/-! ## MBC1 -/

/-- 1-19: no remapping in RAM-banking mode. -/
theorem test_mbc1RdRom0 : lane (exec (.mbc1RdRom0 0x0000#16)
    { dev cfgMbc1 0x01 3 false true with rom := [(0, 0x5A#8), (0x180000, 0x11#8)] }) 0 = .some 0x5A#8 := by decide

/-- 1-2. -/
theorem test_mbc1RdRomx : lane (exec (.mbc1RdRomx 0x7FE0#16)
    { dev cfgMbc1 0x1F 0 false false with rom := [(0x7FFE0, 0x1F#8)] }) 0 = .some 0x1F#8 := by decide

/-- 1-18: bank 0x45 of 64. -/
theorem test_mbc1RdRomx_range :
    let r := exec (.mbc1RdRomx 0x4000#16) (dev { cfgMbc1 with romBanks := 64 } 0x45 0 false false)
    out r = .some Block.zero ∧ fault r = .some .romBankRange ∧
      bankAfter r = .some ⟨0x45#9, 0#4, false, false⟩ := by decide

/-- The example of R153; 1-13: `ram_en` is false. -/
theorem test_mbc1RdRam : lane (exec (.mbc1RdRam 0xA020#16)
    { dev cfgMbc1 1 2 false true with ram := [(0x4020, 0x77#8)] }) 0 = .some 0x77#8 := by decide

/-- 1-15. -/
theorem test_mbc1RdRam_range :
    let r := exec (.mbc1RdRam 0xA000#16) (dev { cfgMbc1 with ramBanks := 1, ramQuarters := 4 } 1 2 false true)
    out r = .some Block.zero ∧ fault r = .some .ramBankRange := by decide

/-- 1-3, 1-4: the whole byte is compared. -/
theorem test_mbc1WrRamen :
    bankAfter (exec (.mbc1WrRamen 0x0000#16 (wrb 0x0A#8)) (dev cfgMbc1 1 0 false false)) =
      .some ⟨1#9, 0#4, true, false⟩ ∧
    bankAfter (exec (.mbc1WrRamen 0x1FE0#16 (wrb 0x1A#8)) (dev cfgMbc1 1 0 true false)) =
      .some ⟨1#9, 0#4, false, false⟩ := by decide

/-- S2, 1-5, 1-7: the correction is of the merged value, bits 7:5 of the byte are ignored. -/
theorem test_mbc1WrRomb :
    bankAfter (exec (.mbc1WrRomb 0x2000#16 (wrb 0x00#8)) (dev cfgMbc1 0x25 0 false false)) =
      .some ⟨0x21#9, 0#4, false, false⟩ ∧
    bankAfter (exec (.mbc1WrRomb 0x2000#16 (wrb 0x20#8)) (dev cfgMbc1 0x01 0 false false)) =
      .some ⟨0x01#9, 0#4, false, false⟩ ∧
    bankAfter (exec (.mbc1WrRomb 0x3FE0#16 (wrb 0xFF#8)) (dev cfgMbc1 0x01 0 false false)) =
      .some ⟨0x1F#9, 0#4, false, false⟩ := by decide

/-- 1-6, 1-10. -/
theorem test_mbc1WrBank2 :
    bankAfter (exec (.mbc1WrBank2 0x4000#16 (wrb 0xFF#8)) (dev cfgMbc1 0x1F 0 false false)) =
      .some ⟨0x7F#9, 0#4, false, false⟩ ∧
    bankAfter (exec (.mbc1WrBank2 0x4000#16 (wrb 0x01#8)) (dev cfgMbc1 0x01 3 false true)) =
      .some ⟨0x01#9, 1#4, false, true⟩ := by decide

/-- 1-8, 1-12. -/
theorem test_mbc1WrMode :
    bankAfter (exec (.mbc1WrMode 0x6000#16 (wrb 0xFF#8)) (dev cfgMbc1 0x61 0 false false)) =
      .some ⟨0x01#9, 3#4, false, true⟩ ∧
    bankAfter (exec (.mbc1WrMode 0x6000#16 (wrb 0xFE#8)) (dev cfgMbc1 0x01 1 false true)) =
      .some ⟨0x21#9, 0#4, false, false⟩ := by decide

/-- 1-9: the same mode again changes nothing. -/
theorem test_mbc1WrMode_again :
    bankAfter (exec (.mbc1WrMode 0x6000#16 (wrb 0x01#8)) (dev cfgMbc1 0x01 3 false true)) =
      .some ⟨0x01#9, 3#4, false, true⟩ := by decide

/-- 1-14. -/
theorem test_mbc1WrRam :
    let r := exec (.mbc1WrRam 0xA020#16 (db 7)) (dev cfgMbc1 1 2 false true)
    ramAfter r 0x4020 = .some 7#8 ∧ ramAfter r 0x403F = .some 38#8 ∧ ramAfter r 0x4040 = .some 0#8 := by decide

/-- 1-17: no RAM. -/
theorem test_mbc1WrRam_absent :
    let r := exec (.mbc1WrRam 0xA000#16 (db 7)) (dev { cfgMbc1 with hasRam := false } 1 0 false false)
    ramListed r = .some [] ∧ fault r = .some .ramAbsent := by decide

/-! ## MBC2 -/

/-- The example of R181. -/
theorem test_mbc2RdRom0 : lane (exec (.mbc2RdRom0 0x3FE0#16)
    { dev cfgMbc2 0x0F 0 false false with rom := [(0x3FE0, 0x22#8)] }) 0 = .some 0x22#8 := by decide

/-- 2-9, 2-12. -/
theorem test_mbc2RdRomx :
    lane (exec (.mbc2RdRomx 0x4000#16)
      { dev cfgMbc2 0x0F 0 false false with rom := [(0x3C000, 0x0F#8)] }) 0 = .some 0x0F#8 ∧
    fault (exec (.mbc2RdRomx 0x4000#16) (dev { cfgMbc2 with romBanks := 8 } 0x0F 0 false false)) =
      .some .romBankRange := by decide

/-- 2-1, and P5 step 4. -/
theorem test_mbc2RdRam :
    (let r := exec (.mbc2RdRam 0xA000#16) (dev cfgMbc2 1 0 false false)
     out r = .some Block.zero ∧ fault r = .some .ramDisabled) ∧
    out (exec (.mbc2RdRam 0xA080#16) (dev cfgMbc2 1 0 true false)) = .some (Block.bcast 0xFF#8) := by decide +kernel

/-- 2-13: no banks count as absent, whatever `ram_en` is. -/
theorem test_mbc2RdRam_absent :
    fault (exec (.mbc2RdRam 0xA000#16) (dev { cfgMbc2 with ramBanks := 0, ramQuarters := 0 } 1 0 true false)) =
      .some .ramAbsent := by decide

/-- 2-3, 2-5. -/
theorem test_mbc2WrRamen :
    bankAfter (exec (.mbc2WrRamen 0x0000#16 (wrb 0x0A#8)) (dev cfgMbc2 1 0 false false)) =
      .some ⟨1#9, 0#4, true, false⟩ ∧
    bankAfter (exec (.mbc2WrRamen 0x0000#16 (wrb 0x0B#8)) (dev cfgMbc2 1 0 true false)) =
      .some ⟨1#9, 0#4, false, false⟩ := by decide

/-- 2-7, 2-8. -/
theorem test_mbc2WrRomb :
    bankAfter (exec (.mbc2WrRomb 0x2000#16 (wrb 0x10#8)) (dev cfgMbc2 7 0 false false)) =
      .some ⟨1#9, 0#4, false, false⟩ ∧
    bankAfter (exec (.mbc2WrRomb 0x2000#16 (wrb 0xFF#8)) (dev cfgMbc2 1 0 false false)) =
      .some ⟨0x0F#9, 0#4, false, false⟩ := by decide

/-- 2-10, 2-11. -/
theorem test_mbc2WrNop :
    bankAfter (exec (.mbc2WrNop 0x4000#16 (wrb 0x03#8)) (dev cfgMbc2 0x0F 0 false false)) =
      .some ⟨0x0F#9, 0#4, false, false⟩ ∧
    bankAfter (exec (.mbc2WrNop 0x6000#16 (wrb 0x01#8)) (dev cfgMbc2 0x0F 0 false false)) =
      .some ⟨0x0F#9, 0#4, false, false⟩ := by decide

/-- The example of R187; 2-2. -/
theorem test_mbc2WrRam :
    ramAfter (exec (.mbc2WrRam 0xA1E0#16 (Block.bcast 0x0F#8)) (dev cfgMbc2 1 0 true false)) 0x1FF =
      .some 0x0F#8 ∧
    ramListed (exec (.mbc2WrRam 0xA000#16 (db 1)) (dev cfgMbc2 1 0 false false)) = .some [] := by decide

/-! ## MBC3 -/

/-- The example of R201. -/
theorem test_mbc3RdRom0 : lane (exec (.mbc3RdRom0 0x0140#16)
    { dev cfgMbc3 0x7F 0 false false with rom := [(0x140, 0x33#8)] }) 0 = .some 0x33#8 := by decide

/-- 3-2, and the example of R202. -/
theorem test_mbc3RdRomx :
    lane (exec (.mbc3RdRomx 0x4000#16)
      { dev cfgMbc3 0 0 false false with rom := [(0, 0x42#8)] }) 0 = .some 0x42#8 ∧
    lane (exec (.mbc3RdRomx 0x4000#16)
      { dev cfgMbc3 0x7F 0 false false with rom := [(0x1FC000, 0x7F#8)] }) 0 = .some 0x7F#8 := by decide

/-- 3-13: the RAM path, out of range. -/
theorem test_mbc3RdRam_range :
    let r := exec (.mbc3RdRam 0xA000#16) (dev { cfgMbc3 with ramBanks := 1, ramQuarters := 4 } 1 3 false false)
    out r = .some Block.zero ∧ fault r = .some .ramBankRange := by decide

/-- R-1: an unlatched read ticks. -/
theorem test_mbc3RdRam_live :
    let r := exec (.mbc3RdRam 0xA000#16)
      (clock 8 ⟨⟨58#8, 59#8, 23#8, 0xFF#8, 0x00#8⟩, .zero, false, 1000#64⟩ 1002#64)
    out r = .some (Block.bcast 0x00#8) ∧
      rtcAfter r = .some ⟨⟨0#8, 0#8, 0#8, 0x00#8, 0x01#8⟩, .zero, false, 1002#64⟩ := by decide

/-- R-2: a latched read does not. -/
theorem test_mbc3RdRam_latched :
    let c : Rtc := ⟨.zero, ⟨0#8, 0#8, 0#8, 0#8, 0x80#8⟩, true, 1000#64⟩
    let r := exec (.mbc3RdRam 0xA000#16) (clock 0x0C c 1999#64)
    out r = .some (Block.bcast 0x80#8) ∧ rtcAfter r = .some c := by decide

/-- X-7, X-9: a clock that went backwards is refused, unless the read is latched. -/
theorem test_mbc3RdRam_backwards :
    isRefusal (exec (.mbc3RdRam 0xA000#16) (clock 8 ⟨.zero, .zero, false, 100#64⟩ 99#64)) .clockBackwards = true ∧
    out (exec (.mbc3RdRam 0xA000#16) (clock 8 ⟨.zero, ⟨7#8, 0#8, 0#8, 0#8, 0#8⟩, true, 100#64⟩ 99#64)) =
      .some (Block.bcast 7#8) := by decide

/-- 3-14. -/
theorem test_mbc3WrRamen :
    bankAfter (exec (.mbc3WrRamen 0x0000#16 (wrb 0x0A#8)) (dev cfgMbc3 1 0 false false)) =
      .some ⟨1#9, 0#4, true, false⟩ := by decide

/-- 3-4, 3-3. -/
theorem test_mbc3WrRomb :
    bankAfter (exec (.mbc3WrRomb 0x2000#16 (wrb 0x80#8)) (dev cfgMbc3 1 0 false false)) =
      .some ⟨0#9, 0#4, false, false⟩ ∧
    bankAfter (exec (.mbc3WrRomb 0x2000#16 (wrb 0xFF#8)) (dev cfgMbc3 1 0 false false)) =
      .some ⟨0x7F#9, 0#4, false, false⟩ := by decide

/-- 3-5, 3-7, 3-8: accepted; not masked; not accepted without a timer. -/
theorem test_mbc3WrSel :
    bankAfter (exec (.mbc3WrSel 0x4000#16 (wrb 0x03#8)) (dev cfgMbc3 1 0 false false)) =
      .some ⟨1#9, 3#4, false, false⟩ ∧
    bankAfter (exec (.mbc3WrSel 0x4000#16 (wrb 0x13#8)) (dev cfgMbc3 1 2 false false)) =
      .some ⟨1#9, 2#4, false, false⟩ ∧
    bankAfter (exec (.mbc3WrSel 0x4000#16 (wrb 0x08#8)) (dev cfgMbc3 1 3 false false)) =
      .some ⟨1#9, 3#4, false, false⟩ := by decide

/-- 3-9, 3-10. -/
theorem test_mbc3WrSel_timer :
    bankAfter (exec (.mbc3WrSel 0x4000#16 (wrb 0x0C#8)) (dev cfgClock 1 3 false false)) =
      .some ⟨1#9, 0x0C#4, false, false⟩ ∧
    bankAfter (exec (.mbc3WrSel 0x4000#16 (wrb 0x0D#8)) (dev cfgClock 1 0x0C false false)) =
      .some ⟨1#9, 0x0C#4, false, false⟩ := by decide

/-- R-5: latching again takes a fresh snapshot. -/
theorem test_mbc3WrLatch :
    rtcAfter (exec (.mbc3WrLatch 0x6000#16 (wrb 0x01#8))
      (clock 0 ⟨⟨1#8, 2#8, 3#8, 4#8, 0#8⟩, ⟨1#8, 2#8, 3#8, 4#8, 0#8⟩, true, 500#64⟩ 510#64)) =
      .some ⟨⟨11#8, 2#8, 3#8, 4#8, 0#8⟩, ⟨11#8, 2#8, 3#8, 4#8, 0#8⟩, true, 510#64⟩ := by decide

/-- R-6 (bits 7:1 ignored), X-8. -/
theorem test_mbc3WrLatch_clear :
    rtcAfter (exec (.mbc3WrLatch 0x6000#16 (wrb 0xFE#8)) (clock 0 ⟨.zero, ⟨1#8, 2#8, 3#8, 4#8, 0#8⟩, true, 100#64⟩ 99#64)) =
      .some ⟨.zero, ⟨1#8, 2#8, 3#8, 4#8, 0#8⟩, false, 100#64⟩ ∧
    isRefusal (exec (.mbc3WrLatch 0x6000#16 (wrb 0x01#8)) (clock 0 (.cold 100#64) 99#64)) .clockBackwards = true := by
  decide

/-- 3-12: RAM bank 3, `ram_en` false. -/
theorem test_mbc3WrRam :
    let r := exec (.mbc3WrRam 0xBFE0#16 (db 9)) (dev cfgMbc3 1 3 false false)
    ramAfter r 0x7FE0 = .some 9#8 ∧ ramAfter r 0x7FFF = .some 40#8 := by decide

/-- 3-16, R-3: one register, its first byte, no tick. -/
theorem test_mbc3WrRam_rtc :
    let r := exec (.mbc3WrRam 0xA000#16 (db 0x41)) (clock 0x0C (.cold 100#64) 130#64)
    rtcAfter r = .some ⟨⟨0#8, 0#8, 0#8, 0#8, 0x41#8⟩, .zero, false, 100#64⟩ ∧ ramListed r = .some [] := by decide

/-- T-1 to T-13 of 95_test_vectors.md, section 2.6. -/
theorem test_tick :
    advance ⟨10#8, 20#8, 5#8, 0x00#8, 0x00#8⟩ 3661 = ⟨11#8, 21#8, 6#8, 0x00#8, 0x00#8⟩ ∧
    advance ⟨59#8, 59#8, 23#8, 0xFF#8, 0x00#8⟩ 1 = ⟨0#8, 0#8, 0#8, 0x00#8, 0x01#8⟩ ∧
    advance ⟨0#8, 0#8, 0#8, 0xFE#8, 0x01#8⟩ 259200 = ⟨0#8, 0#8, 0#8, 0x01#8, 0x80#8⟩ ∧
    advance ⟨59#8, 59#8, 23#8, 0x05#8, 0x00#8⟩ 3661 = ⟨0#8, 1#8, 1#8, 0x06#8, 0x00#8⟩ ∧
    advance ⟨75#8, 0#8, 0#8, 0x00#8, 0x00#8⟩ 0 = ⟨15#8, 1#8, 0#8, 0x00#8, 0x00#8⟩ ∧
    advance ⟨30#8, 30#8, 12#8, 0x64#8, 0x40#8⟩ 60 = ⟨30#8, 31#8, 12#8, 0x64#8, 0x40#8⟩ ∧
    advance ⟨0#8, 0#8, 0#8, 0x01#8, 0x80#8⟩ 86400 = ⟨0#8, 0#8, 0#8, 0x02#8, 0x80#8⟩ ∧
    advance .zero 44236800 = ⟨0#8, 0#8, 0#8, 0x00#8, 0x80#8⟩ ∧
    advance .zero 44236799 = ⟨59#8, 59#8, 23#8, 0xFF#8, 0x01#8⟩ ∧
    advance ⟨0xFF#8, 0xFF#8, 0xFF#8, 0xFF#8, 0xFF#8⟩ 0 = ⟨15#8, 19#8, 19#8, 0x09#8, 0xFE#8⟩ ∧
    advance .zero 86399 = ⟨59#8, 59#8, 23#8, 0x00#8, 0x00#8⟩ := by decide

/-! ## MBC5 -/

/-- The example of R232. -/
theorem test_mbc5RdRom0 : lane (exec (.mbc5RdRom0 0x0000#16)
    { dev cfgMbc5 0x17F 0 false false with rom := [(0, 0x44#8)] }) 0 = .some 0x44#8 := by decide

/-- S9, 5-8. -/
theorem test_mbc5RdRomx :
    lane (exec (.mbc5RdRomx 0x4000#16)
      { dev { cfgMbc5 with romBanks := 16 } 5 0 false false with rom := [(0x14000, 0x05#8)] }) 0 = .some 0x05#8 ∧
    fault (exec (.mbc5RdRomx 0x4000#16) (dev cfgMbc5 0x080 0 false false)) = .some .romBankRange := by decide

/-- The example of R234: the last block of bank 15. -/
theorem test_mbc5RdRam : lane (exec (.mbc5RdRam 0xBFE0#16)
    { dev cfgMbc5 1 15 false false with ram := [(0x1FFFF, 0x99#8)] }) 31 = .some 0x99#8 := by decide

/-- 5-12. -/
theorem test_mbc5RdRam_range :
    fault (exec (.mbc5RdRam 0xA000#16) (dev { cfgMbc5 with ramBanks := 4, ramQuarters := 16 } 1 0x0B false false)) =
      .some .ramBankRange := by decide

/-- 5-14. -/
theorem test_mbc5WrRamen :
    bankAfter (exec (.mbc5WrRamen 0x1000#16 (wrb 0x0A#8)) (dev cfgMbc5 1 0 false false)) =
      .some ⟨1#9, 0#4, true, false⟩ := by decide

/-- 5-6, 5-1. -/
theorem test_mbc5WrRombl :
    bankAfter (exec (.mbc5WrRombl 0x2000#16 (wrb 0x02#8)) (dev cfgMbc5 0x17F 0 false false)) =
      .some ⟨0x102#9, 0#4, false, false⟩ ∧
    bankAfter (exec (.mbc5WrRombl 0x2000#16 (wrb 0x00#8)) (dev cfgMbc5 1 0 false false)) =
      .some ⟨0#9, 0#4, false, false⟩ := by decide

/-- 5-4, 5-7. -/
theorem test_mbc5WrRombh :
    bankAfter (exec (.mbc5WrRombh 0x3000#16 (wrb 0xFF#8)) (dev cfgMbc5 0x07F 0 false false)) =
      .some ⟨0x17F#9, 0#4, false, false⟩ ∧
    bankAfter (exec (.mbc5WrRombh 0x3FE0#16 (wrb 0xFE#8)) (dev cfgMbc5 0x102 0 false false)) =
      .some ⟨0x002#9, 0#4, false, false⟩ := by decide

/-- 5-9, 5-15: bit 3 is a bank bit on a rumble cartridge too. -/
theorem test_mbc5WrRamb :
    bankAfter (exec (.mbc5WrRamb 0x4000#16 (wrb 0x1B#8)) (dev cfgMbc5 1 0 false false)) =
      .some ⟨1#9, 0x0B#4, false, false⟩ ∧
    bankAfter (exec (.mbc5WrRamb 0x4000#16 (wrb 0x08#8)) (dev { cfgMbc5 with hasRumble := true } 1 0 false false)) =
      .some ⟨1#9, 8#4, false, false⟩ := by decide

/-- 5-13. -/
theorem test_mbc5WrNop :
    bankAfter (exec (.mbc5WrNop 0x6000#16 (wrb 0x01#8)) (dev cfgMbc5 1 0 false false)) =
      .some ⟨1#9, 0#4, false, false⟩ := by decide

/-- 5-11, 5-12. -/
theorem test_mbc5WrRam :
    ramAfter (exec (.mbc5WrRam 0xBFE0#16 (db 3)) (dev cfgMbc5 1 15 false false)) 0x1FFFF = .some 34#8 ∧
    ramListed (exec (.mbc5WrRam 0xA000#16 (db 3)) (dev { cfgMbc5 with ramBanks := 4, ramQuarters := 16 } 1 0x0B false false)) =
      .some [] := by decide

/-! ## Invalid windows -/

/-- X-1, X-2: a read counts one draw of free values and names the condition; the block is not looked at. -/
theorem test_invalid_reads :
    ∀ i ∈ [Instr.noneRdInv8 0x8000#16, .noneRdInvc 0xC000#16, .mbc1RdInv8 0x8000#16, .mbc1RdInvc 0xFFE0#16,
        .mbc2RdInv8 0x8000#16, .mbc2RdInvc 0xE000#16, .mbc3RdInv8 0x8000#16, .mbc3RdInvc 0xC000#16,
        .mbc5RdInv8 0x8000#16, .mbc5RdInvc 0xFFE0#16],
      fault (exec i (dev cfgMbc1 1 0 false false)) = .some .invalidWindow ∧
      (after (exec i (dev cfgMbc1 1 0 false false))).map (·.free) = .some 1 := by
  intro i hi
  simp only [List.mem_cons, List.not_mem_nil, or_false] at hi
  rcases hi with rfl | rfl | rfl | rfl | rfl | rfl | rfl | rfl | rfl | rfl <;> exact ⟨rfl, rfl⟩

/-- X-3: a write does nothing. -/
theorem test_invalid_writes :
    ∀ i ∈ [Instr.noneWrInv8 0x9FE0#16 (db 0), .noneWrInvc 0xE000#16 (db 0), .mbc1WrInv8 0x8000#16 (db 0),
        .mbc1WrInvc 0xC000#16 (db 0), .mbc2WrInv8 0x9FE0#16 (db 0), .mbc2WrInvc 0xE000#16 (db 0),
        .mbc3WrInv8 0x8000#16 (db 0), .mbc3WrInvc 0xC000#16 (db 0), .mbc5WrInv8 0x9FE0#16 (db 0),
        .mbc5WrInvc 0xE000#16 (db 0)],
      exec i (dev cfgMbc5 1 0 false false) =
        .next { dev cfgMbc5 1 0 false false with diag := ⟨.none, .some .invalidWindow⟩ } := by
  intro i hi
  simp only [List.mem_cons, List.not_mem_nil, or_false] at hi
  rcases hi with rfl | rfl | rfl | rfl | rfl | rfl | rfl | rfl | rfl | rfl <;> rfl

/-! ## A step -/

/-- A placed word is run by the next step, on a cartridge with its strap code. -/
theorem test_step_placed :
    bankAfter (step (State.reset.withFetchWord 24 0xB5000)) = .some ⟨1#9, 0#4, false, false⟩ ∧
    (after (step (State.reset.withFetchWord 24 0xB5000))).map (·.diag.op) =
      .some (.some (.mbc5WrRamb 0x5000#16 Block.zero)) := by decide

/-- A write waiting in the inbox (S9), then one with a misaligned address (X-5). -/
theorem test_step_inbox :
    (after (step { dev cfgMbc5 1 0 false false with inbox := [.write 0x2000#16 (wrb 0x05#8) 0#64, .save] })).map
      (fun s => (s.bank.romBank, s.inbox)) = .some (5#9, [.save]) ∧
    isRefusal (step { dev cfgMbc1 1 0 false false with inbox := [.write 0x201F#16 (db 0) 0#64] }) .unaligned = true := by
  decide

/-- R349: with nothing issued, nothing happens. -/
theorem test_step_idle : step State.reset = .next State.reset := rfl

/-! ## Load, save, unload -/

/-- Z-2: the power-on pattern. -/
theorem test_cold_ram :
    (dev cfgNone 1 0 false false).ramByte 127 = 0x00#8 ∧ (dev cfgNone 1 0 false false).ramByte 128 = 0xFF#8 ∧
    (dev cfgNone 1 0 false false).ramByte 256 = 0x00#8 ∧ (dev cfgNone 1 0 false false).ramByte 8191 = 0xFF#8 := by
  decide

/-- Z-3. -/
theorem test_cold_clock : loadedRtc ⟨cfgClock, [], .none, .none, 5000#64⟩ =
    .some ⟨⟨0#8, 0#8, 0#8, 0#8, 0#8⟩, ⟨0#8, 0#8, 0#8, 0#8, 0#8⟩, false, 5000#64⟩ := by decide

/-- Z-4, Z-5. -/
theorem test_restored_clock :
    loadedRtc ⟨cfgClock, [], .none, .some ⟨⟨50#8, 59#8, 23#8, 0#8, 0#8⟩, ⟨1#8, 2#8, 3#8, 4#8, 5#8⟩, 1000#64⟩, 1020#64⟩ =
      .some ⟨⟨10#8, 0#8, 0#8, 1#8, 0#8⟩, ⟨1#8, 2#8, 3#8, 4#8, 5#8⟩, false, 1020#64⟩ ∧
    loadedRtc ⟨cfgClock, [], .none, .some ⟨⟨50#8, 59#8, 23#8, 0#8, 0#8⟩, ⟨1#8, 2#8, 3#8, 4#8, 5#8⟩, 1000#64⟩, 999#64⟩ =
      .none := by decide

/-- S7, on a small array: the image is cut to size, a deficit is zeros. -/
theorem test_restored_bytes :
    restoredBytes [1#8, 2#8] 4 = [1#8, 2#8, 0#8, 0#8] ∧ restoredBytes [1#8, 2#8, 3#8] 2 = [1#8, 2#8] := by decide

/-- A load of a whole ROM image of zeros. -/
def launch : Launch := ⟨cfgNone, List.replicate 32768 0#8, .none, .none, 7#64⟩

theorem launch_wf : launch.wf = true := by
  simp only [Launch.wf, launch, List.length_replicate]
  decide

/-- Z-1. -/
theorem test_load : load launch State.reset = .next (loadedState launch (.cold 7#64) State.reset) := by
  rw [load, launch_wf]
  rfl

/-- X-6, and R332: nothing is possible after an unload. -/
theorem test_refusals :
    isRefusal (load ⟨⟨.mmm01, false, false, false, false, 2, 0, 0⟩, [], .none, .none, 0#64⟩ State.reset)
      .unsupportedMapper = true ∧
    isRefusal (load ⟨cfgNone, [0#8], .none, .none, 0#64⟩ State.reset) .illFormedConfig = true ∧
    isRefusal (step { State.reset with loaded := false, inbox := [.read 0x0000#16 0#64] }) .notLoaded = true := by
  decide

/-- R331: without a battery nothing is saved. -/
theorem test_save_without_battery : save State.reset = .next State.reset := rfl

/-! ## Witnesses

For each obligation with hypotheses, concrete values that meet them, for each clause, at the ends of the ranges. -/

/-- Devices whose requests are the ones given. -/
def waiting (c : Cfg) (q : Request) : State := { dev c 1 0 false false with inbox := [q] }

/-- A clock cartridge whose seconds register is selected, as a load at 100 left it. -/
def ticking : State := clock 8 (.cold 100#64) 130#64

/-- The saved clock of Z-4. -/
def savedClock : RtcImage := ⟨⟨50#8, 59#8, 23#8, 0#8, 0#8⟩, ⟨1#8, 2#8, 3#8, 4#8, 5#8⟩, 1000#64⟩

/-- A load of a clock cartridge. -/
def clockLaunch (ramInit : Option (List Byte)) (rtcInit : Option RtcImage) (now : Seconds) : Launch :=
  ⟨{ cfgClock with romBanks := 2 }, List.replicate 32768 0#8, ramInit, rtcInit, now⟩

theorem clockLaunch_wf (r : Option (List Byte)) (c : Option RtcImage) (now : Seconds) :
    (clockLaunch r c now).wf = true := by
  simp only [Launch.wf, clockLaunch, List.length_replicate]
  decide

theorem clockLaunch_next (r : Option (List Byte)) : ∃ t, load (clockLaunch r .none 7#64) State.reset = .next t := by
  refine ⟨loadedState (clockLaunch r .none 7#64) (.cold 7#64) State.reset, ?_⟩
  rw [load, clockLaunch_wf]
  rfl

theorem witness_DecodeOfEncodeIsIdentity : (Instr.mbc5WrRombh 0x3FE0#16 (db 0)).wf = true := by decide

theorem witness_EncodeOfDecodeIsIdentity :
    decode 0xB3FE0#20 (db 0) = .instr (.mbc5WrRombh 0x3FE0#16 (db 0)) ∧
    (Instr.mbc5WrRombh 0x3FE0#16 (db 0)).shape.write = true := by decide

theorem witness_DecodeRefusesExactly :
    0x80000 / 131072 = 4 ∧ 0xC0000 / 131072 = 6 ∧ 0xFFFFF / 131072 = 7 ∧
    (0xBFFFF / 131072 = 5 ∧ 0xBFFFF % 32 ≠ 0) ∧ (0xBFFE0 / 131072 = 5 ∧ 0xBFFE0 % 32 = 0) := by decide

theorem witness_OneTableRowMatches :
    (Mapper.ofStrap (CmdWord.strap 0xBFFE0#20)).modelled = true ∧ (0xBFFE0#20).toNat % 32 = 0 := by decide

theorem witness_OffsetsAreAssembledBits :
    (0x4000 ≤ (0x4000#16).toNat ∧ (0x4000#16).toNat ≤ 0x7FFF) ∧
    (0x4000 ≤ (0x7FFF#16).toNat ∧ (0x7FFF#16).toNat ≤ 0x7FFF) ∧
    (0xA000 ≤ (0xA000#16).toNat ∧ (0xA000#16).toNat ≤ 0xBFFF) ∧
    (0xA000 ≤ (0xBFFF#16).toNat ∧ (0xBFFF#16).toNat ≤ 0xBFFF) := by decide

theorem witness_StepRunsDecodedTransaction :
    let s := waiting cfgMbc5 (.read 0xBFE0#16 9#64)
    let u := waiting cfgMbc5 (.write 0x3FE0#16 (db 1) 9#64)
    (s.loaded = true ∧ s.inbox = [.read 0xBFE0#16 9#64] ∧
      decode (commandWord s.cfg.mapper false 0xBFE0#16) Block.zero = .instr (.mbc5RdRam 0xBFE0#16)) ∧
    (u.loaded = true ∧ u.inbox = [.write 0x3FE0#16 (db 1) 9#64] ∧
      decode (commandWord u.cfg.mapper true 0x3FE0#16) (db 1) = .instr (.mbc5WrRombh 0x3FE0#16 (db 1))) := by decide

theorem witness_ImpossibleTransactionsAreRefused :
    let s := waiting cfgMbc1 (.read 0x001F#16 0#64)
    let u := waiting { cfgMbc1 with mapper := .mmm01 } (.write 0x0000#16 (db 0) 0#64)
    (s.inbox = [.read 0x001F#16 0#64] ∧ ({ s with loaded := false } : State).loaded = false) ∧
    (u.inbox = [.write 0x0000#16 (db 0) 0#64] ∧ u.loaded = true ∧ u.cfg.mapper.modelled = false) ∧
    (s.loaded = true ∧ s.cfg.mapper.modelled = true ∧ (0x001F#16).toNat % 32 ≠ 0) := by decide

theorem witness_StepServesHostRequests :
    State.reset.inbox = [] ∧ (waiting cfgNone (.load launch)).inbox = [.load launch] ∧
    (waiting cfgNone .save).inbox = [.save] ∧ (waiting cfgNone .unload).inbox = [.unload] := ⟨rfl, rfl, rfl, rfl⟩

theorem witness_PlacedWordIsRunNext : decodeTableWord 24 0xBFFE0 = .some (.mbc5WrInvc 0xFFE0#16 Block.zero) := by decide

theorem witness_AlignedTransactionsComplete :
    let s := waiting cfgClock (.read 0xBFE0#16 9#64)
    let u := waiting cfgClock (.write 0x6000#16 (wrb 1) 9#64)
    (s.loaded = true ∧ s.cfg.mapper.modelled = true ∧ (0xBFE0#16).toNat % 32 = 0 ∧
      s.inbox = [.read 0xBFE0#16 9#64]) ∧
    (u.loaded = true ∧ u.cfg.mapper.modelled = true ∧ (0x6000#16).toNat % 32 = 0 ∧
      u.inbox = [.write 0x6000#16 (wrb 1) 9#64]) := by decide

theorem witness_FixedRomReads :
    ∀ i ∈ [Instr.noneRdRom 0x3FE0#16, .mbc1RdRom0 0x3FE0#16, .mbc2RdRom0 0x3FE0#16, .mbc3RdRom0 0x3FE0#16,
      .mbc5RdRom0 0x3FE0#16], i.wf = true := by decide

theorem witness_BankedRomReads :
    (∀ i ∈ [Instr.mbc1RdRomx 0x7FE0#16, .mbc2RdRomx 0x7FE0#16, .mbc3RdRomx 0x7FE0#16, .mbc5RdRomx 0x7FE0#16],
      i.wf = true) ∧
    (dev cfgMbc5 127 0 false false).bank.romBank.toNat < (dev cfgMbc5 127 0 false false).cfg.romBanks ∧
    (dev cfgMbc5 128 0 false false).cfg.romBanks ≤ (dev cfgMbc5 128 0 false false).bank.romBank.toNat := by decide

theorem witness_BankedRamReads :
    (∀ i ∈ [Instr.mbc1RdRam 0xBFE0#16, .mbc3RdRam 0xBFE0#16, .mbc5RdRam 0xBFE0#16], i.wf = true) ∧
    (let s := dev cfgMbc3 1 3 false false
     s.cfg.hasTimer = false ∧ s.cfg.ramPresent = true ∧ s.bank.ramBank.toNat < s.cfg.ramBanks) ∧
    (let s := dev { cfgMbc3 with ramBanks := 0 } 1 0 false false
     s.cfg.hasTimer = false ∧ s.cfg.ramPresent = false) ∧
    (let s := dev cfgMbc3 1 4 false false
     s.cfg.hasTimer = false ∧ s.cfg.ramPresent = true ∧ s.cfg.ramBanks ≤ s.bank.ramBank.toNat) := by decide

/-- A device without a timer does not show the RTC. -/
theorem no_window_without_timer {s : State} (h : s.cfg.hasTimer = false) : ¬ s.RtcWindow :=
  fun w => by simp [State.RtcWindow, h] at w

theorem witness_BankedRamWrites :
    (∀ i ∈ [Instr.mbc1WrRam 0xBFE0#16 (db 0), .mbc3WrRam 0xBFE0#16 (db 0), .mbc5WrRam 0xBFE0#16 (db 0)],
      i.wf = true) ∧ Memory.wf ramBlank (dev cfgMbc3 1 3 false false).ram ∧
    ¬ (dev cfgMbc3 1 3 false false).RtcWindow := by
  exact ⟨by decide, by decide, no_window_without_timer rfl⟩

theorem witness_Mbc2RamIsGated :
    (Instr.mbc2RdRam 0xBFE0#16).wf = true ∧ (Instr.mbc2WrRam 0xBFE0#16 (db 0)).wf = true ∧
    (let s := dev cfgMbc2 1 0 true false
     Memory.wf ramBlank s.ram ∧ s.cfg.ramPresent = true ∧ s.bank.ramEn = true ∧
       s.bank.ramBank.toNat < s.cfg.ramBanks) ∧
    (dev { cfgMbc2 with hasRam := false } 1 0 true false).cfg.ramPresent = false ∧
    (let s := dev cfgMbc2 1 0 false false
     s.cfg.ramPresent = true ∧ s.bank.ramEn = false) ∧
    (let s := dev cfgMbc2 1 1 true false
     s.cfg.ramPresent = true ∧ s.bank.ramEn = true ∧ s.cfg.ramBanks ≤ s.bank.ramBank.toNat) := by decide

theorem witness_NoneRamIsFlat :
    (Instr.noneRdRam 0xA7E0#16).wf = true ∧ (Instr.noneWrRam 0xA7E0#16 (db 0)).wf = true ∧
    (Instr.noneRdRam 0xA800#16).wf = true ∧ (Instr.noneWrRam 0xA800#16 (db 0)).wf = true ∧
    (let s := dev cfgQuarter 1 0 false false
     Memory.wf ramBlank s.ram ∧ s.cfg.ramPresent = true ∧ s.cfg.ramQuarters = 1) ∧
    ((0xA7E0#16).toNat ≤ 0xA7FF ∧ 0xA7FF < (0xA800#16).toNat) ∧
    (dev { cfgNone with hasRam := false } 1 0 false false).cfg.ramPresent = false := by decide

/-- The last block of quarter-sized RAM on NONE, and of the last bank elsewhere. -/
theorem witness_RamReadReturnsWhatWasWritten :
    (let s := dev cfgQuarter 1 0 false false
     (Instr.noneWrRam 0xA7E0#16 (db 9)).wf = true ∧ Memory.wf ramBlank s.ram ∧ s.cfg.ramPresent = true ∧
       s.cfg.ramQuarters = 1 ∧ (0xA7E0#16).toNat ≤ 0xA7FF) ∧
    (let s := dev cfgMbc2 1 0 true false
     (Instr.mbc2WrRam 0xBFE0#16 (db 9)).wf = true ∧ s.cfg.ramPresent = true ∧
       s.bank.ramBank.toNat < s.cfg.ramBanks ∧ s.bank.ramEn = true) ∧
    (let s := dev cfgMbc3 1 3 false false
     (Instr.mbc3WrRam 0xBFE0#16 (db 9)).wf = true ∧ s.cfg.ramPresent = true ∧
       s.bank.ramBank.toNat < s.cfg.ramBanks ∧ ¬ s.RtcWindow) :=
  ⟨by decide, by decide, by decide, by decide, by decide, no_window_without_timer rfl⟩

theorem witness_TranslationsStayInside :
    (cfgMbc5.wf = true ∧ (0x7FE0#16).toNat % 32 = 0 ∧ (0xBFE0#16).toNat % 32 = 0) ∧
    romTarget 0x7FE0#16 (dev cfgMbc5 127 0 false false) = .at 0x1FFFE0 ∧
    ramTarget 0xBFE0#16 (dev cfgMbc5 1 15 false false) = .at 0x1FFE0 ∧
    gatedRamTarget 0xBFE0#16 (dev cfgMbc2 1 0 true false) = .at 0x1FE0 ∧
    flatRamTarget 0xBFE0#16 (dev cfgNone 1 0 false false) = .at 0x1FE0 := by decide

theorem witness_InvalidWindowReads :
    ∀ i ∈ [Instr.noneRdInv8 0x9FE0#16, .noneRdInvc 0xFFE0#16, .mbc1RdInv8 0x9FE0#16, .mbc1RdInvc 0xFFE0#16,
      .mbc2RdInv8 0x9FE0#16, .mbc2RdInvc 0xFFE0#16, .mbc3RdInv8 0x9FE0#16, .mbc3RdInvc 0xFFE0#16,
      .mbc5RdInv8 0x9FE0#16, .mbc5RdInvc 0xFFE0#16], i.wf = true := by decide

theorem witness_InvalidWindowWrites :
    ∀ i ∈ [Instr.noneWrInv8 0x9FE0#16 (db 0), .noneWrInvc 0xFFE0#16 (db 0), .mbc1WrInv8 0x9FE0#16 (db 0),
      .mbc1WrInvc 0xFFE0#16 (db 0), .mbc2WrInv8 0x9FE0#16 (db 0), .mbc2WrInvc 0xFFE0#16 (db 0),
      .mbc3WrInv8 0x9FE0#16 (db 0), .mbc3WrInvc 0xFFE0#16 (db 0), .mbc5WrInv8 0x9FE0#16 (db 0),
      .mbc5WrInvc 0xFFE0#16 (db 0)], i.wf = true := by decide

theorem witness_NoEffectWrites :
    ∀ i ∈ [Instr.noneWrRom 0x7FE0#16 (db 0), .mbc2WrNop 0x7FE0#16 (db 0), .mbc5WrNop 0x7FE0#16 (db 0)],
      i.wf = true := by decide

theorem witness_RamEnablePorts :
    ∀ i ∈ [Instr.mbc1WrRamen 0x1FE0#16 (db 10), .mbc2WrRamen 0x1FE0#16 (db 10), .mbc3WrRamen 0x1FE0#16 (db 10),
      .mbc5WrRamen 0x1FE0#16 (db 10)], i.wf = true := by decide

/-- The operands of the bank ports: the last block of each window. -/
theorem witness_ports :
    ∀ i ∈ [Instr.mbc1WrRomb 0x3FE0#16 (db 0), .mbc1WrBank2 0x5FE0#16 (db 0), .mbc1WrMode 0x7FE0#16 (db 0),
      .mbc2WrRomb 0x3FE0#16 (db 0), .mbc3WrRomb 0x3FE0#16 (db 0), .mbc3WrSel 0x5FE0#16 (db 0),
      .mbc5WrRombl 0x2FE0#16 (db 0), .mbc5WrRombh 0x3FE0#16 (db 0), .mbc5WrRamb 0x5FE0#16 (db 0)],
      i.wf = true := by decide

theorem witness_Mbc1RomBankPort : (Instr.mbc1WrRomb 0x2000#16 (db 0)).wf = true := by decide

/-- Both values of `mode`. -/
theorem witness_Mbc1MagicPort :
    (Instr.mbc1WrBank2 0x4000#16 (db 0)).wf = true ∧ (dev cfgMbc1 1 3 false true).bank.mode = true ∧
    (dev cfgMbc1 0x61 0 false false).bank.mode = false := by decide

/-- Entering, leaving, and writing the same mode again. -/
theorem witness_Mbc1ModePort :
    (Instr.mbc1WrMode 0x6000#16 (db 1)).wf = true ∧ (db 1)[0].toNat % 2 = 1 ∧ (db 0)[0].toNat % 2 = 0 ∧
    (dev cfgMbc1 1 3 false true).bank.mode = true ∧ (dev cfgMbc1 0x61 0 false false).bank.mode = false := by decide

theorem witness_Mbc1MagicBitsLaw :
    cfgMbc1.mapper = .mbc1 ∧ (dev cfgMbc1 0x7F 0 false false).bank.Legal cfgMbc1 ∧
    (dev cfgMbc1 0x1F 3 false true).bank.Legal cfgMbc1 ∧
    (Instr.mbc1WrBank2 0x4000#16 (db 3)).wf = true ∧ (Instr.mbc1WrMode 0x7FE0#16 (db 1)).wf = true ∧
    (Instr.mbc1WrRomb 0x2000#16 (db 0)).wf = true :=
  ⟨rfl, (legal_mbc1 rfl).2 (by decide), (legal_mbc1 rfl).2 (by decide), by decide⟩

/-- S3, steps 3 and 4. -/
theorem witness_Mbc1ModeRoundTrip :
    let s := dev cfgMbc1 0x45 0 false false
    s.cfg.mapper = .mbc1 ∧ s.bank.Legal s.cfg ∧ s.bank.mode = false ∧
    (Instr.mbc1WrMode 0x6000#16 (wrb 1)).wf = true ∧ (Instr.mbc1WrMode 0x6000#16 (wrb 0)).wf = true ∧
    (wrb 1)[0].toNat % 2 = 1 ∧
    (wrb 0)[0].toNat % 2 = 0 ∧ ∃ t u, exec (.mbc1WrMode 0x6000#16 (wrb 1)) s = .next t ∧
      exec (.mbc1WrMode 0x6000#16 (wrb 0)) t = .next u :=
  ⟨rfl, (legal_mbc1 rfl).2 (by decide), rfl, by decide, by decide, by decide, by decide, _, _, rfl, rfl⟩

theorem witness_Mbc2RomBankPort : (Instr.mbc2WrRomb 0x2000#16 (db 0)).wf = true := by decide

theorem witness_Mbc3RomBankPort : (Instr.mbc3WrRomb 0x2000#16 (db 0)).wf = true := by decide

/-- The values at the ends of the accepted ranges, and beside them. -/
theorem witness_Mbc3SelectPort :
    (Instr.mbc3WrSel 0x4000#16 (db 3)).wf = true ∧ (db 3)[0].toNat ≤ 3 ∧
    (cfgClock.hasTimer = true ∧ 8 ≤ (db 8)[0].toNat ∧ (db 12)[0].toNat ≤ 12) ∧
    ¬ ((db 4)[0].toNat ≤ 3 ∨ 8 ≤ (db 4)[0].toNat) ∧ ¬ (db 13)[0].toNat ≤ 12 := by decide

theorem witness_Mbc5RomBankPorts :
    (Instr.mbc5WrRombl 0x2FE0#16 (db 0)).wf = true ∧ (Instr.mbc5WrRombh 0x3000#16 (db 0)).wf = true := by decide

theorem witness_Mbc5RamBankPort : (Instr.mbc5WrRamb 0x4000#16 (db 0)).wf = true := by decide

/-- No time at all, and 30 seconds. -/
theorem witness_TickFollowsTheChain :
    ticking.rtc.last.toNat ≤ (100#64 : Seconds).toNat ∧ ticking.rtc.last.toNat ≤ ticking.now.toNat := by decide

theorem witness_TickConservesTime : ∃ r', tick 130#64 ticking.rtc = .some r' := ⟨_, rfl⟩

theorem witness_TickNormalisesAndIsIdempotent :
    ∃ r', tick 0#64 ⟨⟨0xFF#8, 0xFF#8, 0xFF#8, 0xFF#8, 0xFF#8⟩, .zero, false, 0#64⟩ = .some r' := ⟨_, rfl⟩

theorem witness_TicksCompose :
    ticking.rtc.last.toNat ≤ (100#64 : Seconds).toNat ∧ (100#64 : Seconds).toNat ≤ (130#64 : Seconds).toNat := by decide

theorem ticking_window : ticking.RtcWindow := ⟨rfl, by decide, by decide⟩

theorem witness_BackwardsClockIsRefused :
    let s : State := { ticking with now := 99#64 }
    let p := clockLaunch .none (.some savedClock) 999#64
    ((Instr.mbc3RdRam 0xBFE0#16).wf = true ∧ s.now.toNat < s.rtc.last.toNat ∧ s.RtcWindow ∧
      s.rtc.latched = false) ∧
    ((Instr.mbc3WrLatch 0x6000#16 (wrb 1)).wf = true ∧ s.cfg.hasTimer = true ∧ (wrb 1)[0].toNat % 2 = 1) ∧
    (p.wf = true ∧ p.cfg.hasRtc = true ∧ p.rtcInit = .some savedClock ∧ p.now.toNat < savedClock.last.toNat) :=
  ⟨⟨by decide, by decide, ticking_window, rfl⟩, ⟨by decide, rfl, by decide⟩, clockLaunch_wf _ _ _, rfl, rfl,
    by decide⟩

/-- Latched, and not latched with a clock that ticks. -/
theorem witness_Mbc3RtcRead :
    let s : State := { ticking with rtc := { ticking.rtc with latched := true } }
    (Instr.mbc3RdRam 0xBFE0#16).wf = true ∧ ticking.RtcWindow ∧
    RtcReg.ofBank ticking.bank.ramBank = .some .seconds ∧ s.rtc.latched = true ∧ ticking.rtc.latched = false ∧
    ∃ r, tick ticking.now ticking.rtc = .some r :=
  ⟨by decide, ticking_window, rfl, rfl, rfl, _, rfl⟩

theorem witness_Mbc3RtcWrite :
    (Instr.mbc3WrRam 0xBFE0#16 (db 0x41)).wf = true ∧ ticking.RtcWindow ∧
    RtcReg.ofBank ticking.bank.ramBank = .some .seconds := ⟨by decide, ticking_window, rfl⟩

theorem witness_Mbc3LatchPort :
    (Instr.mbc3WrLatch 0x7FE0#16 (wrb 1)).wf = true ∧ cfgMbc3.hasTimer = false ∧ ticking.cfg.hasTimer = true ∧
    (wrb 0)[0].toNat % 2 = 0 ∧ (wrb 1)[0].toNat % 2 = 1 ∧ ∃ r, tick ticking.now ticking.rtc = .some r :=
  ⟨by decide, rfl, rfl, by decide, by decide, _, rfl⟩

/-- A read of the clock that ticks. -/
theorem witness_LastTickNeverMovesBack :
    let q := Request.read 0xA000#16 130#64
    let s : State := { ticking with inbox := [q] }
    s.inbox = [q] ∧ q.isBus = true ∧ ∃ t, step s = .next t := ⟨rfl, rfl, _, rfl⟩

theorem witness_LoadResetsBankRegisters : ∃ t, load (clockLaunch .none .none 7#64) State.reset = .next t :=
  clockLaunch_next _

theorem clockLaunch_length (r : Option (List Byte)) (c : Option RtcImage) (now : Seconds) :
    (clockLaunch r c now).rom.length = (clockLaunch r c now).cfg.romBanks * 16384 := by
  simp only [clockLaunch, List.length_replicate]

/-- A restored clock that reads as the load's, and one a second later. -/
theorem witness_LoadCompletesExactly :
    (let p := clockLaunch .none (.some savedClock) 1000#64
     p.cfg.wf = true ∧ p.rom.length = p.cfg.romBanks * 16384 ∧ p.cfg.hasRtc = true ∧
       p.rtcInit = .some savedClock ∧ savedClock.last.toNat ≤ p.now.toNat) ∧
    Mapper.modelled .mmm01 = false ∧
    (Mapper.modelled .mbc1 = true ∧ Cfg.wf ⟨.mbc1, false, false, false, false, 3, 0, 0⟩ = false) ∧
    (let p := clockLaunch .none (.some savedClock) 999#64
     p.cfg.wf = true ∧ p.rom.length = p.cfg.romBanks * 16384 ∧ p.cfg.hasRtc = true ∧
       p.rtcInit = .some savedClock ∧ p.now.toNat < savedClock.last.toNat) :=
  ⟨⟨rfl, clockLaunch_length _ _ _, rfl, rfl, by decide⟩, rfl, ⟨rfl, rfl⟩, rfl, clockLaunch_length _ _ _, rfl, rfl,
    by decide⟩

/-- The first and the last byte of RAM. -/
theorem witness_ColdRamPattern :
    (∃ t, load (clockLaunch .none .none 7#64) State.reset = .next t) ∧
    (clockLaunch .none .none 7#64).cfg.ramPresent = true ∧ (clockLaunch .none .none 7#64).ramInit = .none ∧
    32767 < (clockLaunch .none .none 7#64).cfg.ramBanks * 8192 := ⟨clockLaunch_next _, rfl, rfl, by decide⟩

/-- A byte of the image, and one beyond it; the restored clock reads as the load's. -/
theorem witness_RestoredRamBytes :
    let p := clockLaunch (.some [5#8]) (.some savedClock) 1000#64
    p.wf = true ∧ p.cfg.hasRtc = true ∧ p.rtcInit = .some savedClock ∧ savedClock.last.toNat ≤ p.now.toNat ∧
    p.cfg.ramPresent = true ∧ p.ramInit = .some [5#8] ∧
    (0 < p.cfg.ramBanks * 8192 ∧ 0 < [5#8].length) ∧ (1 < p.cfg.ramBanks * 8192 ∧ [5#8].length ≤ 1) :=
  ⟨clockLaunch_wf _ _ _, rfl, rfl, by decide, rfl, rfl, by decide, by decide⟩

theorem witness_RtcAfterLoad :
    ((∃ t, load (clockLaunch .none .none 7#64) State.reset = .next t) ∧
      (clockLaunch .none .none 7#64).cfg.hasRtc = true ∧ (clockLaunch .none .none 7#64).rtcInit = .none) ∧
    ((∃ t, load (clockLaunch .none (.some savedClock) 1020#64) State.reset = .next t) ∧
      (clockLaunch .none (.some savedClock) 1020#64).rtcInit = .some savedClock) := by
  refine ⟨⟨clockLaunch_next _, rfl, rfl⟩, ⟨loadedState (clockLaunch .none (.some savedClock) 1020#64)
    ⟨⟨10#8, 0#8, 0#8, 1#8, 0#8⟩, ⟨1#8, 2#8, 3#8, 4#8, 5#8⟩, false, 1020#64⟩ State.reset, ?_⟩, rfl⟩
  rw [load, clockLaunch_wf]
  rfl

theorem witness_SaveWritesTheImage :
    ticking.loaded = true ∧ ticking.cfg.hasBattery = true ∧ ticking.cfg.ramPresent = true ∧
    ticking.cfg.hasRtc = true ∧ cfgMbc1.hasRtc = false ∧ State.reset.cfg.hasBattery = false := by decide

/-- The clock cartridge that `clockLaunch` loads. -/
def saving : State := { dev { cfgClock with romBanks := 2 } 1#9 0#4 false false with rtc := .cold 100#64 }

theorem saving_inv : saving.Inv where
  cfg_wf := rfl
  rom_wf := by decide
  rom_size := by decide
  ram_wf := by decide
  ram_size := by decide
  ram_absent := by decide
  bank_legal := ⟨by decide, rfl, .inl (by decide)⟩
  rtc_absent := fun h => by simp [saving, dev, cfgClock, Cfg.hasRtc] at h

theorem witness_SaveThenLoadRestores :
    let p := clockLaunch (.some saving.image.ram) saving.image.rtc 130#64
    saving.Inv ∧ saving.loaded = true ∧ saving.cfg.hasBattery = true ∧ saving.cfg.ramPresent = true ∧
    (∃ t, save saving = .next t ∧ t.saved = .some saving.image) ∧ p.cfg = saving.cfg ∧ p.wf = true ∧
    p.ramInit = .some saving.image.ram ∧ p.rtcInit = saving.image.rtc ∧
    (saving.cfg.hasRtc = true → saving.rtc.last.toNat ≤ p.now.toNat) :=
  ⟨saving_inv, rfl, rfl, rfl, ⟨{ saving with saved := .some saving.image }, rfl, rfl⟩, rfl, clockLaunch_wf _ _ _,
    rfl, rfl, fun _ => by decide⟩

theorem witness_IdentifiedCartridgesAreWellFormed :
    identityOfHeader true 0x10#8 0x05#8 0x03#8 = .cfg cfgClock ∧
    identityOfHeader true 0x10#8 0x05#8 0x01#8 = .cfg { cfgClock with ramBanks := 1, ramQuarters := 1 } := by decide

/-- A port that is written. -/
theorem witness_StepKeepsInvariant :
    let s : State := { saving with inbox := [.write 0x2000#16 (wrb 5) 0#64] }
    s.Inv ∧ ∃ t, step s = .next t :=
  ⟨⟨saving_inv.cfg_wf, saving_inv.rom_wf, saving_inv.rom_size, saving_inv.ram_wf, saving_inv.ram_size,
    saving_inv.ram_absent, saving_inv.bank_legal, saving_inv.rtc_absent⟩, _, rfl⟩

theorem witness_TransactionsLeaveTheCartridge :
    let q := Request.write 0x2000#16 (wrb 5) 0#64
    let s : State := { saving with inbox := [q] }
    s.inbox = [q] ∧ q.isBus = true ∧ ∃ t, step s = .next t := ⟨rfl, rfl, _, rfl⟩

/-- A write in each of the classes. -/
theorem witness_WritesStayInTheirClass :
    ∀ i ∈ [Instr.mbc3WrLatch 0x7FE0#16 (wrb 1), .mbc3WrRam 0xA000#16 (wrb 1), .mbc3WrRam 0xBFE0#16 (wrb 1),
        .mbc3WrInv8 0x8000#16 (wrb 1), .mbc3WrInv8 0x9FE0#16 (wrb 1), .mbc3WrInvc 0xC000#16 (wrb 1)],
      i.wf = true ∧ i.shape.write = true ∧ ∃ t, exec i ticking = .next t := by
  intro i hi
  simp only [List.mem_cons, List.not_mem_nil, or_false] at hi
  rcases hi with rfl | rfl | rfl | rfl | rfl | rfl <;> exact ⟨by decide, rfl, _, rfl⟩

theorem witness_ReadsChangeOnlyTheClock :
    (Instr.mbc3RdRam 0xA000#16).wf = true ∧ (Instr.mbc3RdRam 0xA000#16).shape.write = false ∧
    ∃ t, exec (.mbc3RdRam 0xA000#16) ticking = .next t := ⟨by decide, rfl, _, rfl⟩

/-- One transaction that goes on, and one that is refused. -/
theorem witness_EnableIsUnobservableButOnMbc2 :
    let q := Request.read 0xA000#16 130#64
    let q' := Request.read 0xA000#16 99#64
    let s : State := { ticking with inbox := [q] }
    let u : State := { ticking with inbox := [q'] }
    (s.inbox = [q] ∧ q.isBus = true ∧ s.cfg.mapper ≠ .mbc2 ∧ ∃ t, step s = .next t) ∧
    (u.inbox = [q'] ∧ q'.isBus = true ∧ u.cfg.mapper ≠ .mbc2 ∧ ∃ r, step u = .refused r) :=
  ⟨⟨rfl, rfl, by decide, _, rfl⟩, rfl, rfl, by decide, _, rfl⟩

/-- An MMM01 code; the last code of the table with a RAM code just outside the table and with its last one. -/
theorem witness_HeadersAreRefusedExactly :
    let known := [0x00, 0x01, 0x02, 0x03, 0x05, 0x06, 0x08, 0x09, 0x0F, 0x10, 0x11, 0x12, 0x13, 0x19, 0x1A,
      0x1B, 0x1C, 0x1D, 0x1E]
    (0x0B#8).toNat ∉ known ∧ (0x1E#8).toNat ∈ known ∧ 0x05 < (0x06#8).toNat ∧ (0x05#8).toNat ≤ 0x05 := by decide

end Sys2Proof.Tests
end

section
/-! PROOFS. The scope of the device (00_scope.md R8 to R12): what header bytes identify, and which launches load. -/

namespace Sys2Proof

variable {b : Bool} {type rom ram : Byte} {c : Cfg}

/-! ### The header tables -/

/-- The type codes of R10's table that name a modelled variant: all of them but MMM01's. -/
def modelledTypeCodes : List Nat :=
  [0x00, 0x01, 0x02, 0x03, 0x05, 0x06, 0x08, 0x09, 0x0F, 0x10, 0x11, 0x12, 0x13, 0x19, 0x1A, 0x1B, 0x1C, 0x1D, 0x1E]

theorem mem_modelledTypeCodes_iff :
    type.toNat ∈ modelledTypeCodes ↔ ∃ t, cartTypeOfCode b type = .some t ∧ t.mapper.modelled = true := by
  unfold cartTypeOfCode
  split <;> simp_all [modelledTypeCodes, Mapper.modelled]

theorem ramSizeOfCode_eq_none_iff : ramSizeOfCode ram = .none ↔ 0x05 < ram.toNat := by
  unfold ramSizeOfCode
  split <;> simp_all
  omega

theorem romBanksOfCode_mem (code : Byte) :
    romBanksOfCode code ∈ [2, 4, 8, 16, 32, 64, 128, 72, 80, 96] := by
  unfold romBanksOfCode
  split <;> decide

theorem ramSizeOfCode_mem {size : Nat × Nat} (h : ramSizeOfCode ram = .some size) :
    size ∈ [(0, 0), (1, 1), (1, 4), (4, 16), (16, 64), (8, 32)] := by
  unfold ramSizeOfCode at h
  split at h <;> cases h <;> decide

/-! ### The identity of a cartridge -/

theorem Cfg.wf_iff : c.wf = true ↔
    c.mapper.modelled = true ∧ c.sizesOk = true ∧ ¬ (c.hasTimer = true ∧ c.hasRam = true ∧ c.ramQuarters = 1) := by
  simp only [Cfg.wf, Cfg.quarterSized, Bool.and_eq_true, Bool.not_eq_true', Bool.eq_false_iff, ne_eq, beq_iff_eq,
    and_assoc]

theorem identityOfHeader_of_not_known (h : type.toNat ∉ modelledTypeCodes) :
    identityOfHeader b type rom ram = .refused .unsupportedMapper := by
  cases ht : cartTypeOfCode b type with
  | none => exact identityOfHeader_unknown ht
  | some t =>
    refine identityOfHeader_unmodelled ht (Bool.eq_false_iff.2 fun hm => h ?_)
    exact mem_modelledTypeCodes_iff.2 ⟨t, ht, hm⟩

theorem modelled_of_identityOfHeader (h : identityOfHeader b type rom ram = .cfg c) :
    c.mapper.modelled = true := by
  obtain ⟨t, banks, quarters, -, hm, -, rfl⟩ := identityOfHeader_eq_cfg.1 h
  exact hm

theorem sizesOk_of_identityOfHeader (h : identityOfHeader b type rom ram = .cfg c) : c.sizesOk = true := by
  obtain ⟨t, banks, quarters, -, -, hr, rfl⟩ := identityOfHeader_eq_cfg.1 h
  rw [Cfg.sizesOk, Bool.and_eq_true]
  exact ⟨List.contains_iff_mem.2 (romBanksOfCode_mem rom), List.contains_iff_mem.2 (ramSizeOfCode_mem hr)⟩

/-- Settles O60: the type code decides first, by `mem_modelledTypeCodes_iff`, then the RAM size code. -/
theorem headersAreRefusedExactly : Obligations.HeadersAreRefusedExactly := by
  intro b type rom ram known
  refine ⟨identityOfHeader_of_not_known, fun hk hram => ?_, fun hk hram => ?_⟩ <;>
    obtain ⟨t, ht, hm⟩ := (mem_modelledTypeCodes_iff (b := b)).1 hk
  · exact identityOfHeader_ramCode ht hm (ramSizeOfCode_eq_none_iff.2 hram)
  · cases hr : ramSizeOfCode ram with
    | none => exact absurd (ramSizeOfCode_eq_none_iff.1 hr) (by omega)
    | some size => exact ⟨_, identityOfHeader_eq_cfg.2 ⟨t, size.1, size.2, ht, hm, hr, rfl⟩⟩

/-- Settles O53: an identified cartridge has a modelled variant and sizes of the tables, so only R12's exclusion of a
timer with quarter-sized RAM is left of its well-formedness. -/
theorem identifiedCartridgesAreWellFormed : Obligations.IdentifiedCartridgesAreWellFormed := by
  intro b type rom ram c h
  have hm := modelled_of_identityOfHeader h
  have hs := sizesOk_of_identityOfHeader h
  rw [Cfg.wf_iff, and_iff_right hm, and_iff_right hs]

namespace Machine

variable {p : Launch} {s : State}

/-! ### The clock a load meets, and the ROM it leaves -/

theorem exists_loadedRtc_of_le (h : ∀ i, p.cfg.hasRtc = true → p.rtcInit = .some i → i.last.toNat ≤ p.now.toNat) :
    ∃ r, loadedRtc p = .some r ∧ r.latched = false := by
  by_cases hc : p.cfg.hasRtc = true ∧ p.rtcInit.isSome = true
  · obtain ⟨hr, hi⟩ := hc
    obtain ⟨i, hi⟩ := Option.isSome_iff_exists.1 hi
    rw [loadedRtc_restored hr hi, tick_of_le (h i hr hi)]
    exact ⟨_, rfl, rfl⟩
  · exact ⟨_, loadedRtc_cold fun hr => by simpa [hr] using hc, rfl⟩

theorem loadedState_romByte (r : Rtc) {k : Nat} (hk : k < p.rom.length) :
    (loadedState p r s).romByte k = p.rom[k] := by
  have : Memory.read romBlank (Memory.ofBytes romBlank 0 p.rom) k = p.rom[k] := by
    simp [Memory.read_ofBytes, hk]
  exact this

theorem Launch.wf_eq_false (h : p.cfg.wf = false ∨ p.rom.length ≠ p.cfg.romBytes) : p.wf = false :=
  Bool.eq_false_iff.2 fun hw => by
    obtain ⟨hc, hl⟩ := Launch.wf_iff.1 hw
    exact h.elim (by simp [hc]) (absurd hl)

/-- Settles O46: each refusal is its law of `load`, and where none applies the load leaves `loadedState`. -/
theorem loadCompletesExactly : Obligations.LoadCompletesExactly := by
  refine fun p s => ⟨fun hc hl hclock => ?_, load_unsupported, fun hm h => load_illFormed hm (Launch.wf_eq_false h),
    fun i hc hl hr hi hlt => load_backwards (Launch.wf_iff.2 ⟨hc, hl⟩) ?_⟩
  · obtain ⟨r, hr, hlatched⟩ := exists_loadedRtc_of_le hclock
    exact ⟨_, load_next.2 ⟨Launch.wf_iff.2 ⟨hc, hl⟩, r, hr, rfl⟩, rfl, rfl, rfl, rfl, hlatched,
      fun k hk => loadedState_romByte r hk⟩
  · rw [loadedRtc_restored hr hi]
    exact tick_eq_none.2 hlt

end Machine

end Sys2Proof
end

section
/-! PROOFS. The state of the device (10_state.md): its reset values, the invariant every step keeps, what a bus
transaction leaves of the cartridge, and that only MBC2 observes `ram_en`. -/

namespace Sys2Proof.Machine

variable {s t : State} {i : Instr} {q : Request} {rest : List Request}

/-! ### What a step runs -/

theorem step_of_inbox (h : s.inbox = q :: rest) : step s = serve q (s.withInbox rest) := by
  simp only [step, serveNext, h]

/-- A step with nothing issued changes nothing; any other serves the oldest request. -/
theorem step_next_cases (h : step s = .next t) :
    t = s ∨ ∃ q rest, s.inbox = q :: rest ∧ serve q (s.withInbox rest) = .next t := by
  cases hi : s.inbox with
  | nil =>
    simp only [step, serveNext, hi] at h
    exact .inl (Result.next_inj.1 h).symm
  | cons q rest => exact .inr ⟨q, rest, rfl, step_of_inbox hi ▸ h⟩

/-- A bus transaction that completes ran a well-formed instruction of the cartridge's own variant. -/
theorem transact_runs {w : Bool} {a : Addr} {d : Block} {now : Seconds} (h : transact w a d now s = .next t) :
    ∃ i, i.wf = true ∧ i.shape.mapper = s.cfg.mapper ∧ exec i (s.begin now i) = .next t := by
  unfold transact at h
  cases hl : s.loaded
  · simp [hl] at h
  · cases hd : decode (commandWord s.cfg.mapper w a) d with
    | reject r => simp [hl, hd] at h
    | instr i =>
      obtain ⟨-, hi⟩ := decode_isFor hd
      refine ⟨i, hi.wf, ?_, by simpa [hl, hd] using h⟩
      simpa using hi.mapper

/-- What a completed bus request did: an effect of one instruction of the cartridge's own variant. -/
theorem serve_bus_effect (hq : q.isBus = true) (h : serve q s = .next t) :
    ∃ i now, i.wf = true ∧ i.shape.mapper = s.cfg.mapper ∧ Effect i (s.begin now i) t := by
  cases q with
  | read a now | write a d now =>
    obtain ⟨i, hw, hm, he⟩ := transact_runs h
    exact ⟨i, now, hw, hm, exec_effect he⟩
  | load | save | unload => cases hq

/-! ### The bank registers after a load -/

theorem BankRegs.reset_legal (c : Cfg) : BankRegs.reset.Legal c := by
  unfold BankRegs.Legal
  cases c.mapper <;> simp [BankRegs.reset]

/-! ### The invariant -/

theorem Memory.wf_nil (blank : Nat → Byte) : Memory.wf blank [] := ⟨.nil, List.forall_mem_nil _⟩

/-- The invariant speaks of the configuration, the arrays, the bank registers and the RTC alone. -/
theorem State.Inv.of_eq (h : s.Inv) (hc : t.cfg = s.cfg) (hrom : t.rom = s.rom) (hram : t.ram = s.ram)
    (hb : t.bank = s.bank) (hr : t.rtc = s.rtc) : t.Inv where
  cfg_wf := by rw [hc]; exact h.cfg_wf
  rom_wf := by rw [hrom]; exact h.rom_wf
  rom_size := by rw [hrom, hc]; exact h.rom_size
  ram_wf := by rw [hram]; exact h.ram_wf
  ram_size := by rw [hram, hc]; exact h.ram_size
  ram_absent := by rw [hram, hc]; exact h.ram_absent
  bank_legal := by rw [hb, hc]; exact h.bank_legal
  rtc_absent := by rw [hr, hc]; exact h.rtc_absent

theorem State.Inv.withInbox (h : s.Inv) (l : List Request) : (s.withInbox l).Inv := h.of_eq rfl rfl rfl rfl rfl

theorem State.Inv.begin (h : s.Inv) (now : Seconds) (i : Instr) : (s.begin now i).Inv := h.of_eq rfl rfl rfl rfl rfl

theorem State.Inv.answer (h : s.Inv) (o : Option Block) (f : Option BusFault) : (s.answer o f).Inv :=
  h.of_eq rfl rfl rfl rfl rfl

theorem State.Inv.setBank (h : s.Inv) {b : BankRegs} (hb : b.Legal s.cfg) : (s.setBank b).Inv :=
  { h with bank_legal := hb }

/-- Where the RTC exists its registers are free (R33). -/
theorem State.Inv.setRtc (h : s.Inv) (hr : s.cfg.hasRtc = true) (r : Rtc) : (s.setRtc r).Inv :=
  { h with rtc_absent := fun hn => by rw [State.setRtc_cfg, hr] at hn; cases hn }

/-- A block stored inside a RAM that is present keeps the array canonical and inside its size (R31). -/
theorem State.Inv.storeRam (h : s.Inv) {off : Nat} (d : Block) (hp : s.cfg.ramPresent = true)
    (hoff : off + 31 < s.cfg.ramBytes) : (s.storeRam off d).Inv :=
  { h with
    ram_wf := Memory.writeBytes_wf h.ram_wf
    ram_size := fun c hc => by
      rcases Memory.mem_writeBytes hc with ⟨-, hlt⟩ | hc
      · rw [Vector.length_toList] at hlt
        exact lt_of_lt_of_le hlt hoff
      · exact h.ram_size c hc
    ram_absent := fun hn => by rw [State.storeRam_cfg, hp] at hn; cases hn }

theorem hasRtc_of_timer (hm : s.cfg.mapper = .mbc3) (ht : s.cfg.hasTimer = true) : s.cfg.hasRtc = true := by
  simp [Cfg.hasRtc, hm, ht]

/-- Every effect of a transaction of the cartridge's own variant keeps the invariant. -/
theorem Effect.keeps_inv (he : Effect i s t) (hw : i.wf = true) (hm : i.shape.mapper = s.cfg.mapper)
    (h : s.Inv) : t.Inv := by
  cases he with
  | readSame | writeSame => exact h.answer _ _
  | readFree => exact h.of_eq rfl rfl rfl rfl rfl
  | readTick b r hi hwin =>
    rw [hi] at hm
    exact (h.setRtc (hasRtc_of_timer hm.symm hwin.1) r).answer _ _
  | port b _ _ hb => exact (h.setBank (hb hm.symm h.bank_legal)).answer _ _
  | store off d _ hlo hhi _ ht =>
    obtain ⟨h32, hal, hah⟩ := (Instr.wf_iff i).1 hw
    obtain ⟨hp, hoff⟩ := ramTarget_inside h32 (hlo.trans hal) (hah.trans hhi) ht
    exact (h.storeRam d hp hoff).answer _ _
  | rtcWrite k b _ h3 _ _ hk =>
    exact (h.setRtc (hasRtc_of_timer (hm ▸ h3) (rtcSelected_window hk).1) _).answer _ _
  | latch r _ h3 _ _ ht => exact (h.setRtc (hasRtc_of_timer (hm ▸ h3) ht) r).answer _ _

theorem restoredBytes_length (image : List Byte) (size : Nat) : (restoredBytes image size).length = size := by
  simp only [restoredBytes, List.length_append, List.length_take, List.length_replicate]
  omega

/-- What a load puts into RAM is canonical, inside the array's size, and nothing where RAM is absent (R31). -/
theorem loadedRam_wf (p : Launch) : Memory.wf ramBlank (loadedRam p) ∧
    (∀ c ∈ loadedRam p, c.1 < p.cfg.ramBytes) ∧ (p.cfg.ramPresent = false → loadedRam p = []) := by
  unfold loadedRam
  cases p.cfg.ramPresent
  · exact ⟨Memory.wf_nil _, List.forall_mem_nil _, fun _ => rfl⟩
  · cases p.ramInit with
    | none => exact ⟨Memory.wf_nil _, List.forall_mem_nil _, fun _ => rfl⟩
    | some image =>
      refine ⟨Memory.ofBytes_wf, fun c hc => ?_, fun hn => by cases hn⟩
      obtain ⟨-, hlt, -⟩ := Memory.mem_ofBytes hc
      simpa [restoredBytes_length] using hlt

theorem loadedRtc_absent {p : Launch} {r : Rtc} (hn : p.cfg.hasRtc = false) (h : loadedRtc p = .some r) :
    r = .cold r.last := by
  rw [loadedRtc_cold fun hr => by rw [hn] at hr; cases hr] at h
  cases h
  rfl

/-- A load that completes leaves the invariant, whatever the state was before it. -/
theorem load_inv {p : Launch} (h : load p s = .next t) : t.Inv := by
  obtain ⟨hw, r, hr, rfl⟩ := load_next.1 h
  obtain ⟨hc, hl⟩ := Launch.wf_iff.1 hw
  obtain ⟨hram, hsize, habsent⟩ := loadedRam_wf p
  refine ⟨hc, Memory.ofBytes_wf, fun c hm => ?_, hram, hsize, habsent, BankRegs.reset_legal _,
    fun hn => loadedRtc_absent hn hr⟩
  obtain ⟨-, hlt, -⟩ := Memory.mem_ofBytes hm
  rwa [Nat.zero_add, hl] at hlt

theorem save_next (h : save s = .next t) : t = s ∨ t = { s with saved := .some s.image } := by
  unfold save at h
  split at h
  · cases h
  · split at h
    · exact .inr (Result.next_inj.1 h).symm
    · exact .inl (Result.next_inj.1 h).symm

theorem serve_keeps_inv (h : s.Inv) (hs : serve q s = .next t) : t.Inv := by
  cases q with
  | read | write =>
    obtain ⟨i, now, hw, hm, he⟩ := serve_bus_effect rfl hs
    exact he.keeps_inv hw hm (h.begin now i)
  | load p => exact load_inv hs
  | save => rcases save_next hs with rfl | rfl <;> exact h.of_eq rfl rfl rfl rfl rfl
  | unload => exact Result.next_inj.1 hs ▸ h.of_eq rfl rfl rfl rfl rfl

/-- Settles O55: a step serves one request, and each kind of request keeps the invariant. -/
theorem stepKeepsInvariant : Obligations.StepKeepsInvariant := by
  intro s t h hs
  rcases step_next_cases hs with rfl | ⟨q, rest, -, hq⟩
  · exact h
  · exact serve_keeps_inv (h.withInbox rest) hq

/-- Settles O54: the blank cartridge is well formed, and its arrays are empty. -/
theorem resetMeetsInvariant : Obligations.ResetMeetsInvariant where
  cfg_wf := rfl
  rom_wf := Memory.wf_nil _
  rom_size := List.forall_mem_nil _
  ram_wf := Memory.wf_nil _
  ram_size := List.forall_mem_nil _
  ram_absent := fun _ => rfl
  bank_legal := BankRegs.reset_legal _
  rtc_absent := fun _ => rfl

/-! ### What a bus transaction leaves of the cartridge -/

theorem Effect.keeps_cartridge (he : Effect i s t) :
    t.rom = s.rom ∧ t.cfg = s.cfg ∧ t.loaded = s.loaded ∧ t.saved = s.saved ∧ t.inbox = s.inbox := by
  cases he <;> exact ⟨rfl, rfl, rfl, rfl, rfl⟩

/-- Settles O56: no effect of a transaction touches the cartridge, and the step took its request before it. -/
theorem transactionsLeaveTheCartridge : Obligations.TransactionsLeaveTheCartridge := by
  intro s t q rest hi hq hs
  rw [step_of_inbox hi] at hs
  obtain ⟨i, now, -, -, he⟩ := serve_bus_effect hq hs
  exact he.keeps_cartridge

/-! ### The select codes, and the registers after a reset -/

/-- Settles O40, over the 16 values of `ram_bank`. -/
theorem selectCodesNameRegisters : Obligations.SelectCodesNameRegisters := by
  unfold Obligations.SelectCodesNameRegisters
  intro b k
  cases k <;> revert b <;> decide

/-- Settles O44: the reset state is the cold load of the blank cartridge, and an empty array reads as the pattern. -/
theorem resetValues : Obligations.ResetValues :=
  ⟨rfl, rfl, rfl, rfl, rfl, rfl, rfl, fun _ => rfl⟩

/-- Settles O45: a load that completes leaves `loadedState`, whose bank registers are the reset ones. -/
theorem loadResetsBankRegisters : Obligations.LoadResetsBankRegisters := by
  intro p s t h
  obtain ⟨-, r, -, rfl⟩ := load_next.1 h
  exact ⟨rfl, rfl, rfl, rfl⟩

/-! ### Who observes `ram_en` -/

/-- The bank registers with another value of `ram_en`. -/
def BankRegs.withEnable (e : Bool) (b : BankRegs) : BankRegs := { b with ramEn := e }

/-- An answer with `ram_en` hidden: answers that differ in it alone become the same. -/
def hideEnable : Result → Result
  | .next t => .next (t.withEnable false)
  | .fault f => .fault f
  | .refused r => .refused r

/-- A register port through which the old `ram_en` reaches no register but `ram_en` itself. -/
def EnableBlind (g : BankRegs → BankRegs) : Prop :=
  ∀ e b, (g (b.withEnable e)).withEnable false = (g b).withEnable false

/-- What answers that agree with `ram_en` hidden say of each other. -/
theorem agree_of_hideEnable_eq {x y : Result} (h : hideEnable y = hideEnable x) :
    (∀ t, x = .next t → ∃ u, y = .next u ∧ u.withEnable t.bank.ramEn = t) ∧
    ∀ r, x = .refused r → y = .refused r := by
  refine ⟨?_, ?_⟩
  · rintro t rfl
    cases y with
    | next u =>
      have hu : u.withEnable false = t.withEnable false := Result.next_inj.1 h
      exact ⟨u, rfl, congrArg (fun v => v.withEnable t.bank.ramEn) hu⟩
    | fault f => cases f
    | refused r => cases h
  · rintro r rfl
    cases y with
    | next u => cases h
    | fault f => cases f
    | refused r' => exact h

section
variable (s : State) (e : Bool)

@[simp] theorem State.withEnable_cfg : (s.withEnable e).cfg = s.cfg := rfl
@[simp] theorem State.withEnable_loaded : (s.withEnable e).loaded = s.loaded := rfl
@[simp] theorem State.withEnable_rtc : (s.withEnable e).rtc = s.rtc := rfl
@[simp] theorem rtcSelected_withEnable : rtcSelected (s.withEnable e) = rtcSelected s := rfl

theorem readRomAt_withEnable (g : Target) :
    hideEnable (readRomAt g (s.withEnable e)) = hideEnable (readRomAt g s) := by cases g <;> rfl

theorem readRamAt_withEnable (g : Target) :
    hideEnable (readRamAt g (s.withEnable e)) = hideEnable (readRamAt g s) := by cases g <;> rfl

theorem writeRamAt_withEnable (g : Target) (d : Block) :
    hideEnable (writeRamAt g d (s.withEnable e)) = hideEnable (writeRamAt g d s) := by cases g <;> rfl

theorem writePort_withEnable {g : BankRegs → BankRegs} (hg : EnableBlind g) :
    hideEnable (writePort g (s.withEnable e)) = hideEnable (writePort g s) :=
  congrArg (fun b => Host.Outcome.next ((s.setBank b).answer .none .none)) (hg e s.bank)

/-- A tick does not see `ram_en`, so neither does what runs one, if what follows does not. -/
theorem withTick_withEnable {k k' : Rtc → Result} (hk : ∀ r, hideEnable (k' r) = hideEnable (k r)) :
    hideEnable (withTick (s.withEnable e) k') = hideEnable (withTick s k) := by
  cases ht : tick s.now s.rtc with
  | none => rw [withTick_none ht, withTick_none (s := s.withEnable e) ht]
  | some r => rw [withTick_some ht, withTick_some (s := s.withEnable e) ht, hk]

theorem rtcRead_withEnable (k : RtcReg) : hideEnable (rtcRead k (s.withEnable e)) = hideEnable (rtcRead k s) := by
  rw [rtcRead, rtcRead, State.withEnable_rtc]
  cases s.rtc.latched
  · exact withTick_withEnable s e fun _ => rfl
  · rfl

/-- But on MBC2, no transaction's answer depends on `ram_en`, except in `ram_en` itself. -/
theorem exec_withEnable (hm : i.shape.mapper ≠ .mbc2) :
    hideEnable (exec i (s.withEnable e)) = hideEnable (exec i s) := by
  cases i with
  | mbc2RdRom0 | mbc2RdRomx | mbc2RdRam | mbc2RdInv8 | mbc2RdInvc | mbc2WrRamen | mbc2WrRomb | mbc2WrNop
  | mbc2WrRam | mbc2WrInv8 | mbc2WrInvc => exact absurd rfl hm
  | noneRdRom | mbc1RdRom0 | mbc3RdRom0 | mbc5RdRom0 => rfl
  | noneRdInv8 | noneRdInvc | mbc1RdInv8 | mbc1RdInvc | mbc3RdInv8 | mbc3RdInvc | mbc5RdInv8 | mbc5RdInvc => rfl
  | noneWrInv8 | noneWrInvc | mbc1WrInv8 | mbc1WrInvc | mbc3WrInv8 | mbc3WrInvc | mbc5WrInv8 | mbc5WrInvc => rfl
  | noneWrRom | mbc5WrNop => rfl
  | mbc1RdRomx | mbc3RdRomx | mbc5RdRomx => exact readRomAt_withEnable s e _
  | noneRdRam | mbc1RdRam | mbc5RdRam => exact readRamAt_withEnable s e _
  | noneWrRam | mbc1WrRam | mbc5WrRam => exact writeRamAt_withEnable s e _ _
  | mbc1WrRamen | mbc3WrRamen | mbc5WrRamen => exact writePort_withEnable s e fun _ _ => rfl
  | mbc1WrRomb | mbc3WrRomb | mbc5WrRombl | mbc5WrRombh | mbc5WrRamb =>
    simp only [exec, execMbc1WrRomb, execMbc3WrRomb, execMbc5WrRombl, execMbc5WrRombh, execMbc5WrRamb]
    exact writePort_withEnable s e fun _ _ => rfl
  | mbc1WrBank2 =>
    simp only [exec, execMbc1WrBank2]
    refine writePort_withEnable s e fun _ b => ?_
    obtain ⟨_, _, _, mode⟩ := b
    cases mode <;> rfl
  | mbc1WrMode a d =>
    refine writePort_withEnable s e fun _ b => ?_
    obtain ⟨_, _, _, mode⟩ := b
    cases lowBit (portByte d) <;> cases mode <;> rfl
  | mbc3WrSel a d =>
    simp only [exec, execMbc3WrSel]
    refine writePort_withEnable s e fun _ b => ?_
    rw [State.withEnable_cfg]
    cases selAccepted s.cfg.hasTimer (portByte d) <;> rfl
  | mbc3RdRam a =>
    simp only [exec, execMbc3RdRam, rtcSelected_withEnable]
    cases rtcSelected s with
    | none => exact readRamAt_withEnable s e _
    | some k => exact rtcRead_withEnable s e k
  | mbc3WrRam a d =>
    simp only [exec, execMbc3WrRam, rtcSelected_withEnable]
    cases rtcSelected s with
    | none => exact writeRamAt_withEnable s e _ d
    | some k => rfl
  | mbc3WrLatch a d =>
    simp only [exec, execMbc3WrLatch]
    rw [State.withEnable_cfg]
    cases s.cfg.hasTimer
    · rfl
    · cases lowBit (portByte d)
      · rfl
      · exact withTick_withEnable s e fun _ => rfl

theorem transact_withEnable (hm : s.cfg.mapper ≠ .mbc2) (w : Bool) (a : Addr) (d : Block) (now : Seconds) :
    hideEnable (transact w a d now (s.withEnable e)) = hideEnable (transact w a d now s) := by
  rw [transact, transact, State.withEnable_loaded, State.withEnable_cfg]
  cases s.loaded
  · rfl
  · cases hd : decode (commandWord s.cfg.mapper w a) d with
    | reject r => rfl
    | instr i =>
      have hi : i.shape.mapper = s.cfg.mapper := by simpa using (decode_isFor hd).2.mapper
      exact exec_withEnable (s.begin now i) e (hi ▸ hm)

theorem serve_withEnable (hm : s.cfg.mapper ≠ .mbc2) (hq : q.isBus = true) :
    hideEnable (serve q (s.withEnable e)) = hideEnable (serve q s) := by
  cases q with
  | read | write => exact transact_withEnable s e hm _ _ _ _
  | load | save | unload => cases hq

end

/-- Settles O59: with `ram_en` hidden, both states answer alike. -/
theorem enableIsUnobservableButOnMbc2 : Obligations.EnableIsUnobservableButOnMbc2 := by
  intro s e q rest hi hq hm
  rw [step_of_inbox hi, step_of_inbox (s := s.withEnable e) hi]
  exact agree_of_hideEnable_eq (serve_withEnable (s.withInbox rest) e hm hq)

end Sys2Proof.Machine
end

section
/-! PROOFS. The memory of the device (20_memory.md): what each window reads and stores, that every translation stays
inside its array, what a write or a read can change, and which transactions have no step. -/

namespace Sys2Proof

theorem Cfg.quarterSized_iff {c : Cfg} : c.quarterSized = true ↔ c.ramQuarters = 1 := beq_iff_eq

/-- Every ROM size of R9 covers the fixed part, 0x0000 to 0x7FFF. -/
theorem Cfg.two_le_romBanks {c : Cfg} (h : c.wf = true) : 2 ≤ c.romBanks := by
  obtain ⟨-, hs, -⟩ := Cfg.wf_iff.1 h
  have hmem : c.romBanks ∈ [2, 4, 8, 16, 32, 64, 128, 72, 80, 96] :=
    List.contains_iff_mem.1 (Bool.and_eq_true_iff.1 hs).1
  have hall : ∀ n ∈ [2, 4, 8, 16, 32, 64, 128, 72, 80, 96], 2 ≤ n := by decide
  exact hall _ hmem

namespace Machine

variable {s t : State} {i : Instr} {addr : Addr} {data : Block} {off : Nat}

/-! ### Which shared access a transaction is -/

theorem exec_rdRomx (h : i ∈ [Instr.mbc1RdRomx addr, .mbc2RdRomx addr, .mbc3RdRomx addr, .mbc5RdRomx addr])
    (s : State) : exec i s = readRomAt (romTarget addr s) s := by
  simp only [List.mem_cons, List.not_mem_nil, or_false] at h
  rcases h with rfl | rfl | rfl | rfl <;> rfl

theorem exec_mbc3RdRam (h : ¬ s.RtcWindow) :
    exec (.mbc3RdRam addr) s = readRamAt (ramTarget addr s) s := by
  simp only [exec, execMbc3RdRam, rtcSelected_eq_none.2 h]

theorem exec_mbc3WrRam (h : ¬ s.RtcWindow) :
    exec (.mbc3WrRam addr data) s = writeRamAt (ramTarget addr s) data s := by
  simp only [exec, execMbc3WrRam, rtcSelected_eq_none.2 h]

theorem exec_rdRam (h : i ∈ [Instr.mbc1RdRam addr, .mbc3RdRam addr, .mbc5RdRam addr])
    (hn : i = .mbc3RdRam addr → ¬ s.RtcWindow) : exec i s = readRamAt (ramTarget addr s) s := by
  simp only [List.mem_cons, List.not_mem_nil, or_false] at h
  rcases h with rfl | rfl | rfl
  · rfl
  · exact exec_mbc3RdRam (hn rfl)
  · rfl

theorem exec_wrRam (h : i ∈ [Instr.mbc1WrRam addr data, .mbc3WrRam addr data, .mbc5WrRam addr data])
    (hn : i = .mbc3WrRam addr data → ¬ s.RtcWindow) : exec i s = writeRamAt (ramTarget addr s) data s := by
  simp only [List.mem_cons, List.not_mem_nil, or_false] at h
  rcases h with rfl | rfl | rfl
  · rfl
  · exact exec_mbc3WrRam (hn rfl)
  · rfl

theorem exec_noneRdRam : exec (.noneRdRam addr) s = readRamAt (flatRamTarget addr s) s := rfl

theorem exec_noneWrRam : exec (.noneWrRam addr data) s = writeRamAt (flatRamTarget addr s) data s := rfl

/-- An answer's two facts, the frame said first. -/
theorem exists_next_swap {x : Result} {P Q : State → Prop} (h : ∃ t, x = .next t ∧ P t ∧ Q t) :
    ∃ t, x = .next t ∧ Q t ∧ P t := h.imp fun _ => And.imp_right And.symm

/-! ### Reads and writes, window by window -/

/-- Settles O12: each of the five rows is `readFixedRom`. -/
theorem fixedRomReads : Obligations.FixedRomReads := by
  intro addr s i hi _
  simp only [List.mem_cons, List.not_mem_nil, or_false] at hi
  rcases hi with rfl | rfl | rfl | rfl | rfl <;> exact readFixedRom_spec addr s

/-- Settles O13: the read goes to `romTarget`, an offset or the condition. -/
theorem bankedRomReads : Obligations.BankedRomReads := by
  intro addr s i hi _
  rw [exec_rdRomx hi]
  refine ⟨fun hb => ?_, fun hb => ?_⟩
  · rw [romTarget_valid hb]
    exact exists_next_swap (readRomAt_at _ s)
  · rw [romTarget_range hb]
    exact exists_next_swap (readRomAt_fault _ s)

/-- Settles O14: off the RTC path the read goes to `ramTarget`, an offset or one of two conditions. -/
theorem bankedRamReads : Obligations.BankedRamReads := by
  intro addr s i hi _ hn
  rw [exec_rdRam hi hn]
  refine ⟨fun hp hb => ?_, fun hp => ?_, fun hp hb => ?_⟩
  · rw [ramTarget_valid hp hb, ← bankedRamOffset_eq]
    exact exists_next_swap (readRamAt_at _ s)
  · rw [ramTarget_absent hp]
    exact exists_next_swap (readRamAt_fault _ s)
  · rw [ramTarget_range hp hb]
    exact exists_next_swap (readRamAt_fault _ s)

/-- Settles O15: off the RTC path the write goes to `ramTarget`, an offset or one of two conditions. -/
theorem bankedRamWrites : Obligations.BankedRamWrites := by
  intro addr data s i hi _ hn hm
  rw [exec_wrRam hi hn]
  refine ⟨fun hp hb => ?_, fun hp => ?_, fun hp hb => ?_⟩
  · rw [ramTarget_valid hp hb]
    exact writeRamAt_at _ data s hm
  · rw [ramTarget_absent hp]
    exact exists_next_swap (writeRamAt_fault _ data s)
  · rw [ramTarget_range hp hb]
    exact exists_next_swap (writeRamAt_fault _ data s)

/-- Settles O17: both accesses go to `flatRamTarget`, an offset or one of two conditions. -/
theorem noneRamIsFlat : Obligations.NoneRamIsFlat := by
  intro addr data s hr _ hm
  obtain ⟨-, hlo, -⟩ : _ ∧ 0xA000 ≤ addr.toNat ∧ _ := (Instr.wf_iff _).1 hr
  rw [exec_noneRdRam, exec_noneWrRam]
  refine ⟨fun hp hq => ?_, fun hp => ?_, fun hp hq ha => ?_⟩
  · rw [flatRamTarget_valid hp fun h => hq (Cfg.quarterSized_iff.1 h), ← flatRamOffset_eq hlo]
    exact ⟨exists_next_swap (readRamAt_at _ s), writeRamAt_at _ data s hm⟩
  · rw [flatRamTarget_absent hp]
    exact ⟨exists_next_swap (readRamAt_fault _ s), exists_next_swap (writeRamAt_fault _ data s)⟩
  · rw [flatRamTarget_range hp (Cfg.quarterSized_iff.2 hq) ha]
    exact ⟨exists_next_swap (readRamAt_fault _ s), exists_next_swap (writeRamAt_fault _ data s)⟩

/-- Settles O20: each of the ten rows is `readInvalid`. -/
theorem invalidWindowReads : Obligations.InvalidWindowReads := by
  intro addr s i hi _
  simp only [List.mem_cons, List.not_mem_nil, or_false] at hi
  rcases hi with rfl | rfl | rfl | rfl | rfl | rfl | rfl | rfl | rfl | rfl <;> exact readInvalid_spec s

/-- Settles O21: each of the ten rows is `writeInvalid`. -/
theorem invalidWindowWrites : Obligations.InvalidWindowWrites := by
  intro addr data s i hi _
  simp only [List.mem_cons, List.not_mem_nil, or_false] at hi
  rcases hi with rfl | rfl | rfl | rfl | rfl | rfl | rfl | rfl | rfl | rfl <;> exact writeInvalid_spec s

/-! ### A read after a write -/

theorem State.Stored.ramBlock_eq (h : s.Stored t off data) : t.ramBlock off = data :=
  Vector.ext fun k hk => by rw [State.getElem_ramBlock t hk, h.stored k hk]

theorem State.Stored.rtcWindow_iff (h : s.Stored t off data) : t.RtcWindow ↔ s.RtcWindow := by
  rw [State.RtcWindow, State.RtcWindow, h.cfg, h.bank]

theorem State.Stored.ramTarget_eq (h : s.Stored t off data) : ramTarget addr t = ramTarget addr s := by
  rw [ramTarget, ramTarget, h.cfg, h.bank]

theorem State.Stored.gatedRamTarget_eq (h : s.Stored t off data) :
    gatedRamTarget addr t = gatedRamTarget addr s := by
  rw [gatedRamTarget, gatedRamTarget, h.cfg, h.bank, h.ramTarget_eq]

theorem State.Stored.flatRamTarget_eq (h : s.Stored t off data) :
    flatRamTarget addr t = flatRamTarget addr s := by
  rw [flatRamTarget, flatRamTarget, h.cfg]

/-- A write and a read through one translation `g`, which gives the write an offset and which no store moves: the
payload comes back. -/
theorem read_returns_stored {w r : Instr} (g : State → Target) (hm : Memory.wf ramBlank s.ram) (hg : g s = .at off)
    (hkeep : ∀ t, s.Stored t off data → g t = g s) (hw : exec w s = writeRamAt (g s) data s)
    (hr : ∀ t, s.Stored t off data → exec r t = readRamAt (g t) t) :
    ∃ t u, exec w s = .next t ∧ exec r t = .next u ∧ u.out = .some data := by
  obtain ⟨t, ht, -, hst⟩ := writeRamAt_at off data s hm
  have hread : exec r t = readRamAt (.at off) t := by rw [hr t hst, hkeep t hst, hg]
  exact ⟨t, _, by rw [hw, hg, ht], hread, congrArg Option.some hst.ramBlock_eq⟩

/-- Settles O18: on each variant the write's target is an offset, and a store moves no target. -/
theorem ramReadReturnsWhatWasWritten : Obligations.RamReadReturnsWhatWasWritten := by
  intro addr data s p hp _ hm hram hquarter hbank hen hwin
  have hbanked (hne : p.1 ≠ .noneWrRam addr data) :
      ramTarget addr s = .at (bankedRamOffset s.bank.ramBank addr) := ramTarget_valid hram (hbank hne)
  simp only [List.mem_cons, List.not_mem_nil, or_false] at hp
  rcases hp with rfl | rfl | rfl | rfl | rfl
  · have hflat := flatRamTarget_valid hram fun h => hquarter rfl (Cfg.quarterSized_iff.1 h)
    exact read_returns_stored (flatRamTarget addr) hm hflat (fun _ h => h.flatRamTarget_eq) rfl fun _ _ => rfl
  · exact read_returns_stored (ramTarget addr) hm (hbanked nofun) (fun _ h => h.ramTarget_eq) rfl fun _ _ => rfl
  · have hgated := (gatedRamTarget_enabled (hen rfl)).trans (hbanked nofun)
    exact read_returns_stored (gatedRamTarget addr) hm hgated (fun _ h => h.gatedRamTarget_eq) rfl fun _ _ => rfl
  · have hn := hwin rfl
    exact read_returns_stored (ramTarget addr) hm (hbanked nofun) (fun _ h => h.ramTarget_eq) (exec_mbc3WrRam hn)
      fun _ h => exec_mbc3RdRam (mt h.rtcWindow_iff.1 hn)
  · exact read_returns_stored (ramTarget addr) hm (hbanked nofun) (fun _ h => h.ramTarget_eq) rfl fun _ _ => rfl

/-! ### Translations stay inside -/

theorem fixedRomOffset_inside (hc : s.cfg.wf = true) (h32 : addr.toNat % 32 = 0) (hhi : addr.toNat ≤ 0x7FFF) :
    fixedRomOffset addr + 31 < s.cfg.romBytes := by
  have := Cfg.two_le_romBanks hc
  simp only [fixedRomOffset, Cfg.romBytes]
  omega

theorem romTarget_inside (h32 : addr.toNat % 32 = 0) (hhi : addr.toNat ≤ 0x7FFF)
    (h : romTarget addr s = .at off) : off + 31 < s.cfg.romBytes := by
  obtain ⟨hb, rfl⟩ := romTarget_eq_at.1 h
  simp only [bankedRomOffset, Cfg.romBytes]
  omega

/-- Settles O19: one bound per translation; the RAM ones are `ramTarget_inside`. -/
theorem translationsStayInside : Obligations.TranslationsStayInside := fun _ _ _ hc h32 =>
  ⟨fixedRomOffset_inside hc h32, fun _ hhi => romTarget_inside h32 hhi,
    fun hlo hhi ht => (ramTarget_inside h32 hlo hhi ht).2⟩

/-! ### What a write and a read can change -/

theorem Effect.sameCartridge (he : Effect i s t) : s.SameCartridge t := by
  cases he <;> exact ⟨rfl, fun _ => rfl, rfl, rfl, rfl, rfl, rfl⟩

/-- Settles O57: each kind of change a write can make belongs to one window, and the addresses of the others do not
reach its row. -/
theorem writesStayInTheirClass : Obligations.WritesStayInTheirClass := by
  intro i s t hwf hwrite hx
  obtain ⟨-, hlo, hhi⟩ := (Instr.wf_iff i).1 hwf
  have he := exec_effect hx
  have hcart := he.sameCartridge
  cases he with
  | readSame _ _ hread | readFree hread => cases hread.symm.trans hwrite
  | readTick _ _ hi => rw [hi] at hwrite; cases hwrite
  | writeSame =>
    exact ⟨rfl, hcart, rfl, fun _ => ⟨rfl, .inl rfl⟩, fun _ _ => ⟨rfl, .inl rfl⟩,
      fun _ => s.answer_sameDevice _ _⟩
  | port _ _ hport => exact ⟨rfl, hcart, rfl, fun _ => ⟨rfl, .inl rfl⟩, by omega, by omega⟩
  | store _ _ _ hfrom hto => exact ⟨rfl, hcart, rfl, by omega, fun _ _ => ⟨rfl, .inl rfl⟩, by omega⟩
  | rtcWrite k b _ hm hfrom hto hk =>
    have hwin := rtcSelected_window hk
    rw [rtcSelected_of_window hwin] at hk
    exact ⟨rfl, hcart, rfl, by omega, fun _ _ => ⟨rfl, .inr ⟨hm, hwin, rfl, k, b, hk, rfl⟩⟩, by omega⟩
  | latch _ _ hm hfrom hto =>
    exact ⟨rfl, hcart, rfl, fun _ => ⟨rfl, .inr ⟨hm, hfrom.trans hlo, rfl⟩⟩, by omega, by omega⟩

/-- Settles O58: of the three kinds of change a read can make, only the tick touches the device. -/
theorem readsChangeOnlyTheClock : Obligations.ReadsChangeOnlyTheClock := by
  intro i s t _ hread hx
  have he := exec_effect hx
  have hcart := he.sameCartridge
  cases he with
  | readSame | readFree => exact ⟨rfl, hcart, rfl, rfl, .inl rfl⟩
  | readTick _ _ hi hwin hl ht => exact ⟨rfl, hcart, rfl, rfl, .inr ⟨hi, hwin, hl, ht⟩⟩
  | writeSame _ hwrite | port _ hwrite | store _ _ hwrite | rtcWrite _ _ hwrite | latch _ hwrite =>
    cases hread.symm.trans hwrite

/-! ### Transactions without a step -/

theorem transact_notLoaded {w : Bool} {a : Addr} {d : Block} {now : Seconds} (h : s.loaded = false) :
    transact w a d now s = .refused .notLoaded := by
  simp [transact, h]

theorem transact_reject {w : Bool} {a : Addr} {d : Block} {now : Seconds} {r : Reject} (hl : s.loaded = true)
    (h : decode (commandWord s.cfg.mapper w a) d = .reject r) :
    transact w a d now s = .refused (Reject.refusal r) := by
  simp [transact, hl, h]

/-- Settles O8: a read and a write are both `transact`, which asks for the cartridge and then decodes. -/
theorem impossibleTransactionsAreRefused : Obligations.ImpossibleTransactionsAreRefused := by
  intro s addr data now rest hi
  obtain ⟨w, d, hstep⟩ : ∃ w d, step s = transact w addr d now (s.withInbox rest) :=
    hi.elim (fun h => ⟨false, Block.zero, step_of_inbox h⟩) fun h => ⟨true, data, step_of_inbox h⟩
  rw [hstep]
  refine ⟨transact_notLoaded (s := s.withInbox rest), fun hl hm => ?_, fun hl hm ha => ?_⟩
  · exact transact_reject (s := s.withInbox rest) hl (decode_unsupported (by simpa using hm))
  · exact transact_reject (s := s.withInbox rest) hl (decode_unaligned (by simpa using hm) (by simpa using ha))

end Machine

end Sys2Proof
end

section
/-! PROOFS. The encoding of transactions (30_encoding.md): that decoding and encoding undo each other, which words are
refused, that one row of the opcode table matches, and what a step runs. -/

namespace Sys2Proof

variable {i : Instr} {cw : CmdWord} {d : Block} {r r' : TableRow}

/-! ### Decoding and encoding -/

/-- The slices of R231 that a well-formed transaction's address can lie in. -/
theorem Instr.slice_bounds (h : i.wf = true) :
    i.shape.lo / 0x1000 ≤ i.addr.slice ∧ i.addr.slice ≤ i.shape.hi / 0x1000 := by
  obtain ⟨-, hlo, hhi⟩ := (Instr.wf_iff i).1 h
  exact ⟨Nat.div_le_div_right hlo, Nat.div_le_div_right hhi⟩

/-- The slices of each row select that row among those of its variant and direction. -/
theorem decode_encode (hw : i.wf = true) : decode (encode i).1 (encode i).2 = .instr i := by
  obtain ⟨h32, -, -⟩ := (Instr.wf_iff i).1 hw
  obtain ⟨hlo, hhi⟩ := Instr.slice_bounds hw
  rw [encode, decode_commandWord _ _ _ _ h32]
  cases i <;> simp only [Instr.shape, Instr.addr, Instr.payload, Option.getD_some] at hlo hhi ⊢
  case noneRdRom | noneRdRam | noneRdInv8 | noneRdInvc =>
    simp (disch := omega) only [decodeNone_read, if_pos, if_neg]
  case noneWrRom | noneWrRam | noneWrInv8 | noneWrInvc =>
    simp (disch := omega) only [decodeNone_write, if_pos, if_neg]
  case mbc1RdRom0 | mbc1RdRomx | mbc1RdRam | mbc1RdInv8 | mbc1RdInvc =>
    simp (disch := omega) only [decodeMbc1_read, if_pos, if_neg]
  case mbc1WrRamen | mbc1WrRomb | mbc1WrBank2 | mbc1WrMode | mbc1WrRam | mbc1WrInv8 | mbc1WrInvc =>
    simp (disch := omega) only [decodeMbc1_write, if_pos, if_neg]
  case mbc2RdRom0 | mbc2RdRomx | mbc2RdRam | mbc2RdInv8 | mbc2RdInvc =>
    simp (disch := omega) only [decodeMbc2_read, if_pos, if_neg]
  case mbc2WrRamen | mbc2WrRomb | mbc2WrNop | mbc2WrRam | mbc2WrInv8 | mbc2WrInvc =>
    simp (disch := omega) only [decodeMbc2_write, if_pos, if_neg]
  case mbc3RdRom0 | mbc3RdRomx | mbc3RdRam | mbc3RdInv8 | mbc3RdInvc =>
    simp (disch := omega) only [decodeMbc3_read, if_pos, if_neg]
  case mbc3WrRamen | mbc3WrRomb | mbc3WrSel | mbc3WrLatch | mbc3WrRam | mbc3WrInv8 | mbc3WrInvc =>
    simp (disch := omega) only [decodeMbc3_write, if_pos, if_neg]
  case mbc5RdRom0 | mbc5RdRomx | mbc5RdRam | mbc5RdInv8 | mbc5RdInvc =>
    simp (disch := omega) only [decodeMbc5_read, if_pos, if_neg]
  case mbc5WrRamen | mbc5WrRombl | mbc5WrRombh | mbc5WrRamb | mbc5WrNop | mbc5WrRam | mbc5WrInv8 | mbc5WrInvc =>
    simp (disch := omega) only [decodeMbc5_write, if_pos, if_neg]

/-- Settles O1: `decode_encode`, by the slices each row is selected by. -/
theorem decodeOfEncodeIsIdentity : Obligations.DecodeOfEncodeIsIdentity := fun _ hw => decode_encode hw

theorem encode_decode_word (hd : decode cw d = .instr i) : (encode i).1 = cw := by
  obtain ⟨-, hi⟩ := decode_isFor hd
  rw [encode, hi.mapper, hi.write, hi.addr, commandWord_fields]

theorem encode_decode_payload (hd : decode cw d = .instr i) (hw : i.shape.write = true) : (encode i).2 = d := by
  obtain ⟨-, hi⟩ := decode_isFor hd
  rw [encode, hi.payload, ← hi.write, if_pos hw, Option.getD_some]

/-- Settles O2: the decoded transaction has the fields of the word, which make up the word again. -/
theorem encodeOfDecodeIsIdentity : Obligations.EncodeOfDecodeIsIdentity := fun _ _ _ hd =>
  ⟨(decode_isFor hd).2.wf, encode_decode_word hd, encode_decode_payload hd⟩

/-! ### Which words decode -/

theorem CmdWord.modelled_iff : (Mapper.ofStrap (CmdWord.strap cw)).modelled = true ↔
    cw.toNat / 131072 ≠ 4 ∧ cw.toNat / 131072 ≠ 6 ∧ cw.toNat / 131072 ≠ 7 := by
  rw [Mapper.modelled_ofStrap, (CmdWord.fields_toNat cw).2]

theorem CmdWord.addr_toNat_mod_32 (cw : CmdWord) : (CmdWord.addr cw).toNat % 32 = cw.toNat % 32 := by
  rw [(CmdWord.fields_toNat cw).1, Nat.mod_mod_of_dvd _ (by decide)]

/-- Settles O3: the strap code decides first, then the alignment. -/
theorem decodeRefusesExactly : Obligations.DecodeRefusesExactly := by
  intro cw d m
  have hmod : (Mapper.ofStrap (CmdWord.strap cw)).modelled = true ↔ m ≠ 4 ∧ m ≠ 6 ∧ m ≠ 7 := CmdWord.modelled_iff
  rw [← CmdWord.addr_toNat_mod_32]
  refine ⟨fun hm => decode_unsupported ?_, fun h4 h6 h7 => decode_unaligned (hmod.2 ⟨h4, h6, h7⟩),
    fun h4 h6 h7 => decode_some (hmod.2 ⟨h4, h6, h7⟩)⟩
  rw [Bool.eq_false_iff, ne_eq, hmod]
  omega

/-! ### The rows of the opcode table -/

/-- No word belongs to both rows: their values differ in a bit that both masks keep. -/
def TableRow.disjoint (r r' : TableRow) : Bool := r.value &&& r'.mask != r'.value &&& r.mask

theorem TableRow.disjoint_eq_false (h : r.matches cw = true) (h' : r'.matches cw = true) :
    r.disjoint r' = false := by
  rw [TableRow.matches, beq_iff_eq] at h h'
  rw [TableRow.disjoint, ← h, ← h', bne_eq_false_iff_eq, BitVec.and_assoc, BitVec.and_assoc,
    BitVec.and_comm r.mask]

theorem tableRows_pairwise_disjoint : tableRows.Pairwise (fun r r' => r.disjoint r' = true) := by decide

theorem filter_matches_eq_singleton (hr : r ∈ tableRows) (hm : r.matches cw = true) :
    tableRows.filter (fun r => r.matches cw) = [r] := by
  have hmem : r ∈ tableRows.filter (fun r => r.matches cw) := List.mem_filter.2 ⟨hr, hm⟩
  have hall : ∀ x ∈ tableRows.filter (fun r => r.matches cw), x.matches cw = true :=
    fun x hx => (List.mem_filter.1 hx).2
  have hdisj := tableRows_pairwise_disjoint.filter (fun r => r.matches cw)
  generalize tableRows.filter (fun r => r.matches cw) = l at *
  match l with
  | [] => cases hmem
  | [x] => rw [List.mem_singleton.1 hmem]
  | x :: y :: _ =>
    have hxy : x.disjoint y = true := List.rel_of_pairwise_cons hdisj (by simp)
    rw [TableRow.disjoint_eq_false (hall x (by simp)) (hall y (by simp))] at hxy
    cases hxy

open Laws.EncodedRow in
/-- The laws of the 56 rows, as one: `Laws.EncodedRow.Statement` of every transaction. -/
theorem exists_row_of_wf (hw : i.wf = true) :
    ∃ r ∈ tableRows, r.mnemonic = i.shape.mnemonic ∧ r.matches (encode i).1 = true := by
  suffices h : Statement i from h hw
  cases i <;> simp only [noneRdRom, noneRdRam, noneRdInv8, noneRdInvc, noneWrRom, noneWrRam, noneWrInv8, noneWrInvc,
    mbc1RdRom0, mbc1RdRomx, mbc1RdRam, mbc1RdInv8, mbc1RdInvc, mbc1WrRamen, mbc1WrRomb, mbc1WrBank2,
    mbc1WrMode, mbc1WrRam, mbc1WrInv8, mbc1WrInvc,
    mbc2RdRom0, mbc2RdRomx, mbc2RdRam, mbc2RdInv8, mbc2RdInvc, mbc2WrRamen, mbc2WrRomb, mbc2WrNop, mbc2WrRam,
    mbc2WrInv8, mbc2WrInvc,
    mbc3RdRom0, mbc3RdRomx, mbc3RdRam, mbc3RdInv8, mbc3RdInvc, mbc3WrRamen, mbc3WrRomb, mbc3WrSel, mbc3WrLatch,
    mbc3WrRam, mbc3WrInv8, mbc3WrInvc,
    mbc5RdRom0, mbc5RdRomx, mbc5RdRam, mbc5RdInv8, mbc5RdInvc, mbc5WrRamen, mbc5WrRombl, mbc5WrRombh,
    mbc5WrRamb, mbc5WrNop, mbc5WrRam, mbc5WrInv8, mbc5WrInvc]

theorem exists_row_of_decode (hd : decode cw d = .instr i) :
    ∃ r ∈ tableRows, r.mnemonic = i.shape.mnemonic ∧ r.matches cw = true :=
  encode_decode_word hd ▸ exists_row_of_wf (decode_isFor hd).2.wf

/-- Settles O4: with any payload the word decodes, and its transaction's own row matches; rows that match one word are
not disjoint, so that row is the same each time. -/
theorem oneTableRowMatches : Obligations.OneTableRowMatches := by
  intro cw hm ha
  have hdec (d : Block) : ∃ i, decode cw d = .instr i := decode_some hm (by rwa [CmdWord.addr_toNat_mod_32])
  obtain ⟨_, hd₀⟩ := hdec Block.zero
  obtain ⟨r, hr, -, hmatch⟩ := exists_row_of_decode hd₀
  have honly := filter_matches_eq_singleton hr hmatch
  refine ⟨r, honly, fun d => ?_⟩
  obtain ⟨i, hd⟩ := hdec d
  obtain ⟨r', hr', hname, hmatch'⟩ := exists_row_of_decode hd
  have hmem : r' ∈ [r] := honly ▸ List.mem_filter.2 ⟨hr', hmatch'⟩
  exact ⟨i, hd, by rw [← hname, List.mem_singleton.1 hmem]⟩

/-- Settles O5: each word's fields, read off by evaluation. -/
theorem sampleWordsDecode : Obligations.SampleWordsDecode :=
  ⟨by decide, by decide, by decide, by decide, by decide, by decide⟩

/-! ### Offsets -/

theorem toNat_append_eq_add {m n : Nat} (x : BitVec m) (y : BitVec n) :
    (x ++ y).toNat = x.toNat * 2 ^ n + y.toNat := by
  rw [BitVec.toNat_append, ← Nat.shiftLeft_add_eq_or_of_lt y.isLt, Nat.shiftLeft_eq]

theorem Addr.low_bits_toNat (a : Addr) (n : Nat) : (a.extractLsb' 0 n).toNat = a.toNat % 2 ^ n := by
  rw [BitVec.extractLsb'_toNat, Nat.shiftRight_zero]

namespace Machine

variable {s : State} {rest : List Request} {a : Addr} {now : Seconds} {w : Bool}

theorem bankedRomOffset_eq_append (b : BitVec 9) (hlo : 0x4000 ≤ a.toNat) (hhi : a.toNat ≤ 0x7FFF) :
    bankedRomOffset b a = (b ++ a.extractLsb' 0 14 : BitVec 23).toNat := by
  rw [toNat_append_eq_add, Addr.low_bits_toNat, bankedRomOffset]
  omega

theorem bankedRamOffset_eq_append (b : BitVec 4) (hlo : 0xA000 ≤ a.toNat) (hhi : a.toNat ≤ 0xBFFF) :
    bankedRamOffset b a = (b ++ a.extractLsb' 0 13 : BitVec 17).toNat := by
  rw [toNat_append_eq_add, Addr.low_bits_toNat, bankedRamOffset_eq]
  omega

theorem flatRamOffset_eq_low_bits (hlo : 0xA000 ≤ a.toNat) (hhi : a.toNat ≤ 0xBFFF) :
    flatRamOffset a = (a.extractLsb' 0 13).toNat := by
  rw [Addr.low_bits_toNat, flatRamOffset_eq hlo]
  omega

/-- Settles O6: in its window an address less the window's base is its low bits. -/
theorem offsetsAreAssembledBits : Obligations.OffsetsAreAssembledBits := fun a romBank ramBank =>
  ⟨(BitVec.toNat_setWidth_of_le (by decide)).symm, bankedRomOffset_eq_append romBank,
    fun hlo hhi => ⟨bankedRamOffset_eq_append ramBank hlo hhi, flatRamOffset_eq_low_bits hlo hhi⟩⟩

/-! ### What a step serves -/

theorem transact_instr (hl : s.loaded = true) (hd : decode (commandWord s.cfg.mapper w a) d = .instr i) :
    transact w a d now s = exec i (s.begin now i) := by
  rw [transact, if_pos hl, hd]

/-- Settles O7: a read and a write are both `transact`, which runs what it decodes. -/
theorem stepRunsDecodedTransaction : Obligations.StepRunsDecodedTransaction := by
  intro s addr data now rest i hl
  refine ⟨fun hq hd => ?_, fun hq hd => ?_⟩ <;> rw [step_of_inbox hq] <;>
    exact transact_instr (s := s.withInbox rest) hl hd

theorem step_of_inbox_nil (h : s.inbox = []) : step s = .next s := by
  rw [step, serveNext, h]

/-- Settles O9: `serve` gives each host operation its own function. -/
theorem stepServesHostRequests : Obligations.StepServesHostRequests := fun _ _ _ =>
  ⟨step_of_inbox_nil, step_of_inbox, step_of_inbox, step_of_inbox⟩

theorem decodeTableWord_eq_some {nbits n : Nat} (h : decodeTableWord nbits n = .some i) :
    decode (BitVec.ofNat 20 n) Block.zero = .instr i := by
  unfold decodeTableWord at h
  split at h
  · next hd =>
    split at h
    · rw [hd, Option.some.inj h]
    · cases h
  · cases h

theorem serve_requestOfWord (cw : CmdWord) (now : Seconds) (s : State) :
    serve (requestOfWord cw now) s = transact (CmdWord.write cw) (CmdWord.addr cw) Block.zero now s := by
  rw [requestOfWord]
  cases CmdWord.write cw <;> rfl

/-- The word's transaction is the oldest request, and the cartridge has the word's strap code. -/
theorem step_presenting (hd : decode cw Block.zero = .instr i) (s : State) :
    step (s.presenting cw) = exec i (((s.presenting cw).withInbox s.inbox).begin s.rtc.last i) := by
  rw [step_of_inbox (s := s.presenting cw) rfl, serve_requestOfWord]
  refine transact_instr rfl ?_
  rw [← hd]
  exact congrArg (decode · Block.zero) (commandWord_fields cw)

/-- Settles O10: the placed word is presented, and its strap code names the variant of the transaction. -/
theorem placedWordIsRunNext : Obligations.PlacedWordIsRunNext := by
  intro s nbits w i h
  have hd := decodeTableWord_eq_some h
  have hm := (decode_isFor hd).2.mapper
  rw [hm]
  exact step_presenting hd s

/-! ### Writes without effect -/

/-- Settles O22: each of the three rows is `completeWrite`. -/
theorem noEffectWrites : Obligations.NoEffectWrites := by
  intro addr data s i hi _
  simp only [List.mem_cons, List.not_mem_nil, or_false] at hi
  rcases hi with rfl | rfl | rfl <;> exact completeWrite_spec s

end Machine

end Sys2Proof
end

section
/-! PROOFS. The register ports of MBC1 (41_mbc1.md), that its magic bits are one shared latch, and the RAM enable
port of the four banked variants. -/

namespace Sys2Proof.Machine

variable {c : Cfg} {s t : State} {i : Instr} {addr : Addr} {data : Block} {b b' : BankRegs}

/-! ### The fields of a port byte, in numbers -/

theorem romLow5_toNat (d : Byte) : (romLow5 d).toNat = d.toNat % 32 := by
  rw [romLow5, BitVec.extractLsb'_toNat, Nat.shiftRight_zero]

theorem magicField_toNat (d : Byte) : (magicField d).toNat = d.toNat % 4 := by
  rw [magicField, BitVec.extractLsb'_toNat, Nat.shiftRight_zero]

theorem enableFlag_iff (d : Byte) : enableFlag d = true ↔ d.toNat = 0x0A := by
  rw [enableFlag, beq_iff_eq, ← BitVec.toNat_inj, BitVec.toNat_ofNat]

/-! ### Which port function a transaction applies -/

theorem exec_wrRamen (h : i ∈ [Instr.mbc1WrRamen addr data, .mbc2WrRamen addr data, .mbc3WrRamen addr data,
    .mbc5WrRamen addr data]) (s : State) : exec i s = writePort (enablePort data[0]) s := by
  simp only [List.mem_cons, List.not_mem_nil, or_false] at h
  rcases h with rfl | rfl | rfl | rfl <;> rfl

/-- What a register port answers has the registers its function makes. -/
theorem writePort_bank {g : BankRegs → BankRegs} (h : writePort g s = .next t) : t.bank = g s.bank := by
  obtain ⟨t', ht', -, hb, -⟩ := writePort_spec g s
  rwa [Result.next_inj.1 (ht'.symm.trans h)] at hb

/-! ### The magic bits -/

theorem BankRegs.magic_of_mode (h : b.mode = true) : b.magic = b.ramBank.toNat % 4 := if_pos h

theorem BankRegs.magic_of_not_mode (h : b.mode = false) : b.magic = b.romBank.toNat / 32 % 4 :=
  if_neg (ne_true_of_eq_false h)

/-- A change of mode moves the magic bits with the live register. -/
theorem modePort_magic (m : Bool) (b : BankRegs) : (modePort m b).magic = b.magic := by
  obtain ⟨-, hm, hsame, henter, hleave⟩ := modePort_spec m b
  by_cases h : m = b.mode
  · rw [hsame h]
  · cases m with
    | true =>
      have hb : b.mode = false := by simpa using h
      rw [BankRegs.magic_of_mode hm, BankRegs.magic_of_not_mode hb, (henter hb rfl).1, Nat.mod_mod]
    | false =>
      have hb : b.mode = true := by simpa using h
      rw [BankRegs.magic_of_not_mode hm, BankRegs.magic_of_mode hb, (hleave hb rfl).2]
      omega

theorem modePort_romBank_low5 (m : Bool) (b : BankRegs) :
    (modePort m b).romBank.toNat % 32 = b.romBank.toNat % 32 := by
  obtain ⟨-, -, hsame, henter, hleave⟩ := modePort_spec m b
  by_cases h : m = b.mode
  · rw [hsame h]
  · cases m with
    | true => rw [(henter (by simpa using h) rfl).2]; omega
    | false => rw [(hleave (by simpa using h) rfl).2]; omega

/-- R158: on legal registers of MBC1 the magic bits stand in the live register and the other register has none. -/
theorem BankRegs.Legal.banks_toNat (hm : c.mapper = .mbc1) (h : b.Legal c) :
    b.romBank.toNat = (if b.mode then 0 else b.magic * 32) + b.romBank.toNat % 32 ∧
    b.ramBank.toNat = if b.mode then b.magic else 0 := by
  obtain ⟨hrom, -, hram, htrue, hfalse⟩ := (legal_mbc1 hm).1 h
  cases hmode : b.mode with
  | true =>
    have := htrue hmode
    simp only [magic_of_mode hmode, if_true]
    omega
  | false =>
    simp only [magic_of_not_mode hmode, hfalse hmode, Bool.false_eq_true, if_false]
    exact ⟨by omega, rfl⟩

/-- R158: with the mode and the low five bits, the magic bits of legal registers determine both bank numbers. -/
theorem BankRegs.Legal.banks_eq (hm : c.mapper = .mbc1) (h : b.Legal c) (h' : b'.Legal c) (hmode : b'.mode = b.mode)
    (hmagic : b'.magic = b.magic) (hlow : b'.romBank.toNat % 32 = b.romBank.toNat % 32) :
    b'.romBank = b.romBank ∧ b'.ramBank = b.ramBank := by
  obtain ⟨hrom, hram⟩ := h.banks_toNat hm
  obtain ⟨hrom', hram'⟩ := h'.banks_toNat hm
  rw [hmode, hmagic, hlow, ← hrom] at hrom'
  rw [hmode, hmagic, ← hram] at hram'
  exact ⟨BitVec.eq_of_toNat_eq hrom', BitVec.eq_of_toNat_eq hram'⟩

theorem BankRegs.eq_of_fields (hrom : b'.romBank = b.romBank) (hram : b'.ramBank = b.ramBank)
    (hen : b'.ramEn = b.ramEn) (hmode : b'.mode = b.mode) : b' = b := by
  cases b'
  cases b
  exact (BankRegs.mk.injEq ..).mpr ⟨hrom, hram, hen, hmode⟩

/-- R157 (d): the way there and back keeps mode, magic bits and low five bits, so it keeps the bank numbers. -/
theorem modePort_round_trip (hm : c.mapper = .mbc1) (h : b.Legal c) (hmode : b.mode = false) :
    modePort false (modePort true b) = b := by
  obtain ⟨hen', hmo', -⟩ := modePort_spec false (modePort true b)
  have hen : (modePort false (modePort true b)).ramEn = b.ramEn := hen'.trans (modePort_spec true b).1
  have hmo : (modePort false (modePort true b)).mode = b.mode := hmo'.trans hmode.symm
  obtain ⟨hrom, hram⟩ := h.banks_eq hm (modePort_legal false hm (modePort_legal true hm h)) hmo
    (by rw [modePort_magic, modePort_magic]) (by rw [modePort_romBank_low5, modePort_romBank_low5])
  exact BankRegs.eq_of_fields hrom hram hen hmo

/-! ### The ports -/

/-- Settles O24: the port's merged and corrected register, in numbers. -/
theorem mbc1RomBankPort : Obligations.Mbc1RomBankPort := by
  intro addr data s _
  obtain ⟨t, ht, ⟨-, hout⟩, hb, hs⟩ := writePort_spec
    (fun b => { b with romBank := zeroCorrect (withRomLow5 b.romBank (romLow5 data[0])) }) s
  refine ⟨t, ht, hout, hs, ?_⟩
  rw [hb, zeroCorrect_low5, romLow5_toNat]
  exact ⟨rfl, rfl, rfl, rfl⟩

/-- Settles O25: in either mode the port replaces one register, by the field of the byte. -/
theorem mbc1MagicPort : Obligations.Mbc1MagicPort := by
  intro addr data s _
  obtain ⟨t, ht, hw, hb, hs⟩ := writePort_spec
    (fun b => if b.mode then { b with ramBank := (magicField data[0]).setWidth 4 }
      else { b with romBank := withRomMagic b.romBank (magicField data[0]) }) s
  refine ⟨t, ht, hw, hs, ?_⟩
  cases hmode : s.bank.mode with
  | true =>
    rw [hb, if_pos hmode]
    have hram : ((magicField data[0]).setWidth 4).toNat = data[0].toNat % 4 := by
      rw [BitVec.toNat_setWidth_of_le (by decide), magicField_toNat]
    exact ⟨rfl, hmode, fun _ => ⟨hram, rfl⟩, nofun⟩
  | false =>
    rw [hb, if_neg (ne_true_of_eq_false hmode)]
    have hrom := withRomMagic_toNat s.bank.romBank (magicField data[0])
    rw [magicField_toNat] at hrom
    exact ⟨rfl, hmode, nofun, fun _ => ⟨rfl, hrom⟩⟩

/-- Settles O26: `modePort_spec`, with bit 0 of the byte as the mode that is written. -/
theorem mbc1ModePort : Obligations.Mbc1ModePort := by
  intro addr data s _
  obtain ⟨t, ht, ⟨-, hout⟩, hb, hs⟩ := writePort_spec (modePort (lowBit data[0])) s
  obtain ⟨hen, hmode, hsame, henter, hleave⟩ := modePort_spec (lowBit data[0]) s.bank
  refine ⟨t, ht, hout, hs, ?_⟩
  rw [hb, hmode]
  exact ⟨hen, lowBit_iff _, hsame, henter, hleave⟩

/-- Settles O27: the three ports and the magic bits, and what a legal state's registers hold. -/
theorem mbc1MagicBitsLaw : Obligations.Mbc1MagicBitsLaw := by
  intro addr data s hm hl
  obtain ⟨-, -, -, htrue, hfalse⟩ := (legal_mbc1 hm).1 hl
  refine ⟨fun hw => ?_, fun _ => ?_, fun hw => ?_, fun h => ?_, hfalse, fun _ h' => hl.banks_eq hm h'⟩
  · obtain ⟨t, ht, -, -, -, hmode, hram, hrom⟩ := mbc1MagicPort addr data s hw
    refine ⟨t, ht, ?_⟩
    cases h : s.bank.mode with
    | true => rw [BankRegs.magic_of_mode (hmode.trans h), (hram h).1, Nat.mod_mod]
    | false => rw [BankRegs.magic_of_not_mode (hmode.trans h), (hrom h).2]; omega
  · obtain ⟨t, ht, -, hb, -⟩ := writePort_spec (modePort (lowBit data[0])) s
    exact ⟨t, ht, by rw [hb, modePort_magic]⟩
  · obtain ⟨t, ht, -, -, hrom, hram, -, hmode⟩ := mbc1RomBankPort addr data s hw
    refine ⟨t, ht, ?_⟩
    rw [BankRegs.magic, BankRegs.magic, hmode, hram, hrom]
    congr 1
    split <;> omega
  · have := htrue h
    omega

/-- Settles O28: both writes apply `modePort`, and entering and leaving undo each other. -/
theorem mbc1ModeRoundTrip : Obligations.Mbc1ModeRoundTrip := by
  intro addr addr' data data' s t u hm hl hmode _ _ hd hd' ht hu
  have henter : lowBit data[0] = true := (lowBit_iff _).2 hd
  have hleave : lowBit data'[0] = false := by
    rw [← Bool.not_eq_true, lowBit_iff]
    omega
  have hbt : t.bank = modePort (lowBit data[0]) s.bank := writePort_bank ht
  have hbu : u.bank = modePort (lowBit data'[0]) t.bank := writePort_bank hu
  rw [hbu, hbt, hleave, henter, modePort_round_trip hm hl hmode]

/-- Settles O23: each of the four rows is `enablePort`. -/
theorem ramEnablePorts : Obligations.RamEnablePorts := by
  intro addr data s i hi _
  rw [exec_wrRamen hi]
  obtain ⟨t, ht, hw, hb, hs⟩ := writePort_spec (enablePort data[0]) s
  refine ⟨t, ht, hw, hs, ?_⟩
  rw [hb]
  exact ⟨enableFlag_iff _, rfl, rfl, rfl⟩

end Sys2Proof.Machine
end

section
/-! PROOFS. MBC2 (42_mbc2.md): its RAM, the one that `ram_en` gates, and its ROM bank port. -/

namespace Sys2Proof.Machine

variable {s : State} {addr : Addr} {data : Block}

/-! ### The gated RAM -/

theorem exec_mbc2RdRam : exec (.mbc2RdRam addr) s = readRamAt (gatedRamTarget addr s) s := rfl

theorem exec_mbc2WrRam : exec (.mbc2WrRam addr data) s = writeRamAt (gatedRamTarget addr s) data s := rfl

/-- Settles O16: both accesses go to `gatedRamTarget`, an offset or one of three conditions. -/
theorem mbc2RamIsGated : Obligations.Mbc2RamIsGated := by
  intro addr data s _ _ hm
  rw [exec_mbc2RdRam, exec_mbc2WrRam]
  refine ⟨fun hp he hb => ?_, fun hp => ?_, fun hp he => ?_, fun hp he hb => ?_⟩
  · rw [gatedRamTarget_enabled he, ramTarget_valid hp hb, ← bankedRamOffset_eq]
    exact ⟨exists_next_swap (readRamAt_at _ s), writeRamAt_at _ data s hm⟩
  · rw [gatedRamTarget_absent hp]
    exact ⟨exists_next_swap (readRamAt_fault _ s), exists_next_swap (writeRamAt_fault _ data s)⟩
  · rw [gatedRamTarget_disabled hp he]
    exact ⟨exists_next_swap (readRamAt_fault _ s), exists_next_swap (writeRamAt_fault _ data s)⟩
  · rw [gatedRamTarget_enabled he, ramTarget_range hp hb]
    exact ⟨exists_next_swap (readRamAt_fault _ s), exists_next_swap (writeRamAt_fault _ data s)⟩

/-! ### The ROM bank port -/

theorem low4_toNat (d : Byte) : (low4 d).toNat = d.toNat % 16 := by
  rw [low4, BitVec.extractLsb'_toNat, Nat.shiftRight_zero]

/-- R185, in numbers: four bits fill the whole register, and 0 becomes 1. -/
theorem low4_forced_toNat (d : Byte) :
    (if low4 d = 0#4 then 1#9 else (low4 d).setWidth 9).toNat =
      if d.toNat % 16 = 0 then 1 else d.toNat % 16 := by
  have hzero : low4 d = 0#4 ↔ d.toNat % 16 = 0 := by rw [← BitVec.toNat_inj, low4_toNat, BitVec.toNat_zero]
  rw [apply_ite BitVec.toNat, BitVec.toNat_setWidth_of_le (by decide), low4_toNat]
  exact if_congr hzero rfl rfl

/-- Settles O29: the register the port makes is `low4_forced_toNat`'s. -/
theorem mbc2RomBankPort : Obligations.Mbc2RomBankPort := by
  intro addr data s _
  obtain ⟨t, ht, hw, hb, hs⟩ := writePort_spec
    (fun b => { b with romBank := if low4 data[0] = 0#4 then 1#9 else (low4 data[0]).setWidth 9 }) s
  refine ⟨t, ht, hw, hs, ?_⟩
  rw [hb]
  exact ⟨low4_forced_toNat _, rfl, rfl, rfl⟩

end Sys2Proof.Machine
end

section
/-! PROOFS. MBC3 (43_mbc3.md): its ROM bank port, its select port and its latch port. -/

namespace Sys2Proof.Machine

variable {s : State} {r : Rtc} {addr : Addr} {data : Block} {timer : Bool} {d : Byte}

/-! ### The ROM bank port -/

theorem low7_toNat (d : Byte) : (low7 d).toNat = d.toNat % 128 := by
  rw [low7, BitVec.extractLsb'_toNat, Nat.shiftRight_zero]

/-- Settles O30: seven bits fill the register of nine, and nothing corrects them. -/
theorem mbc3RomBankPort : Obligations.Mbc3RomBankPort := by
  intro addr data s _
  obtain ⟨t, ht, hw, hb, hs⟩ := writePort_spec (fun b => { b with romBank := (low7 data[0]).setWidth 9 }) s
  refine ⟨t, ht, hw, hs, ?_⟩
  rw [hb]
  exact ⟨(BitVec.toNat_setWidth_of_le (by decide)).trans (low7_toNat _), rfl, rfl, rfl⟩

/-! ### The select port -/

/-- R206: the accepted bytes, in numbers. -/
theorem selAccepted_iff : selAccepted timer d = true ↔
    d.toNat ≤ 3 ∨ (timer = true ∧ 8 ≤ d.toNat ∧ d.toNat ≤ 12) := by
  simp [selAccepted, and_assoc]

/-- An accepted byte fits the four bits of `ram_bank`, so the register holds the whole byte. -/
theorem selAccepted_setWidth_toNat (h : selAccepted timer d = true) : (d.setWidth 4).toNat = d.toNat := by
  have hlt : d.toNat < 2 ^ 4 := by
    rcases selAccepted_iff.1 h with h | ⟨-, -, h⟩ <;> omega
  rw [BitVec.toNat_setWidth, Nat.mod_eq_of_lt hlt]

/-- Settles O31: an accepted byte replaces `ram_bank`, and any other leaves the registers as they were. -/
theorem mbc3SelectPort : Obligations.Mbc3SelectPort := by
  intro addr data s _
  obtain ⟨t, ht, hw, hb, hs⟩ := writePort_spec
    (fun b => if selAccepted s.cfg.hasTimer data[0] then { b with ramBank := data[0].setWidth 4 } else b) s
  refine ⟨t, ht, hw, hs, ?_⟩
  rw [hb]
  by_cases h : selAccepted s.cfg.hasTimer data[0] = true
  · rw [if_pos h, if_pos (selAccepted_iff.1 h)]
    exact ⟨rfl, rfl, rfl, selAccepted_setWidth_toNat h⟩
  · rw [if_neg h, if_neg (mt selAccepted_iff.2 h)]
    exact ⟨rfl, rfl, rfl, rfl⟩

/-! ### The latch port -/

/-- A write that replaces the RTC and completes changes nothing else. -/
theorem completeWrite_setRtc_spec (r : Rtc) (s : State) :
    ∃ t, completeWrite (s.setRtc r) = .next t ∧ t.Wrote ∧ s.SameButRtc t ∧ t.rtc = r :=
  ⟨_, rfl, ⟨rfl, rfl⟩, ⟨⟨rfl, fun _ => rfl, rfl, rfl, rfl, rfl, rfl⟩, rfl, fun _ => rfl, rfl⟩, rfl⟩

theorem latch_of_tick (h : tick s.now s.rtc = .some r) :
    latch s = completeWrite (s.setRtc { r with lat := r.live, latched := true }) := withTick_some h

theorem tick_last (h : tick s.now s.rtc = .some r) : r.last = s.now := by
  obtain ⟨-, rfl⟩ := tick_eq_some.1 h
  rfl

theorem exec_mbc3WrLatch_of_no_timer (ht : s.cfg.hasTimer = false) :
    exec (.mbc3WrLatch addr data) s = completeWrite s := by
  simp only [exec, execMbc3WrLatch, ht, Bool.not_false, if_true]

theorem exec_mbc3WrLatch_of_timer (ht : s.cfg.hasTimer = true) :
    exec (.mbc3WrLatch addr data) s = if data[0].toNat % 2 = 1 then latch s else unlatch s := by
  rw [exec, execMbc3WrLatch, ht, Bool.not_true, if_neg Bool.false_ne_true]
  exact if_congr (lowBit_iff _) rfl rfl

/-- Settles O42: without a timer the port is `completeWrite`; with one, bit 0 chooses `latch` or `unlatch`. -/
theorem mbc3LatchPort : Obligations.Mbc3LatchPort := by
  refine fun addr data s _ => ⟨fun ht => ?_, fun ht hbit => ?_, fun r ht hbit hr => ?_⟩
  · rw [exec_mbc3WrLatch_of_no_timer ht]
    exact completeWrite_spec s
  · rw [exec_mbc3WrLatch_of_timer ht, if_neg (by omega)]
    obtain ⟨t, he, hw, hs, hrtc⟩ := completeWrite_setRtc_spec { s.rtc with latched := false } s
    refine ⟨t, he, hw, hs, ?_⟩
    rw [hrtc]
    exact ⟨rfl, rfl, rfl, rfl⟩
  · rw [exec_mbc3WrLatch_of_timer ht, if_pos hbit, latch_of_tick hr]
    obtain ⟨t, he, hw, hs, hrtc⟩ := completeWrite_setRtc_spec { r with lat := r.live, latched := true } s
    have hlast : r.last = s.now := tick_last hr
    refine ⟨t, he, hw, hs, ?_⟩
    rw [hrtc]
    exact ⟨rfl, rfl, rfl, hlast⟩

end Sys2Proof.Machine
end

section
/-! PROOFS. MBC5 (44_mbc5.md): its two ROM bank ports and its RAM bank port. -/

namespace Sys2Proof.Machine

/-! ### The ROM bank ports -/

theorem lowBit_toNat (d : Byte) : (lowBit d).toNat = d.toNat % 2 := by
  rw [lowBit, BitVec.getLsbD, Nat.toNat_testBit, pow_zero, Nat.div_one]

/-- R236, in numbers: the kept bit 8 is a multiple of 256, and the byte lies below it. -/
theorem withRomByte_toNat (b : BitVec 9) (d : Byte) :
    (withRomByte b d).toNat = b.toNat / 256 * 256 + d.toNat := by
  have hkept : b.toNat &&& 2 ^ 8 = 2 ^ 8 * (b.toNat / 256) := by
    have hb := b.isLt
    rw [Nat.and_two_pow, Nat.toNat_testBit]
    omega
  calc (withRomByte b d).toNat = (b.toNat &&& 2 ^ 8) ||| d.toNat := by
        rw [withRomByte, BitVec.toNat_or, BitVec.toNat_and, BitVec.toNat_setWidth_of_le (by decide)]; rfl
    _ = 2 ^ 8 * (b.toNat / 256) + d.toNat := by rw [hkept, Nat.two_pow_add_eq_or_of_lt d.isLt]
    _ = b.toNat / 256 * 256 + d.toNat := by omega

/-- R237, in numbers: the new bit 8 is a multiple of 256, and the kept byte lies below it. -/
theorem withRomBit8_toNat (b : BitVec 9) (v : Bool) :
    (withRomBit8 b v).toNat = v.toNat * 256 + b.toNat % 256 := by
  have hnew : ((BitVec.ofBool v).setWidth 9 <<< 8).toNat = 2 ^ 8 * v.toNat := by cases v <;> rfl
  calc (withRomBit8 b v).toNat = 2 ^ 8 * v.toNat ||| b.toNat &&& (2 ^ 8 - 1) := by
        rw [withRomBit8, BitVec.toNat_or, BitVec.toNat_and, hnew, Nat.or_comm]; rfl
    _ = 2 ^ 8 * v.toNat + b.toNat % 2 ^ 8 := by
        rw [Nat.and_two_pow_sub_one_eq_mod, Nat.two_pow_add_eq_or_of_lt (Nat.mod_lt _ (Nat.two_pow_pos 8))]
    _ = v.toNat * 256 + b.toNat % 256 := by omega

/-- Settles O32: each port's merged register, in numbers. -/
theorem mbc5RomBankPorts : Obligations.Mbc5RomBankPorts := by
  refine fun addr data s => ⟨fun _ => ?_, fun _ => ?_⟩
  · obtain ⟨t, ht, hw, hb, hs⟩ := writePort_spec (fun b => { b with romBank := withRomByte b.romBank data[0] }) s
    refine ⟨t, ht, hw, hs, ?_⟩
    rw [hb]
    exact ⟨withRomByte_toNat _ _, rfl, rfl, rfl⟩
  · obtain ⟨t, ht, hw, hb, hs⟩ := writePort_spec
      (fun b => { b with romBank := withRomBit8 b.romBank (lowBit data[0]) }) s
    refine ⟨t, ht, hw, hs, ?_⟩
    rw [hb, ← lowBit_toNat]
    exact ⟨withRomBit8_toNat _ _, rfl, rfl, rfl⟩

/-! ### The RAM bank port -/

/-- Settles O33: the port takes the four bits of the byte and asks nothing of the cartridge. -/
theorem mbc5RamBankPort : Obligations.Mbc5RamBankPort := by
  intro addr data s _
  obtain ⟨t, ht, hw, hb, hs⟩ := writePort_spec (fun b => { b with ramBank := low4 data[0] }) s
  refine ⟨t, ht, hw, hs, ?_⟩
  rw [hb]
  exact ⟨low4_toNat _, rfl, rfl, rfl⟩

end Sys2Proof.Machine
end

section
/-! PROOFS. The clock (45_rtc.md): the laws of a tick, where it is refused, and what reads and writes of the RTC do. -/

namespace Sys2Proof.Machine

variable {s t : State} {i : Instr} {k : RtcReg} {addr : Addr} {data : Block}

/-! ### The three parts of the control byte (R36), in numbers, and the day counter (R35) -/

theorem ctl_bit0_toNat (b : Byte) : b.toNat % 2 = (dayBit8 b).toNat := by revert b; decide

theorem ctl_middle_toNat (b : Byte) : b.toNat / 2 % 64 = (b.extractLsb' 1 6).toNat := by revert b; decide

theorem ctl_bit7_toNat (b : Byte) : b.toNat / 128 = (dayCarry b).toNat := by revert b; decide

theorem ctl_eq_of_parts {b b' : Byte} (hbit : (dayBit8 b).toNat = (dayBit8 b').toNat)
    (hmid : b.extractLsb' 1 6 = b'.extractLsb' 1 6) (hcarry : dayCarry b = dayCarry b') : b = b' := by
  have hmid := congrArg BitVec.toNat hmid
  have hcarry := congrArg Bool.toNat hcarry
  rw [← ctl_bit0_toNat, ← ctl_bit0_toNat] at hbit
  rw [← ctl_middle_toNat, ← ctl_middle_toNat] at hmid
  rw [← ctl_bit7_toNat, ← ctl_bit7_toNat] at hcarry
  exact BitVec.eq_of_toNat_eq (by omega)

/-- R35: the two registers of the day counter, read back from it. -/
theorem dayCounter_parts (r : RtcRegs) :
    r.dayLow.toNat = dayCounter r % 256 ∧ (dayBit8 r.ctl).toNat = dayCounter r / 256 := by
  have := r.dayLow.isLt
  simp only [dayCounter]
  omega

/-- Five registers are equal when the time of day, the day counter and the rest of the control byte are. -/
theorem RtcRegs.eq_of_fields {r r' : RtcRegs} (hs : r.seconds.toNat = r'.seconds.toNat)
    (hm : r.minutes.toNat = r'.minutes.toNat) (hh : r.hours.toNat = r'.hours.toNat)
    (hday : dayCounter r = dayCounter r') (hmid : r.ctl.extractLsb' 1 6 = r'.ctl.extractLsb' 1 6)
    (hcarry : dayCarry r.ctl = dayCarry r'.ctl) : r = r' := by
  obtain ⟨hlow, hbit⟩ := dayCounter_parts r
  obtain ⟨hlow', hbit'⟩ := dayCounter_parts r'
  rw [hday, ← hlow'] at hlow
  rw [hday, ← hbit'] at hbit
  have hctl : r.ctl = r'.ctl := ctl_eq_of_parts hbit hmid hcarry
  cases r
  cases r'
  exact (RtcRegs.mk.injEq ..).mpr ⟨BitVec.eq_of_toNat_eq hs, BitVec.eq_of_toNat_eq hm, BitVec.eq_of_toNat_eq hh,
    BitVec.eq_of_toNat_eq hlow, hctl⟩

/-! ### The registers after an advance are those of the total time -/

theorem advance_seconds_total (r : RtcRegs) (d : Nat) : (advance r d).seconds.toNat = (r.total + d) % 60 := by
  rw [advance_seconds, RtcRegs.total]
  omega

theorem advance_minutes_total (r : RtcRegs) (d : Nat) :
    (advance r d).minutes.toNat = (r.total + d) / 60 % 60 := by
  rw [advance_minutes, RtcRegs.total]
  omega

theorem advance_hours_total (r : RtcRegs) (d : Nat) :
    (advance r d).hours.toNat = (r.total + d) / 3600 % 24 := by
  rw [advance_hours, RtcRegs.total]
  omega

/-- R270 (a): the time itself is kept, modulo 512 days. -/
theorem advance_total (r : RtcRegs) (d : Nat) : (advance r d).total = (r.total + d) % (512 * 86400) := by
  rw [RtcRegs.total, advance_seconds_total, advance_minutes_total, advance_hours_total, advance_dayCounter]
  omega

/-- R270 (d): the registers depend on the total time alone, and the carry is set in the first advance or in the
second. -/
theorem advance_advance (r : RtcRegs) (a b : Nat) : advance (advance r a) b = advance r (a + b) := by
  apply RtcRegs.eq_of_fields
  case hs => rw [advance_seconds_total, advance_seconds_total, advance_total]; omega
  case hm => rw [advance_minutes_total, advance_minutes_total, advance_total]; omega
  case hh => rw [advance_hours_total, advance_hours_total, advance_total]; omega
  case hday => rw [advance_dayCounter, advance_dayCounter, advance_total]; omega
  case hmid => simp only [advance_ctl, tickCtl_middle]
  case hcarry =>
    rw [advance_dayCarry, advance_dayCarry, advance_dayCarry, advance_total, Bool.or_assoc, ← Bool.decide_or]
    exact congrArg _ (decide_eq_decide.2 (by omega))

/-! ### The laws of a tick -/

theorem toNat_or_decide (b : Bool) (p : Prop) [Decidable p] :
    (b || decide p).toNat = if p then 1 else b.toNat := by
  by_cases h : p <;> simp [h]

/-- Settles O34: the day count of the chain is the total time in days. -/
theorem tickFollowsTheChain : Obligations.TickFollowsTheChain := by
  intro now r hle
  have hdd := advance_dd r.live (now.toNat - r.last.toNat)
  rw [dayCounter, ← ctl_bit0_toNat] at hdd
  refine ⟨_, tick_of_le hle, rfl, rfl, rfl, _, _, _, _, rfl, rfl, rfl, hdd.symm, advance_seconds _ _,
    advance_minutes _ _, advance_hours _ _, ?_, ?_, ?_, ?_⟩
  · rw [(dayCounter_parts _).1, advance_dayCounter]
  · rw [ctl_bit0_toNat, advance_ctl, tickCtl_dayBit8]
  · rw [ctl_middle_toNat, ctl_middle_toNat, advance_ctl, tickCtl_middle]
  · rw [ctl_bit7_toNat, ctl_bit7_toNat, advance_dayCarry, toNat_or_decide]

/-- Settles O35: `advance_total`, and the day count exceeds 511 exactly when the time reaches 512 days. -/
theorem tickConservesTime : Obligations.TickConservesTime := by
  intro now r r' h
  obtain ⟨-, rfl⟩ := tick_eq_some.1 h
  refine ⟨advance_total _ _, ?_⟩
  rw [advance_dayCarry, Bool.or_eq_true, decide_eq_true_iff]
  exact or_congr_right (by omega)

/-- Settles O37: `advance_advance`, over elapsed times that add up. -/
theorem ticksCompose : Obligations.TicksCompose := by
  intro t1 t2 r h1 h2
  rw [tick_of_le h1, tick_of_le (h1.trans h2), Option.bind_some, tick_of_le h2, advance_advance,
    Nat.add_comm, Nat.sub_add_sub_cancel h2 h1]

/-- Settles O36: each register is a remainder, and the second tick is the case of `ticksCompose` at equal times. -/
theorem tickNormalisesAndIsIdempotent : Obligations.TickNormalisesAndIsIdempotent := by
  intro now r r' h
  obtain ⟨hle, hr'⟩ := tick_eq_some.1 h
  have hagain : tick now r' = .some r' := by
    have := ticksCompose now now r hle le_rfl
    rwa [h, Option.bind_some] at this
  subst hr'
  refine ⟨?_, ?_, ?_, hagain⟩
  · rw [advance_seconds]; omega
  · rw [advance_minutes]; omega
  · rw [advance_hours]; omega

/-! ### Accesses to the registers -/

theorem exec_mbc3RdRam_rtc (h : rtcSelected s = .some k) : exec (.mbc3RdRam addr) s = rtcRead k s := by
  simp only [exec, execMbc3RdRam, h]

theorem exec_mbc3WrRam_rtc (h : rtcSelected s = .some k) :
    exec (.mbc3WrRam addr data) s = rtcWrite k data[0] s := by
  simp only [exec, execMbc3WrRam, h, portByte]

theorem rtcRead_of_latched (h : s.rtc.latched = true) :
    rtcRead k s = returnBlock (Block.bcast (s.rtc.lat.get k)) s := if_pos h

theorem rtcRead_of_not_latched (h : s.rtc.latched = false) :
    rtcRead k s = withTick s fun c => returnBlock (Block.bcast (c.live.get k)) (s.setRtc c) :=
  if_neg (ne_true_of_eq_false h)

theorem rtcSelected_of_ofBank (hw : s.RtcWindow) (h : RtcReg.ofBank s.bank.ramBank = .some k) :
    rtcSelected s = .some k := (rtcSelected_of_window hw).trans h

theorem exists_rtcSelected (h : s.RtcWindow) : ∃ k, rtcSelected s = .some k :=
  Option.ne_none_iff_exists'.1 fun hn => rtcSelected_eq_none.1 hn h

/-- A read that replaces the RTC and completes changes nothing else. -/
theorem returnBlock_setRtc_spec (c : Rtc) (v : Byte) (s : State) :
    ∃ t, returnBlock (Block.bcast v) (s.setRtc c) = .next t ∧ s.SameButRtc t ∧ t.rtc = c ∧
      t.Returned (fun _ => v) :=
  ⟨_, rfl, ⟨⟨rfl, fun _ => rfl, rfl, rfl, rfl, rfl, rfl⟩, rfl, fun _ => rfl, rfl⟩, rfl, rfl, _, rfl,
    fun _ h => Block.getElem_bcast h⟩

/-- R264: a register written is the one read back, and the other four stay. -/
theorem RtcRegs.get_set (r : RtcRegs) (k j : RtcReg) (b : Byte) :
    (r.set k b).get j = if j = k then b else r.get j := by
  cases k <;> cases j <;> rfl

/-- Settles O39: `rtcRead` broadcasts the snapshot's register, or the ticked one. -/
theorem mbc3RtcRead : Obligations.Mbc3RtcRead := by
  intro addr s k _ hw hk
  rw [exec_mbc3RdRam_rtc (rtcSelected_of_ofBank hw hk)]
  refine ⟨fun hl => ?_, fun c hl hc => ?_⟩
  · rw [rtcRead_of_latched hl]
    exact exists_next_swap (returnBlock_of _ s fun _ h => Block.getElem_bcast h)
  · rw [rtcRead_of_not_latched hl, withTick_some hc]
    exact returnBlock_setRtc_spec c _ s

/-- Settles O41: `rtcWrite` sets one live register, as `RtcRegs.get_set` says it. -/
theorem mbc3RtcWrite : Obligations.Mbc3RtcWrite := by
  intro addr data s k _ hw hk
  rw [exec_mbc3WrRam_rtc (rtcSelected_of_ofBank hw hk)]
  obtain ⟨t, he, hwrote, hs, hrtc⟩ :=
    completeWrite_setRtc_spec { s.rtc with live := s.rtc.live.set k data[0] } s
  refine ⟨t, he, hwrote, hs, ?_⟩
  rw [hrtc]
  exact ⟨(RtcRegs.get_set ..).trans (if_pos rfl), fun _ hne => (RtcRegs.get_set ..).trans (if_neg hne),
    rfl, rfl, rfl⟩

/-! ### Clocks behind the last tick -/

/-- Settles O38: the read, the latch and the load of a saved clock all pass their clock to `tick`. -/
theorem backwardsClockIsRefused : Obligations.BackwardsClockIsRefused := by
  refine fun addr data s p im => ⟨fun _ hlt hw hl => ?_, fun _ hlt ht hbit => ?_, fun hp hr hi hlt => ?_⟩
  · obtain ⟨k, hk⟩ := exists_rtcSelected hw
    rw [exec_mbc3RdRam_rtc hk, rtcRead_of_not_latched hl, withTick_none (tick_eq_none.2 hlt)]
  · rw [exec_mbc3WrLatch_of_timer ht, if_pos hbit, latch, withTick_none (tick_eq_none.2 hlt)]
  · refine load_backwards hp ?_
    rw [loadedRtc_restored hr hi]
    exact tick_eq_none.2 hlt

/-- The kinds of change that touch `rtc.last` are a tick and a latch write; an RTC write keeps it. -/
theorem Effect.last_le (he : Effect i s t) : s.rtc.last.toNat ≤ t.rtc.last.toNat := by
  cases he with
  | readSame | readFree | writeSame | port | store | rtcWrite => exact le_rfl
  | readTick _ c _ _ _ hc =>
    obtain ⟨hle, rfl⟩ := tick_eq_some.1 hc
    exact hle
  | latch _ _ _ _ _ _ hle => exact hle

/-- Settles O43: a step on a bus request is one effect, on a state with the same RTC. -/
theorem lastTickNeverMovesBack : Obligations.LastTickNeverMovesBack := by
  intro s t q rest hi hq hs
  rw [step_of_inbox hi] at hs
  obtain ⟨i, now, -, -, he⟩ := serve_bus_effect hq hs
  exact he.last_le

end Sys2Proof.Machine
end

section
/-! PROOFS. Exceptions (60_exceptions.md): every aligned bus transaction completes, but for the one refusal of the
clock (R290, R293). -/

namespace Sys2Proof.Machine

variable {s : State} {i : Instr} {m : Mapper} {w : Bool} {a : Addr} {d : Block} {now : Seconds}

/-! ### The transactions that tick -/

/-- R266: two rows of MBC3 run a tick. -/
theorem Ticks.cases (h : Ticks s i) :
    (∃ a, i = .mbc3RdRam a ∧ s.RtcWindow ∧ s.rtc.latched = false) ∨
    (∃ a d, i = .mbc3WrLatch a d ∧ s.cfg.hasTimer = true ∧ d[0].toNat % 2 = 1) := by
  cases i with
  | mbc3RdRam a => exact .inl ⟨a, rfl, h⟩
  | mbc3WrLatch a d => exact .inr ⟨a, d, rfl, h⟩
  | _ => exact h.elim

theorem Ticks.of_read (h : Ticks s i) (hi : i.IsFor m false a d) :
    m = .mbc3 ∧ s.RtcWindow ∧ 0xA000 ≤ a.toNat ∧ a.toNat ≤ 0xBFFF ∧ s.rtc.latched = false := by
  obtain ⟨hwf, rfl, rfl, hwrite, -⟩ := hi
  obtain ⟨-, hlo, hhi⟩ := (Instr.wf_iff i).1 hwf
  obtain ⟨_, rfl, hwin, hl⟩ | ⟨_, _, rfl, -⟩ := h.cases
  · exact ⟨rfl, hwin, hlo, hhi, hl⟩
  · cases hwrite

theorem Ticks.of_write (h : Ticks s i) (hi : i.IsFor m true a d) :
    m = .mbc3 ∧ s.cfg.hasTimer = true ∧ 0x6000 ≤ a.toNat ∧ a.toNat ≤ 0x7FFF ∧ d[0].toNat % 2 = 1 := by
  obtain ⟨hwf, rfl, rfl, hwrite, hpayload⟩ := hi
  obtain ⟨-, hlo, hhi⟩ := (Instr.wf_iff i).1 hwf
  obtain ⟨_, rfl, -⟩ | ⟨_, _, rfl, ht, hbit⟩ := h.cases
  · cases hwrite
  · cases hpayload
    exact ⟨rfl, ht, hlo, hhi, hbit⟩

/-! ### Every aligned transaction -/

theorem exists_decode_of_aligned (hm : m.modelled = true) (ha : a.toNat % 32 = 0) :
    ∃ i, decode (commandWord m w a) d = .instr i ∧ i.IsFor m w a d := by
  obtain ⟨i, hd⟩ := decode_some (cw := commandWord m w a) (d := d) (by simpa using hm) (by simpa using ha)
  exact ⟨i, hd, by simpa using (decode_isFor hd).2⟩

/-- R290, R293: an aligned transaction is an instruction of the cartridge's own variant, and only a tick of it is
refused. -/
theorem transact_next_or_refused (hl : s.loaded = true) (hm : s.cfg.mapper.modelled = true)
    (ha : a.toNat % 32 = 0) :
    (∃ t, transact w a d now s = .next t) ∨
    (transact w a d now s = .refused .clockBackwards ∧ now.toNat < s.rtc.last.toNat ∧
      ∃ i, i.IsFor s.cfg.mapper w a d ∧ Ticks (s.begin now i) i) := by
  obtain ⟨i, hd, hi⟩ := exists_decode_of_aligned (w := w) (d := d) hm ha
  rw [transact_instr hl hd]
  exact (exec_next_or_refused i (s.begin now i)).imp_right fun ⟨hr, ht, hlt⟩ => ⟨hr, hlt, i, hi, ht⟩

/-- Settles O11: a read and a write are both `transact`, and what ticks is `Ticks.of_read` or `Ticks.of_write`. -/
theorem alignedTransactionsComplete : Obligations.AlignedTransactionsComplete := by
  refine fun s addr data now rest hl hm ha => ⟨fun hq => ?_, fun hq => ?_⟩ <;> rw [step_of_inbox hq]
  · refine (transact_next_or_refused (s := s.withInbox rest) hl hm ha).imp_right ?_
    rintro ⟨hr, hlt, i, hi, ht⟩
    obtain ⟨hmbc3, hwin, hlo, hhi, hlatched⟩ := ht.of_read hi
    exact ⟨hr, hmbc3, hwin, hlo, hhi, hlatched, hlt⟩
  · refine (transact_next_or_refused (s := s.withInbox rest) hl hm ha).imp_right ?_
    rintro ⟨hr, hlt, i, hi, ht⟩
    obtain ⟨hmbc3, htimer, hlo, hhi, hbit⟩ := ht.of_write hi
    exact ⟨hr, hmbc3, htimer, hlo, hhi, hbit, hlt⟩

end Sys2Proof.Machine
end

section
/-! PROOFS. Load, save and unload (70_reset_and_hazards.md R320 to R332): what RAM and the RTC hold after a load, what
a save writes out, and that a load restores it. -/

namespace Sys2Proof.Machine

variable {s t : State} {p : Launch} {image : List Byte} {k size : Nat}

/-! ### RAM after a load -/

@[simp] theorem loadedState_ram (r : Rtc) : (loadedState p r s).ram = loadedRam p := rfl

theorem loadedRam_cold (hi : p.ramInit = .none) : loadedRam p = [] := by
  cases hp : p.cfg.ramPresent <;> simp only [loadedRam, hp, hi]

theorem loadedRam_restored (hp : p.cfg.ramPresent = true) (hi : p.ramInit = .some image) :
    loadedRam p = Memory.ofBytes ramBlank 0 (restoredBytes image p.cfg.ramBytes) := by
  simp only [loadedRam, hp, hi]

theorem restoredBytes_getElem_image (hk : k < (restoredBytes image size).length) (h : k < image.length) :
    (restoredBytes image size)[k] = image[k] := by
  rw [restoredBytes_length] at hk
  simp only [restoredBytes]
  rw [List.getElem_append_left (by rw [List.length_take]; omega), List.getElem_take]

theorem restoredBytes_getElem_zero (hk : k < (restoredBytes image size).length) (h : image.length ≤ k) :
    (restoredBytes image size)[k] = 0x00#8 := by
  simp only [restoredBytes]
  rw [List.getElem_append_right (by rw [List.length_take]; omega), List.getElem_replicate]

/-- An image of the array's own size is neither cut nor filled. -/
theorem restoredBytes_of_length (h : image.length = size) : restoredBytes image size = image := by
  simp [restoredBytes, ← h]

/-- Settles O47: without an image the array lists nothing, and an unlisted byte reads as the pattern. -/
theorem coldRamPattern : Obligations.ColdRamPattern := by
  intro p s t k h _ hi _
  obtain ⟨-, r, -, rfl⟩ := load_next.1 h
  rw [State.ramByte, loadedState_ram, loadedRam_cold hi, Memory.read_nil, ramBlank]

theorem loadedState_ramByte (r : Rtc) (hp : p.cfg.ramPresent = true) (hi : p.ramInit = .some image)
    (hk : k < p.cfg.ramBytes) : (loadedState p r s).ramByte k =
      (restoredBytes image p.cfg.ramBytes)[k]'(by rwa [restoredBytes_length]) := by
  simp [State.ramByte, loadedRam_restored hp hi, Memory.read_ofBytes, restoredBytes_length, hk]

/-- Settles O48: the clock lets the load complete, and a byte of RAM is the byte of `restoredBytes` at its index. -/
theorem restoredRamBytes : Obligations.RestoredRamBytes := by
  intro p s image hw hclock hp hi
  obtain ⟨r, hr, -⟩ := exists_loadedRtc_of_le hclock
  refine ⟨_, load_next.2 ⟨hw, r, hr, rfl⟩, fun k hk => ⟨fun h => ?_, fun h => ?_⟩⟩ <;>
    rw [loadedState_ramByte r hp hi hk]
  · exact restoredBytes_getElem_image _ h
  · exact restoredBytes_getElem_zero _ h

/-! ### The RTC after a load -/

/-- Settles O49: the cold RTC is its own record, and a restored one is what the load's tick answers. -/
theorem rtcAfterLoad : Obligations.RtcAfterLoad := by
  intro p s t h hc
  obtain ⟨-, r, hr, rfl⟩ := load_next.1 h
  refine ⟨fun hi => ?_, fun im hi => ?_⟩
  · rw [loadedRtc_cold fun _ => hi] at hr
    exact (Option.some.inj hr).symm
  · rw [loadedRtc_restored hc hi] at hr
    obtain ⟨-, rfl⟩ := tick_eq_some.1 hr
    exact ⟨rfl, rfl, rfl, hr⟩

/-! ### What a save does -/

theorem save_notLoaded (hl : s.loaded = false) : save s = .refused .notLoaded := by simp [save, hl]

theorem save_backed (hl : s.loaded = true) (hb : s.cfg.hasBattery = true) (hp : s.cfg.ramPresent = true) :
    save s = .next { s with saved := .some s.image } := by
  simp [save, hl, hb, hp]

theorem save_not_backed (hl : s.loaded = true) (h : s.cfg.hasBattery = false ∨ s.cfg.ramPresent = false) :
    save s = .next s := by
  rcases h with h | h <;> simp [save, hl, h]

theorem State.ramBytes_length (s : State) : s.ramBytes.length = s.cfg.ramBytes := by simp [State.ramBytes]

theorem State.ramBytes_getElem (s : State) (h : k < s.ramBytes.length) : s.ramBytes[k] = s.ramByte k := by
  simp [State.ramBytes]

theorem State.image_rtc_of_hasRtc (h : s.cfg.hasRtc = true) :
    s.image.rtc = .some ⟨s.rtc.live, s.rtc.lat, s.rtc.last⟩ := if_pos h

theorem State.image_rtc_of_not_hasRtc (h : s.cfg.hasRtc = false) : s.image.rtc = .none :=
  if_neg (Bool.eq_false_iff.1 h)

/-- Settles O50, by whether the RAM is there and battery-backed: if so the image is written out, else nothing is. -/
theorem saveWritesTheImage : Obligations.SaveWritesTheImage := by
  intro s hl
  by_cases h : s.cfg.hasBattery = true ∧ s.cfg.ramPresent = true
  · obtain ⟨hb, hp⟩ := h
    exact ⟨_, save_backed hl hb hp, rfl,
      fun _ _ => ⟨s.image, rfl, s.ramBytes_length, fun _ hk => s.ramBytes_getElem hk, State.image_rtc_of_hasRtc,
        State.image_rtc_of_not_hasRtc⟩,
      fun hn => by simp [hb, hp] at hn⟩
  · have hn : s.cfg.hasBattery = false ∨ s.cfg.ramPresent = false := by simpa [or_iff_not_imp_left] using h
    exact ⟨s, save_not_backed hl hn, rfl, fun hb hp => absurd ⟨hb, hp⟩ h, fun _ => rfl⟩

/-! ### A save, then a load -/

/-- A canonical array that lists nothing beyond its size is the one built from its bytes. -/
theorem ofBytes_ramBytes (h : s.Inv) : Memory.ofBytes ramBlank 0 s.ramBytes = s.ram := by
  refine Memory.eq_of_read_eq Memory.ofBytes_wf h.ram_wf fun k => ?_
  rw [Memory.read_ofBytes]
  split
  · simp only [State.ramBytes_getElem]
    rfl
  · next hk =>
    refine (Memory.read_of_not_mem fun c hc he => hk ?_).symm
    have := h.ram_size c hc
    rw [State.ramBytes_length]
    omega

theorem loadedRam_image (h : s.Inv) (hp : s.cfg.ramPresent = true) (hc : p.cfg = s.cfg)
    (hi : p.ramInit = .some s.image.ram) : loadedRam p = s.ram := by
  have hsize : s.image.ram.length = p.cfg.ramBytes := hc ▸ s.ramBytes_length
  rw [loadedRam_restored (hc ▸ hp) hi, restoredBytes_of_length hsize]
  exact ofBytes_ramBytes h

theorem loadedRtc_image (h : s.cfg.hasRtc = true) (hc : p.cfg = s.cfg) (hr : p.rtcInit = s.image.rtc) :
    loadedRtc p = tick p.now { s.rtc with latched := false } := by
  rw [State.image_rtc_of_hasRtc h] at hr
  exact loadedRtc_restored (hc ▸ h) hr

theorem last_of_image {i : RtcImage} (h : s.cfg.hasRtc = true) (hi : s.image.rtc = .some i) :
    i.last = s.rtc.last := by
  rw [State.image_rtc_of_hasRtc h] at hi
  exact (congrArg RtcImage.last (Option.some.inj hi)).symm

/-- Settles O51: the image is `State.image`, its RAM bytes rebuild the array, and its clock is the one the load
ticks. -/
theorem saveThenLoadRestores : Obligations.SaveThenLoadRestores := by
  intro s t im p hinv hl hb hp hs him hc hw hram hrtc hclock
  rw [save_backed hl hb hp] at hs
  obtain rfl := Result.next_inj.1 hs
  obtain rfl := Option.some.inj him
  have hle (i : RtcImage) (h : p.cfg.hasRtc = true) (hi : p.rtcInit = .some i) : i.last.toNat ≤ p.now.toNat := by
    rw [hc] at h
    rw [last_of_image h (hrtc.symm.trans hi)]
    exact hclock h
  obtain ⟨r, hr, -⟩ := exists_loadedRtc_of_le hle
  exact ⟨_, load_next.2 ⟨hw, r, hr, rfl⟩, loadedRam_image hinv hp hc hram,
    fun h => (loadedRtc_image h hc hrtc).symm.trans hr⟩

/-! ### An unload -/

/-- Settles O52: an unload only clears `loaded`, and a save and a bus transaction both ask for it. -/
theorem unloadEndsTheInstance : Obligations.UnloadEndsTheInstance := fun _ =>
  ⟨_, rfl, rfl, rfl, save_notLoaded rfl, fun _ _ _ _ => transact_notLoaded rfl⟩

end Sys2Proof.Machine
end
